-- ==== Sys2Proof/Word.lean ====
section
/-! DEFINITION. The word types of the block: register and sample bytes, the command word, the address of the
external sample memory (`spec/00_scope.md` R8, `spec/30_encoding.md` R100, `spec/20_memory.md` R74). A time is a count of CPU clock
cycles, unbounded (R8, `TIME_W` of R7; log entry 9): a natural number. -/

namespace Sys2Proof

/-- A register byte or a sample byte (R8, R70). -/
abbrev Byte := BitVec 8

/-- The command word `cmd_word` (R100, R101). -/
abbrev CmdWord := BitVec 32

/-- An address on the memory-read port (R74, R100). -/
abbrev Addr := BitVec 16

end Sys2Proof
end

