-- ==== Sys2Proof/Syntax.lean ====
section
/-! DEFINITION. The commands of the block as syntax: channel names, the command port, and `Instr`, one constructor
per row of `spec/opcode_table.json` (`spec/30_encoding.md` R100 to R103, R115). -/

namespace Sys2Proof

/-- The five channels (`spec/10_state.md` R20). -/
inductive Channel where
  | sq1 | sq2 | tri | noi | dmc
  deriving DecidableEq, Repr

/-- The two square channels: what a `c` of one bit names in the opcode table. -/
inductive SqChannel where
  | sq1 | sq2
  deriving DecidableEq, Repr

/-- The four channels without a sample player: what a `c` of two bits names in the opcode table. -/
inductive PlainChannel where
  | sq1 | sq2 | tri | noi
  deriving DecidableEq, Repr

/-- The four register numbers of a channel (R21, R72). -/
inductive RegNo where
  | r0 | r1 | r2 | r3
  deriving DecidableEq, Repr

/-- One command as the owner presents it: the word and the two time operands of the command port (R100). -/
structure Command where
  word : CmdWord
  t0 : Nat
  t1 : Nat
  deriving DecidableEq, Repr

/-- The commands of the block, one constructor per row of the opcode table (R115). -/
inductive Instr where
  /-- `RESET ch` (R311). -/
  | reset (ch : PlainChannel)
  /-- `RESET DMC` (R311). -/
  | resetDmc
  /-- `WR ch, addr, data` (R144). -/
  | wr (ch : PlainChannel) (addr : RegNo) (data : Byte)
  /-- `WR DMC, 0, data` (R144, R216). -/
  | wrDmc0 (data : Byte)
  /-- `WR DMC, 1, data` (R144, R217). -/
  | wrDmc1 (data : Byte)
  /-- `WR DMC, 2, data` (R144, R221). -/
  | wrDmc2 (data : Byte)
  /-- `WR DMC, 3, data` (R144, R221). -/
  | wrDmc3 (data : Byte)
  /-- `RUN ch, time, end_time` on a square channel (R141, R184). -/
  | runSq (ch : SqChannel) (time endTime : Nat)
  /-- `RUN TRI, time, end_time` (R141, R204). -/
  | runTri (time endTime : Nat)
  /-- `RUN NOI, time, end_time` (R141, R253). -/
  | runNoi (time endTime : Nat)
  /-- `RUN DMC, time, end_time` (R141, R227). -/
  | runDmc (time endTime : Nat)
  /-- `CLKLEN ch, haltMask` (R145). -/
  | clkLen (ch : PlainChannel) (haltMask : Byte)
  /-- `CLKENV ch` on a square channel (R171). -/
  | clkEnvSq (ch : SqChannel)
  /-- `CLKENV NOI` (R171). -/
  | clkEnvNoi
  /-- `CLKSWP ch, negativeAdjust`, the operand as its immediate byte `m8` (R109, R181). -/
  | clkSwp (ch : SqChannel) (m8 : Byte)
  /-- `CLKLIN TRI` (R201). -/
  | clkLin
  /-- `SETOUT ch, en` (R147). -/
  | setOut (ch : PlainChannel) (en : Bool)
  /-- `SETOUT DMC, en` (R147, R231). -/
  | setOutDmc (en : Bool)
  /-- `SETLEN ch, n` (R146). -/
  | setLen (ch : PlainChannel) (n : BitVec 16)
  /-- `DMCSTART DMC` (R224). -/
  | dmcStart
  /-- `DMCSTOP DMC` (R225). -/
  | dmcStop
  /-- `IRQACK DMC` (R226). -/
  | irqAck
  /-- `CNTRD DMC, t` (R228). -/
  | cntRd (t : Nat)
  deriving DecidableEq, Repr

/-- The channel a square-channel name names. -/
def SqChannel.toChannel : SqChannel → Channel
  | .sq1 => .sq1
  | .sq2 => .sq2

/-- The channel a plain-channel name names. -/
def PlainChannel.toChannel : PlainChannel → Channel
  | .sq1 => .sq1
  | .sq2 => .sq2
  | .tri => .tri
  | .noi => .noi

/-- The channel a command is for (the `CH` field, R101). -/
def Instr.channel : Instr → Channel
  | .reset ch => ch.toChannel
  | .resetDmc => .dmc
  | .wr ch _ _ => ch.toChannel
  | .wrDmc0 _ => .dmc
  | .wrDmc1 _ => .dmc
  | .wrDmc2 _ => .dmc
  | .wrDmc3 _ => .dmc
  | .runSq ch _ _ => ch.toChannel
  | .runTri _ _ => .tri
  | .runNoi _ _ => .noi
  | .runDmc _ _ => .dmc
  | .clkLen ch _ => ch.toChannel
  | .clkEnvSq ch => ch.toChannel
  | .clkEnvNoi => .noi
  | .clkSwp ch _ => ch.toChannel
  | .clkLin => .tri
  | .setOut ch _ => ch.toChannel
  | .setOutDmc _ => .dmc
  | .setLen ch _ => ch.toChannel
  | .dmcStart => .dmc
  | .dmcStop => .dmc
  | .irqAck => .dmc
  | .cntRd _ => .dmc

end Sys2Proof
end

