-- ==== Sys2Proof/WellFormed.lean ====
section
/-! DEFINITION. Which commands the encoding admits. Every operand but one takes every value of its type; the immediate of
CLKSWP is legal only as 0xFF (-1) or 0x00 (0) (`spec/30_encoding.md` R109, R111). A reversed RUN window is no question of
form: it is the command fault `BadWindow`, raised when the command runs (R141, R283). -/

namespace Sys2Proof

/-- The form check of R111, as a Bool. -/
def Instr.wellFormed : Instr → Bool
  | .reset _ => true
  | .resetDmc => true
  | .wr _ _ _ => true
  | .wrDmc0 _ => true
  | .wrDmc1 _ => true
  | .wrDmc2 _ => true
  | .wrDmc3 _ => true
  | .runSq _ _ _ => true
  | .runTri _ _ => true
  | .runNoi _ _ => true
  | .runDmc _ _ => true
  | .clkLen _ _ => true
  | .clkEnvSq _ => true
  | .clkEnvNoi => true
  | .clkSwp _ m8 => m8 == 0xFF#8 || m8 == 0x00#8
  | .clkLin => true
  | .setOut _ _ => true
  | .setOutDmc _ => true
  | .setLen _ _ => true
  | .dmcStart => true
  | .dmcStop => true
  | .irqAck => true
  | .cntRd _ => true

/-- `i` has a command word (R111). -/
abbrev WellFormed (i : Instr) : Prop := i.wellFormed = true

end Sys2Proof
end

