-- ==== Sys2Proof/Decode.lean ====
section
/-! DEFINITION. The command decoder and the encoder (`spec/30_encoding.md` R101 to R103, R109, R111, R115). `decode` is total
on every command; what it rejects it rejects by name. Both are written from the tables of R101, R102 and R103. -/

namespace Sys2Proof

/-- Why a command word is illegal (R111). All of these raise the one fault `CmdFault(IllegalCommand)`. -/
inductive Illegal where
  /-- `OP` is 0xD, 0xE or 0xF. -/
  | reservedOp
  /-- `CH` is 5, 6 or 7. -/
  | reservedChannel
  /-- `CH` is not in the "channels" column of R102 for that `OP`. -/
  | channelNotAllowed
  /-- `Z` is not 0. -/
  | zNotZero
  /-- An `IMM` bit outside the format's fields is not 0. -/
  | spareImmNotZero
  /-- CLKSWP with `m8` neither 0xFF nor 0x00. -/
  | badNegativeAdjust
  deriving DecidableEq, Repr

/-- The operations of the `OP` field (R102). -/
inductive Op where
  | reset | wr | run | clkLen | clkEnv | clkSwp | clkLin | setOut | setLen | dmcStart | dmcStop | irqAck | cntRd
  deriving DecidableEq, Repr

/-! ### The fields of the command word (R101) -/

/-- `OP`, bits 31:28. -/
def opField (w : CmdWord) : BitVec 4 := w.extractLsb' 28 4

/-- `CH`, bits 27:25. -/
def chField (w : CmdWord) : BitVec 3 := w.extractLsb' 25 3

/-- `Z`, bits 24:16. -/
def zField (w : CmdWord) : BitVec 9 := w.extractLsb' 16 9

/-- `IMM`, bits 15:0. -/
def immField (w : CmdWord) : BitVec 16 := w.extractLsb' 0 16

/-- The command word with the four fields of R101. -/
def packWord (op : BitVec 4) (ch : BitVec 3) (z : BitVec 9) (imm : BitVec 16) : CmdWord :=
  op ++ ch ++ z ++ imm

/-! ### The numbers of R101 and R102 -/

/-- The `OP` number of an operation (R102). -/
def Op.code : Op → BitVec 4
  | .reset => 0x0#4
  | .wr => 0x1#4
  | .run => 0x2#4
  | .clkLen => 0x3#4
  | .clkEnv => 0x4#4
  | .clkSwp => 0x5#4
  | .clkLin => 0x6#4
  | .setOut => 0x7#4
  | .setLen => 0x8#4
  | .dmcStart => 0x9#4
  | .dmcStop => 0xA#4
  | .irqAck => 0xB#4
  | .cntRd => 0xC#4

/-- The operation an `OP` number names; 0xD to 0xF are reserved (R102). -/
def Op.ofCode (b : BitVec 4) : Option Op :=
  match b.toNat with
  | 0x0 => some .reset
  | 0x1 => some .wr
  | 0x2 => some .run
  | 0x3 => some .clkLen
  | 0x4 => some .clkEnv
  | 0x5 => some .clkSwp
  | 0x6 => some .clkLin
  | 0x7 => some .setOut
  | 0x8 => some .setLen
  | 0x9 => some .dmcStart
  | 0xA => some .dmcStop
  | 0xB => some .irqAck
  | 0xC => some .cntRd
  | _ => none

/-- The `CH` number of a channel (R101). -/
def Channel.code : Channel → BitVec 3
  | .sq1 => 0#3
  | .sq2 => 1#3
  | .tri => 2#3
  | .noi => 3#3
  | .dmc => 4#3

/-- The channel a `CH` number names; 5, 6 and 7 are reserved (R101). -/
def Channel.ofCode (b : BitVec 3) : Option Channel :=
  match b.toNat with
  | 0 => some .sq1
  | 1 => some .sq2
  | 2 => some .tri
  | 3 => some .noi
  | 4 => some .dmc
  | _ => none

/-- The square channels: the "SQ1, SQ2" of R102's channels column. -/
def Channel.square? : Channel → Option SqChannel
  | .sq1 => some .sq1
  | .sq2 => some .sq2
  | .tri => none
  | .noi => none
  | .dmc => none

/-- The channels but the DMC: the "SQ1, SQ2, TRI, NOI" of R102's channels column. -/
def Channel.plain? : Channel → Option PlainChannel
  | .sq1 => some .sq1
  | .sq2 => some .sq2
  | .tri => some .tri
  | .noi => some .noi
  | .dmc => none

/-- The register number in two bits (R103, format W). -/
def RegNo.code : RegNo → BitVec 2
  | .r0 => 0#2
  | .r1 => 1#2
  | .r2 => 2#2
  | .r3 => 3#2

/-- The register number two bits name; there is no reserved one (R72). -/
def RegNo.ofCode (b : BitVec 2) : RegNo :=
  match b.toNat with
  | 0 => .r0
  | 1 => .r1
  | 2 => .r2
  | _ => .r3

/-! ### Immediates (R103) -/

/-- The `IMM` bits outside the format's fields: they must be 0 (R103, R111). -/
def Op.spareImm : Op → BitVec 16
  | .reset => 0xFFFF#16
  | .wr => 0xFC00#16
  | .run => 0xFFFF#16
  | .clkLen => 0xFF00#16
  | .clkEnv => 0xFFFF#16
  | .clkSwp => 0xFF00#16
  | .clkLin => 0xFFFF#16
  | .setOut => 0xFFFE#16
  | .setLen => 0x0000#16
  | .dmcStart => 0xFFFF#16
  | .dmcStop => 0xFFFF#16
  | .irqAck => 0xFFFF#16
  | .cntRd => 0xFFFF#16

/-- Format W, `addr` = `IMM[9:8]`. -/
def immAddr (imm : BitVec 16) : RegNo := RegNo.ofCode (imm.extractLsb' 8 2)

/-- Formats W and M, the low byte: `data` or `m8` = `IMM[7:0]`. -/
def immByte (imm : BitVec 16) : Byte := imm.extractLsb' 0 8

/-- Format E, `en` = `IMM[0]`. -/
def immEn (imm : BitVec 16) : Bool := imm.getLsbD 0

/-- Format W, encoded. -/
def immW (addr : RegNo) (data : Byte) : BitVec 16 := (0#6 ++ addr.code) ++ data

/-- Format M, encoded. -/
def immM (m8 : Byte) : BitVec 16 := 0#8 ++ m8

/-- Format E, encoded. -/
def immE (en : Bool) : BitVec 16 := if en then 1#16 else 0#16

/-! ### The decoder -/

/-- The command of a legal (operation, channel) pair with its immediate and times (R102, R115). The channel is checked here. -/
def buildInstr (op : Op) (ch : Channel) (imm : BitVec 16) (t0 t1 : Nat) : Except Illegal Instr :=
  match op with
  | .reset =>
    match ch.plain? with
    | some p => .ok (.reset p)
    | none => .ok .resetDmc
  | .wr =>
    match ch.plain? with
    | some p => .ok (.wr p (immAddr imm) (immByte imm))
    | none =>
      match immAddr imm with
      | .r0 => .ok (.wrDmc0 (immByte imm))
      | .r1 => .ok (.wrDmc1 (immByte imm))
      | .r2 => .ok (.wrDmc2 (immByte imm))
      | .r3 => .ok (.wrDmc3 (immByte imm))
  | .run =>
    match ch with
    | .sq1 => .ok (.runSq .sq1 t0 t1)
    | .sq2 => .ok (.runSq .sq2 t0 t1)
    | .tri => .ok (.runTri t0 t1)
    | .noi => .ok (.runNoi t0 t1)
    | .dmc => .ok (.runDmc t0 t1)
  | .clkLen =>
    match ch.plain? with
    | some p => .ok (.clkLen p (immByte imm))
    | none => .error .channelNotAllowed
  | .clkEnv =>
    match ch with
    | .sq1 => .ok (.clkEnvSq .sq1)
    | .sq2 => .ok (.clkEnvSq .sq2)
    | .tri => .error .channelNotAllowed
    | .noi => .ok .clkEnvNoi
    | .dmc => .error .channelNotAllowed
  | .clkSwp =>
    match ch.square? with
    | some c =>
      if immByte imm = 0xFF#8 ∨ immByte imm = 0x00#8 then .ok (.clkSwp c (immByte imm)) else .error .badNegativeAdjust
    | none => .error .channelNotAllowed
  | .clkLin => if ch = .tri then .ok .clkLin else .error .channelNotAllowed
  | .setOut =>
    match ch.plain? with
    | some p => .ok (.setOut p (immEn imm))
    | none => .ok (.setOutDmc (immEn imm))
  | .setLen =>
    match ch.plain? with
    | some p => .ok (.setLen p imm)
    | none => .error .channelNotAllowed
  | .dmcStart => if ch = .dmc then .ok .dmcStart else .error .channelNotAllowed
  | .dmcStop => if ch = .dmc then .ok .dmcStop else .error .channelNotAllowed
  | .irqAck => if ch = .dmc then .ok .irqAck else .error .channelNotAllowed
  | .cntRd => if ch = .dmc then .ok (.cntRd t0) else .error .channelNotAllowed

/-- The decoder (R111, R115). In formats without time operands `t0` and `t1` are ignored (R103). -/
def decode (c : Command) : Except Illegal Instr :=
  match Op.ofCode (opField c.word) with
  | none => .error .reservedOp
  | some op =>
    match Channel.ofCode (chField c.word) with
    | none => .error .reservedChannel
    | some ch =>
      if zField c.word ≠ 0#9 then .error .zNotZero
      else if immField c.word &&& op.spareImm ≠ 0#16 then .error .spareImmNotZero
      else buildInstr op ch (immField c.word) c.t0 c.t1

/-! ### The encoder -/

/-- A command without time operands. -/
def encodeWord (op : Op) (ch : Channel) (imm : BitVec 16) : Command := ⟨packWord op.code ch.code 0#9 imm, 0, 0⟩

/-- The command the owner presents for an instruction (R102, R103). -/
def encode : Instr → Command
  | .reset ch => encodeWord .reset ch.toChannel 0#16
  | .resetDmc => encodeWord .reset .dmc 0#16
  | .wr ch addr data => encodeWord .wr ch.toChannel (immW addr data)
  | .wrDmc0 data => encodeWord .wr .dmc (immW .r0 data)
  | .wrDmc1 data => encodeWord .wr .dmc (immW .r1 data)
  | .wrDmc2 data => encodeWord .wr .dmc (immW .r2 data)
  | .wrDmc3 data => encodeWord .wr .dmc (immW .r3 data)
  | .runSq ch time endTime => ⟨packWord Op.run.code ch.toChannel.code 0#9 0#16, time, endTime⟩
  | .runTri time endTime => ⟨packWord Op.run.code Channel.tri.code 0#9 0#16, time, endTime⟩
  | .runNoi time endTime => ⟨packWord Op.run.code Channel.noi.code 0#9 0#16, time, endTime⟩
  | .runDmc time endTime => ⟨packWord Op.run.code Channel.dmc.code 0#9 0#16, time, endTime⟩
  | .clkLen ch haltMask => encodeWord .clkLen ch.toChannel (immM haltMask)
  | .clkEnvSq ch => encodeWord .clkEnv ch.toChannel 0#16
  | .clkEnvNoi => encodeWord .clkEnv .noi 0#16
  | .clkSwp ch m8 => encodeWord .clkSwp ch.toChannel (immM m8)
  | .clkLin => encodeWord .clkLin .tri 0#16
  | .setOut ch en => encodeWord .setOut ch.toChannel (immE en)
  | .setOutDmc en => encodeWord .setOut .dmc (immE en)
  | .setLen ch n => encodeWord .setLen ch.toChannel n
  | .dmcStart => encodeWord .dmcStart .dmc 0#16
  | .dmcStop => encodeWord .dmcStop .dmc 0#16
  | .irqAck => encodeWord .irqAck .dmc 0#16
  | .cntRd t => ⟨packWord Op.cntRd.code Channel.dmc.code 0#9 0#16, t, 0⟩

/-! ### The command word as the opcode table numbers it -/

/-- The command whose word has the low `nbits` bits of `w` and zeros above, and whose time operands are 0. -/
def tableCommand (nbits w : Nat) : Command := ⟨BitVec.ofNat 32 (w % 2 ^ nbits), 0, 0⟩

/-- The instruction the decoder reads from a command word given as the opcode table gives it: bit 0 the least significant
(R9, R101). No command is longer than 32 bits. -/
def decodeTableWord (nbits w : Nat) : Option Instr :=
  if nbits ≤ 32 then
    match decode (tableCommand nbits w) with
    | .ok i => some i
    | .error _ => none
  else none

end Sys2Proof
end

