-- ==== Sys2Proof/Config.lean ====
section
/-! DEFINITION. What one instance of the block fixes: the OPEN parameters of `spec/00_scope.md` R7 that a rule
reads, as plain data (`Params`), and the values the spec leaves open, as constants without a body. -/

namespace Sys2Proof

/-- The OPEN parameters of R7 that select between behaviours the spec gives. They are an argument of the model:
every state carries one `Params`, no step changes it (log entry 2). -/
structure Params where
  /-- `PAL[SQ1]` (R29): read by no rule. -/
  palSq1 : Bool
  /-- `PAL[SQ2]` (R29): read by no rule. -/
  palSq2 : Bool
  /-- `PAL[TRI]` (R29): read by no rule. -/
  palTri : Bool
  /-- `PAL[NOI]` (R29): selects the row of `NOISE_PERIOD` (R252). -/
  palNoi : Bool
  /-- `PAL[DMC]` (R29): selects the row of `DMC_PERIOD` (R218). -/
  palDmc : Bool
  /-- `NONLINEAR` (R7, R217): true for the hardware. -/
  nonlinear : Bool
  /-- `MEM_READER_PRESENT` (R7, R220): whether the owner has configured the memory reader. -/
  memReaderPresent : Bool
  deriving DecidableEq, Repr

/-- `DAC_COMP(old, new)` (R7, R217, U15): the compensation of the level when `NONLINEAR` is false. The spec gives
no formula: a free value (log entry 10). -/
opaque Config.dacComp : Nat → Nat → Int

/-- The byte the owner's memory reader answers to its `k`-th read, at address `a` (R75, U3): "any byte may come back,
and two reads of the same address need not agree". A free value (log entry 5). -/
opaque Config.readerByte : Nat → Addr → Byte

/-- `RS_FACTOR` (R7, R267): any non-negative integer. A free value (log entry 11). -/
opaque Config.rsFactor : Nat

/-- `RS_OFFSET` (R7, R267): any non-negative integer. A free value (log entry 11). -/
opaque Config.rsOffset : Nat

end Sys2Proof
end

