-- ==== Sys2Proof/Machine/State.lean ====
section
/-! DEFINITION. The state of the block as plain data, the three outcomes of a step, and the state after power-on
(`spec/10_state.md`, `spec/46_accumulator.md` R265, `spec/60_exceptions.md` R280, `spec/70_reset_and_hazards.md` R310).
Fields that the rules add to, compare or shift as bits are bit vectors; counts, times and levels are numbers, since no rule
relies on their wrapping (`spec/00_scope.md` R8, `spec/92_eei_decisions.md` D4; log entry 8). -/

namespace Sys2Proof.Machine

/-! ### The base state of every channel (R21 to R30) -/

/-- The four register bytes `reg[ch][0..3]` (R21). -/
structure Regs where
  r0 : Byte
  r1 : Byte
  r2 : Byte
  r3 : Byte
  deriving DecidableEq, Repr

/-- The four write latches `reg_written[ch][0..3]` (R24). -/
structure Latches where
  w0 : Bool
  w1 : Bool
  w2 : Bool
  w3 : Bool
  deriving DecidableEq, Repr

/-- The oscillator base state of one channel (R21 to R30). -/
structure Base where
  /-- `reg[ch][0..3]` (R21). -/
  regs : Regs
  /-- `reg_written[ch][0..3]` (R24). -/
  written : Latches
  /-- `length_counter`; for the DMC the sample bytes still to be read (R25). -/
  lengthCounter : Nat
  /-- `delay`: cycles until the next timer edge (R26). -/
  delay : Nat
  /-- `last_amp`: the level last tracked (R27). -/
  lastAmp : Int
  /-- `trigger` (R30). -/
  trigger : Bool
  /-- `out_en`: bound to the accumulator (R28). -/
  outEn : Bool
  deriving DecidableEq, Repr

/-! ### The state of each channel kind (R31 to R42) -/

/-- The envelope unit of SQ1, SQ2 and NOI (R31). -/
structure Envelope where
  /-- `envelope`: the decay level. -/
  envelope : BitVec 4
  /-- `env_delay`: CLKENV ticks to the next decay step. -/
  envDelay : BitVec 4
  deriving DecidableEq, Repr

/-- A square channel (R32). -/
structure Square where
  base : Base
  env : Envelope
  /-- `phase`, 0..7. -/
  phase : BitVec 3
  /-- `sweep_delay`, 0..7. -/
  sweepDelay : BitVec 3
  deriving DecidableEq, Repr

/-- The triangle channel (R33). -/
structure Triangle where
  base : Base
  /-- `phase`, 1..32. -/
  phase : Nat
  /-- `linear_counter`. -/
  linearCounter : BitVec 7
  deriving DecidableEq, Repr

/-- The noise channel (R42). -/
structure Noise where
  base : Base
  env : Envelope
  /-- `noise`: the 15-bit shift register. -/
  noise : BitVec 15
  deriving DecidableEq, Repr

/-- The sample player (R34 to R41). -/
structure Dmc where
  base : Base
  /-- `address`: the cursor into the high bank (R34). -/
  address : BitVec 15
  /-- `period`: cycles per bit (R35). -/
  period : Nat
  /-- `buf`: the read-ahead byte (R36). -/
  buf : Byte
  /-- `buf_full` (R36). -/
  bufFull : Bool
  /-- `bits`: the shift register (R37). -/
  bits : Byte
  /-- `bits_remain`, 1..8: edges until the shift register is reloaded (R37). -/
  bitsRemain : Nat
  /-- `dac`: the output level (R38). -/
  dac : BitVec 7
  /-- `paused_dac` (R38). -/
  pausedDac : BitVec 7
  /-- `silence` (R39). -/
  silence : Bool
  /-- `irq_enabled` (R40). -/
  irqEnabled : Bool
  /-- `irq_flag` (R40). -/
  irqFlag : Bool
  /-- `next_irq`: NONE or a time (R40). -/
  nextIrq : Option Nat
  /-- `last_time`: the `end_time` of the last RUN (R41). -/
  lastTime : Nat
  deriving DecidableEq, Repr

/-! ### The accumulator, the outputs and the inputs -/

/-- One entry of `acc_log` (R265). -/
structure Emission where
  ch : Channel
  time : Nat
  delta : Int
  deriving DecidableEq, Repr

/-- The delta accumulator (R265). -/
structure Accum where
  /-- `acc_log`, in order of arrival. -/
  log : List Emission
  /-- `acc_sum`. -/
  sum : Int
  deriving DecidableEq, Repr

/-- The two notification pulses (R100, R288, R289). -/
inductive Notification where
  | irqChanged
  | dmcDisabled
  deriving DecidableEq, Repr

/-- The bytes the owner promises to answer, by address: a list in canonical form (`Memory.wf`). An address that is not
listed answers with a free value (R75; log entry 5). -/
abbrev Memory := List Host.Cell

/-- The whole block. -/
structure State where
  /-- The OPEN parameters of R7: the model's argument, never changed by a step (log entry 2). -/
  params : Params
  sq1 : Square
  sq2 : Square
  tri : Triangle
  noi : Noise
  dmc : Dmc
  /-- `acc_log` and `acc_sum` (R43, R265). -/
  acc : Accum
  /-- `faulted` (R44, R281). -/
  faulted : Bool
  /-- `cmd_fault` (R44, R282). -/
  cmdFault : Bool
  /-- `resp_count`, the response output (R100, R116): the last count CNTRD returned (log entry 6). -/
  respCount : Nat
  /-- The pulses raised so far, in order (R288, R289; log entry 7). -/
  notifications : List Notification
  /-- The addresses put on the memory-read port so far, in order (R75, R100; log entry 7). -/
  memReads : List Addr
  /-- What the owner promises of the external sample memory (R74, R75; log entry 5). -/
  mem : Memory
  /-- The commands presented and not yet executed, next first (R20, R100; log entry 1). -/
  pending : List Command
  deriving DecidableEq, Repr

/-! ### Outcomes -/

/-- The faults that stop a step. -/
inductive Fault where
  /-- `Fatal(NoMemReader)`, code 1 (R280, R281): raised by FILL_BUFFER inside `RUN DMC` or `DMCSTART` when a byte is due
  and no memory reader is configured. R281: "a model treats it as a fault outcome of the step". It carries the state the
  spec gives: the effects before the read kept, `faulted` set. Safe: nothing is said of a next state (log entry 3). -/
  | noMemReader (after : State)
  deriving DecidableEq, Repr

/-- The refusals of a step. -/
inductive Refusal where
  /-- Raised by an arm of `exec` whose instruction has no meaning yet; no arm is in that case. Safe: nothing is said of a
  next state. -/
  | notModelled (mnemonic : String)
  deriving DecidableEq, Repr

/-- What a step or a meaning answers. -/
abbrev Result := Host.Outcome State Fault Refusal

/-! ### Power-on values (R51) -/

/-- R51, base rows; `out_en` 0. -/
def Base.powerOn : Base where
  regs := ⟨0#8, 0#8, 0#8, 0#8⟩
  written := ⟨false, false, false, false⟩
  lengthCounter := 0
  delay := 0
  lastAmp := 0
  trigger := false
  outEn := false

/-- R51, envelope rows. -/
def Envelope.powerOn : Envelope where
  envelope := 0#4
  envDelay := 0#4

/-- R51, square rows. -/
def Square.powerOn : Square where
  base := Base.powerOn
  env := Envelope.powerOn
  phase := 0#3
  sweepDelay := 0#3

/-- R51, triangle rows. -/
def Triangle.powerOn : Triangle where
  base := Base.powerOn
  phase := 1
  linearCounter := 0#7

/-- R51, noise rows: only bit 14 of the register set. -/
def Noise.powerOn : Noise where
  base := Base.powerOn
  env := Envelope.powerOn
  noise := 0x4000#15

/-- R51, DMC rows; `period` is `DMC_DEFAULT_PERIOD` (R218). -/
def Dmc.powerOn : Dmc where
  base := Base.powerOn
  address := 0#15
  period := 428
  buf := 0#8
  bufFull := false
  bits := 0#8
  bitsRemain := 1
  dac := 0#7
  pausedDac := 0#7
  silence := true
  irqEnabled := false
  irqFlag := false
  nextIrq := none
  lastTime := 0

/-- The parameters a power-on state carries: R7's values for `NONLINEAR` and `MEM_READER_PRESENT`; `PAL` all 0 is a
DESIGN CHOICE (log entry 2). -/
def defaultParams : Params where
  palSq1 := false
  palSq2 := false
  palTri := false
  palNoi := false
  palDmc := false
  nonlinear := true
  memReaderPresent := true

/-- Power-on reset (R310, R51). -/
def State.reset : State where
  params := defaultParams
  sq1 := Square.powerOn
  sq2 := Square.powerOn
  tri := Triangle.powerOn
  noi := Noise.powerOn
  dmc := Dmc.powerOn
  acc := ⟨[], 0⟩
  faulted := false
  cmdFault := false
  respCount := 0
  notifications := []
  memReads := []
  mem := []
  pending := []

end Sys2Proof.Machine
end

