-- ==== Sys2Proof/Machine/Ops.lean ====
section
/-! DEFINITION. The named operations over registers, channels, the accumulator, the external memory and the faults, which
every meaning goes through. Raising a command fault and raising the fatal fault (`spec/60_exceptions.md` R281, R282) stand
here, each as one operation. -/

namespace Sys2Proof.Machine

/-! ### Register bytes and write latches (R21, R24) -/

/-- `reg[ch][a]`. -/
def Regs.get (r : Regs) : RegNo → Byte
  | .r0 => r.r0
  | .r1 => r.r1
  | .r2 => r.r2
  | .r3 => r.r3

/-- `reg[ch][a] <- v`. -/
def Regs.set (r : Regs) (a : RegNo) (v : Byte) : Regs :=
  match a with
  | .r0 => { r with r0 := v }
  | .r1 => { r with r1 := v }
  | .r2 => { r with r2 := v }
  | .r3 => { r with r3 := v }

/-- `reg_written[ch][a]`. -/
def Latches.get (w : Latches) : RegNo → Bool
  | .r0 => w.w0
  | .r1 => w.w1
  | .r2 => w.w2
  | .r3 => w.w3

/-- `reg_written[ch][a] <- v`. -/
def Latches.set (w : Latches) (a : RegNo) (v : Bool) : Latches :=
  match a with
  | .r0 => { w with w0 := v }
  | .r1 => { w with w1 := v }
  | .r2 => { w with w2 := v }
  | .r3 => { w with w3 := v }

/-- The register write of R144: the byte and its latch, nothing else. -/
def Base.writeReg (b : Base) (a : RegNo) (data : Byte) : Base :=
  { b with regs := b.regs.set a data, written := b.written.set a true }

/-! ### Channels by name (R10, R20) -/

/-- The base state of a channel. -/
def State.base (s : State) : Channel → Base
  | .sq1 => s.sq1.base
  | .sq2 => s.sq2.base
  | .tri => s.tri.base
  | .noi => s.noi.base
  | .dmc => s.dmc.base

/-- The state with another base state in one channel. -/
def State.setBase (s : State) (ch : Channel) (b : Base) : State :=
  match ch with
  | .sq1 => { s with sq1 := { s.sq1 with base := b } }
  | .sq2 => { s with sq2 := { s.sq2 with base := b } }
  | .tri => { s with tri := { s.tri with base := b } }
  | .noi => { s with noi := { s.noi with base := b } }
  | .dmc => { s with dmc := { s.dmc with base := b } }

/-- A square channel by name. -/
def State.square (s : State) : SqChannel → Square
  | .sq1 => s.sq1
  | .sq2 => s.sq2

/-- The state with another square channel under that name. -/
def State.setSquare (s : State) (ch : SqChannel) (c : Square) : State :=
  match ch with
  | .sq1 => { s with sq1 := c }
  | .sq2 => { s with sq2 := c }

/-- The state with another triangle channel. -/
def State.setTri (s : State) (c : Triangle) : State := { s with tri := c }

/-- The state with another noise channel. -/
def State.setNoi (s : State) (c : Noise) : State := { s with noi := c }

/-- The state with another sample player. -/
def State.setDmc (s : State) (c : Dmc) : State := { s with dmc := c }

/-- The state with another accumulator. -/
def State.setAcc (s : State) (a : Accum) : State := { s with acc := a }

/-! ### The accumulator and the notifications -/

/-- `Emit(ch, t, d)` (R266). -/
def Accum.emit (a : Accum) (ch : Channel) (t : Nat) (d : Int) : Accum :=
  ⟨a.log ++ [⟨ch, t, d⟩], a.sum + d⟩

/-- `Notify IrqChanged` or `Notify DmcDisabled` (R288, R289): one pulse to the owner. -/
def State.notify (s : State) (n : Notification) : State :=
  { s with notifications := s.notifications ++ [n] }

/-! ### The external sample memory (R74, R75) -/

/-- Addresses strictly rising, each above `low`, and inside the 16-bit space of R47. -/
def Memory.risingAbove (low : Nat) : Memory → Bool
  | [] => true
  | (a, _) :: rest => decide (low ≤ a) && decide (a < 0x10000) && Memory.risingAbove (a + 1) rest

/-- The canonical form: addresses strictly rising inside the 16-bit space. An unlisted address answers with a free value,
so no entry is known to equal what it would read as (log entry 5). -/
def Memory.wf (m : Memory) : Bool := Memory.risingAbove 0 m

/-- The byte promised at an address, if there is one. -/
def Memory.lookup (a : Nat) : Memory → Option Byte
  | [] => none
  | (k, v) :: rest => if k = a then some v else Memory.lookup a rest

/-- The owner's side of R75: promise a byte at an address. No rule of the block writes this memory (R76). -/
def Memory.place (a : Nat) (v : Byte) : Memory → Memory
  | [] => [(a, v)]
  | (k, w) :: rest =>
    if a < k then (a, v) :: (k, w) :: rest
    else if a = k then (a, v) :: rest
    else (k, w) :: Memory.place a v rest

/-- The byte the reader answers at `a`: the promised one, else a free value that differs from read to read (R75, U3). -/
def State.readerAnswer (s : State) (a : Addr) : Byte :=
  match Memory.lookup a.toNat s.mem with
  | some v => v
  | none => Config.readerByte s.memReads.length a

/-- `MemRead(a, 1)` as the block's port sees it: the address goes out (R75, R100). -/
def State.memRead (s : State) (a : Addr) : Byte × State :=
  (s.readerAnswer a, { s with memReads := s.memReads ++ [a] })

/-- `DMC_BANK + address` (R7, R74). -/
def bankAddr (cursor : BitVec 15) : Addr := 0x8000#16 + cursor.setWidth 16

/-! ### Raising faults (R280 to R282) -/

/-- The reasons of a command fault (R280). -/
inductive CmdFaultReason where
  | illegalCommand
  | badWindow
  deriving DecidableEq, Repr

/-- The codes of R280. -/
def CmdFaultReason.code : CmdFaultReason → Nat
  | .illegalCommand => 2
  | .badWindow => 3

/-- The code of R280. -/
def Fault.code : Fault → Nat
  | .noMemReader _ => 1

/-- `raise CmdFault(r)` (R282): no effect on any channel or the accumulator, the sticky bit set, the reason not recorded. -/
def raiseCmdFault (_reason : CmdFaultReason) (s : State) : Result := .next { s with cmdFault := true }

/-- `raise Fatal(NoMemReader)` (R281): the command stops where it is; what it has done stays; `faulted` is set. -/
def raiseFatal (s : State) : Result := .fault (.noMemReader { s with faulted := true })

/-- The way through a command in which FILL_BUFFER may raise `Fatal`: go on, or stop at this state (R281). -/
inductive Flow where
  | goOn (s : State)
  | fatal (s : State)
  deriving DecidableEq, Repr

/-- Go on with `f`, unless the command has stopped. -/
def Flow.bind : Flow → (State → Flow) → Flow
  | .goOn s, f => f s
  | .fatal s, _ => .fatal s

/-- The end of such a command. -/
def Flow.toResult : Flow → Result
  | .goOn s => .next s
  | .fatal s => raiseFatal s

/-- The state a command has reached. -/
def Flow.state : Flow → State
  | .goOn s => s
  | .fatal s => s

/-! ### The owner's side of the command port (R100) -/

/-- The owner presents one more command behind those already waiting. -/
def State.issue (s : State) (c : Command) : State := { s with pending := s.pending ++ [c] }

end Sys2Proof.Machine
end

