-- ==== Sys2Proof/Machine/Admission.lean ====
section
/-! DEFINITION. Command admission (`spec/60_exceptions.md` R283): what the block does with a presented command before its rule
runs. The window check of RUN is the third check of R283 and stands in `runWindow` (R141). -/

namespace Sys2Proof.Machine

/-- What admission decides. -/
inductive Admitted where
  /-- The command is ignored: the block is faulted (R283, 1). -/
  | ignored
  /-- The command word is illegal (R283, 2). -/
  | illegal (why : Illegal)
  /-- The command's rule runs. -/
  | run (i : Instr)
  deriving DecidableEq, Repr

/-- The checks of R283 in their order. -/
def admission (faulted : Bool) (c : Command) : Admitted :=
  if faulted then .ignored
  else
    match decode c with
    | .error e => .illegal e
    | .ok i => .run i

end Sys2Proof.Machine
end

