-- ==== Sys2Proof/Machine/Operands.lean ====
section
/-! DEFINITION. The operand forms: every bit field of the register bytes (`spec/30_encoding.md` R104 to R108, R110), the
immediates (R109), the period tables (`spec/44_dmc.md` R218, `spec/45_noise.md` R252) and the fixed constants of
`spec/00_scope.md` R7. -/

namespace Sys2Proof.Machine

/-- Bit field `hi:lo` of a byte as a number (R9). -/
def byteField (v : Byte) (lo len : Nat) : Nat := (v.extractLsb' lo len).toNat

/-! ### Register 0 of SQ1, SQ2, NOI (R104, R106) -/

/-- `duty_select`, bits 7:6. -/
def Regs.dutySelect (r : Regs) : BitVec 2 := r.r0.extractLsb' 6 2

/-- `loop_halt`, bit 5. -/
def Regs.loopHalt (r : Regs) : Bool := r.r0.getLsbD 5

/-- `const_vol`, bit 4. -/
def Regs.constVol (r : Regs) : Bool := r.r0.getLsbD 4

/-- `vol_period`, bits 3:0. -/
def Regs.volPeriod (r : Regs) : BitVec 4 := r.r0.extractLsb' 0 4

/-! ### Register 1 of SQ1, SQ2 (R104) -/

/-- `sweep_en`, bit 7. -/
def sweepEn (sweep : Byte) : Bool := sweep.getLsbD 7

/-- `sweep_period`, bits 6:4. -/
def sweepPeriod (sweep : Byte) : BitVec 3 := sweep.extractLsb' 4 3

/-- `negate`, bit 3. -/
def sweepNegate (sweep : Byte) : Bool := sweep.getLsbD 3

/-- `shift`, bits 2:0. -/
def sweepShift (sweep : Byte) : Nat := byteField sweep 0 3

/-! ### The 11-bit period of SQ1, SQ2, TRI (R71, R108) -/

/-- `Period(ch)`: the low three bits of register 3 over register 2. -/
def Regs.period (r : Regs) : Nat := byteField r.r3 0 3 * 256 + r.r2.toNat

/-- The sweep's write-back: the low 11 bits of `p`; bits 7:3 of register 3 are kept. -/
def Regs.setPeriod (r : Regs) (p : BitVec 11) : Regs :=
  { r with r2 := p.extractLsb' 0 8, r3 := (r.r3 &&& 0xF8#8) ||| (p.extractLsb' 8 3).setWidth 8 }

/-! ### Register 0 of TRI (R105) -/

/-- `control_halt`, bit 7. -/
def Regs.controlHalt (r : Regs) : Bool := r.r0.getLsbD 7

/-- `linear_reload`, bits 6:0. -/
def Regs.linearReload (r : Regs) : BitVec 7 := r.r0.extractLsb' 0 7

/-! ### Register 2 of NOI (R106) -/

/-- `mode`, bit 7: set is the short mode. -/
def Regs.noiseMode (r : Regs) : Bool := r.r2.getLsbD 7

/-- `period_index`, bits 3:0. -/
def Regs.noisePeriodIndex (r : Regs) : Nat := byteField r.r2 0 4

/-! ### The DMC's registers (R107, R110) -/

/-- `irq_en`, bit 7 of the byte written to register 0. -/
def dmcIrqEn (data : Byte) : Bool := data.getLsbD 7

/-- `loop`, bit 6 of register 0. -/
def dmcLoop (data : Byte) : Bool := data.getLsbD 6

/-- `rate_index`, bits 3:0 of register 0. -/
def dmcRateIndex (data : Byte) : Nat := byteField data 0 4

/-- `dac_load`, bits 6:0 of register 1. -/
def dmcDacLoad (data : Byte) : BitVec 7 := data.extractLsb' 0 7

/-- The sample's start cursor, `0x4000 + (reg[DMC][2] << 6)` (R110, R219). -/
def Regs.sampleStart (r : Regs) : BitVec 15 := BitVec.ofNat 15 (0x4000 + r.r2.toNat * 64)

/-- The sample's length, `(reg[DMC][3] << 4) + 1` (R110, R219). -/
def Regs.sampleLength (r : Regs) : Nat := r.r3.toNat * 16 + 1

/-! ### Immediates (R109) -/

/-- `negativeAdjust` of CLKSWP: the immediate sign-extended. -/
def negativeAdjust (m8 : Byte) : Int := m8.toInt

/-- The two legal immediates of CLKSWP (R109, R111). -/
def legalNegativeAdjust (m8 : Byte) : Bool := m8 == 0xFF#8 || m8 == 0x00#8

/-! ### Tables and constants (R7, R218, R252) -/

/-- `NOISE_PERIOD[pal]` (R252). -/
def noisePeriodRow (pal : Bool) : List Nat :=
  if pal then [4, 8, 14, 30, 60, 88, 118, 148, 188, 236, 354, 472, 708, 944, 1890, 3778]
  else [4, 8, 16, 32, 64, 96, 128, 160, 202, 254, 380, 508, 762, 1016, 2034, 4068]

/-- `NOISE_PERIOD[pal][i]`; the index is four bits wide, so it is always inside the row. -/
def noisePeriod (pal : Bool) (i : Nat) : Nat := (noisePeriodRow pal).getD i 4

/-- `DMC_PERIOD[pal]` (R218). -/
def dmcPeriodRow (pal : Bool) : List Nat :=
  if pal then [398, 354, 316, 298, 276, 236, 210, 198, 176, 148, 132, 118, 98, 78, 66, 50]
  else [428, 380, 340, 320, 286, 254, 226, 214, 190, 160, 142, 128, 106, 84, 72, 54]

/-- `DMC_PERIOD[pal][i]`; the index is four bits wide, so it is always inside the row. -/
def dmcPeriod (pal : Bool) (i : Nat) : Nat := (dmcPeriodRow pal).getD i 428

/-- `DMC_DEFAULT_PERIOD` (R7, R218). -/
def dmcDefaultPeriod : Nat := 428

/-- `PERIOD_CEIL` (R7). -/
def periodCeil : Nat := 0x800

/-- `SQ_MIN_PERIOD` (R7). -/
def sqMinPeriod : Nat := 8

/-- `TRI_MIN_TIMER` (R7). -/
def triMinTimer : Nat := 3

/-! ### Timer periods in CPU cycles (R292) -/

/-- SQ1, SQ2: `(Period(ch) + 1) * 2` (R180). -/
def Regs.squareTimer (r : Regs) : Nat := (r.period + 1) * 2

/-- TRI: `Period(TRI) + 1` (R200). -/
def Regs.triangleTimer (r : Regs) : Nat := r.period + 1

/-- NOI: `NOISE_PERIOD[PAL[NOI]][reg[NOI][2][3:0]]` (R250, R252). -/
def Regs.noiseTimer (r : Regs) (pal : Bool) : Nat := noisePeriod pal r.noisePeriodIndex

end Sys2Proof.Machine
end

