-- ==== Sys2Proof/Machine/Flags.lean ====
section
/-! DEFINITION. The flag and condition computations (`spec/10_state.md` R45): the silence and activity conditions of the RUN
rules, the interrupt enable of a DMC write, the rising edge that sets `trigger`, and the halt test of CLKLEN. -/

namespace Sys2Proof.Machine

/-- The halt test of CLKLEN: some bit the mask selects is set in register 0 (R145). -/
def Regs.haltedBy (r : Regs) (haltMask : Byte) : Bool := decide (r.r0 &&& haltMask ≠ 0#8)

/-- `irq_enabled` after a write of `data` to DMC register 0: `data[7] & ~data[6]` (R216). -/
def dmcIrqEnable (data : Byte) : Bool := dmcIrqEn data && !dmcLoop data

/-- `SweepOverflow(ch)` (R182). -/
def Regs.sweepOverflow (r : Regs) : Bool :=
  if sweepNegate r.r1 then false
  else decide (r.period + (r.period >>> sweepShift r.r1) ≥ periodCeil)

/-- The silence condition of a square RUN (R184). -/
def Regs.squareSilent (r : Regs) (vol : Nat) : Bool :=
  decide (vol = 0) || decide (r.period < sqMinPeriod) || r.sweepOverflow

/-- The activity condition of a triangle RUN (R204). -/
def Triangle.active (c : Triangle) : Bool :=
  decide (c.base.lengthCounter ≠ 0) && decide (c.linearCounter ≠ 0#7) && decide (c.base.regs.triangleTimer ≥ triMinTimer)

/-- `trigger` after a timer edge with this delta (R30, R143): a positive delta sets it, no other changes it. -/
def triggerAfter (old : Bool) (delta : Int) : Bool := old || decide (delta > 0)

/-- Clear `trigger`, as every RUN over a non-empty window does first (R30, R141). -/
def State.clearTrigger (s : State) (ch : Channel) : State :=
  s.setBase ch { s.base ch with trigger := false }

end Sys2Proof.Machine
end

