-- ==== Sys2Proof/Machine/Timer.lean ====
section
/-! DEFINITION. Timer edges, amplitude tracking and the frame of RUN, shared by the five channels
(`spec/40_base_ops.md` R141, R142, R143). -/

namespace Sys2Proof.Machine

/-! ### Timer edges (R142) -/

/-- The least `q` with `q * b ≥ a`, for `b > 0` (R9). -/
def ceilDiv (a b : Nat) : Nat := (a + b - 1) / b

/-- The timer edges inside a window: the first edge, the period, how many edges, and the new `delay` (R142). -/
structure EdgeSet where
  first : Nat
  period : Nat
  count : Nat
  carry : Nat
  deriving DecidableEq, Repr

/-- `Edges(time, end, d, P)` (R142), for a window with `time < end` and `P ≥ 1`. -/
def edges (time endTime : Nat) (delay period : Nat) : EdgeSet :=
  let first := time + delay
  let count := if first ≥ endTime then 0 else ceilDiv (endTime - first) period
  { first := first, period := period, count := count, carry := first + count * period - endTime }

/-- Apply a per-edge step at `n` edges from `t` on, `period` apart, in order. -/
def atEdges {α : Type} (f : Nat → α → α) (period : Nat) : Nat → Nat → α → α
  | 0, _, x => x
  | n + 1, t, x => atEdges f period n (t + period) (f t x)

/-- Apply a per-edge step at every edge of the window. -/
def EdgeSet.run {α : Type} (e : EdgeSet) (f : Nat → α → α) (x : α) : α := atEdges f e.period e.count e.first x

/-! ### Amplitude tracking (R143) -/

/-- `Track(ch, t, amp)`. -/
def track (ch : Channel) (t : Nat) (amp : Int) (b : Base) (a : Accum) : Base × Accum :=
  let delta := amp - b.lastAmp
  if delta ≠ 0 then ({ b with lastAmp := amp }, a.emit ch t delta) else (b, a)

/-- `TrackEdge(ch, t, amp)`: the same at a timer edge; a positive delta sets `trigger`. -/
def trackEdge (ch : Channel) (t : Nat) (amp : Int) (b : Base) (a : Accum) : Base × Accum :=
  let delta := amp - b.lastAmp
  let r := track ch t amp b a
  ({ r.1 with trigger := triggerAfter r.1.trigger delta }, r.2)

/-- `if ch.out_en == 1: Track(ch, t, amp)` (R148). -/
def trackBound (ch : Channel) (t : Nat) (amp : Int) (b : Base) (a : Accum) : Base × Accum :=
  if b.outEn then track ch t amp b a else (b, a)

/-- `if ch.out_en == 1: TrackEdge(ch, t, amp)` (R148). -/
def trackEdgeBound (ch : Channel) (t : Nat) (amp : Int) (b : Base) (a : Accum) : Base × Accum :=
  if b.outEn then trackEdge ch t amp b a else (b, a)

/-! ### The frame of RUN (R141) -/

/-- RUN on a channel, the common part: a reversed window is the fault `BadWindow`, an empty one changes nothing, any other
clears `trigger` and goes on with the channel's own rule. -/
def runWindow (ch : Channel) (time endTime : Nat) (s : State) (body : State → Result) : Result :=
  if time > endTime then raiseCmdFault .badWindow s
  else if time = endTime then .next s
  else body (s.clearTrigger ch)

end Sys2Proof.Machine
end

