-- ==== Sys2Proof/Machine/BaseOps.lean ====
section
/-! DEFINITION. The commands every channel but the DMC shares: WR, CLKLEN, SETLEN and SETOUT
(`spec/40_base_ops.md` R144 to R147). -/

namespace Sys2Proof.Machine

/-- `WR ch, addr, data` (R144): the byte and its latch. -/
def execWr (ch : PlainChannel) (addr : RegNo) (data : Byte) (s : State) : Result :=
  .next (s.setBase ch.toChannel ((s.base ch.toChannel).writeReg addr data))

/-- The length counter after a tick with this mask (R145). -/
def Base.clockLength (b : Base) (haltMask : Byte) : Base :=
  if decide (b.lengthCounter > 0) && !b.regs.haltedBy haltMask then { b with lengthCounter := b.lengthCounter - 1 } else b

/-- `CLKLEN ch, haltMask` (R145). -/
def execClkLen (ch : PlainChannel) (haltMask : Byte) (s : State) : Result :=
  .next (s.setBase ch.toChannel ((s.base ch.toChannel).clockLength haltMask))

/-- `SETLEN ch, n` (R146). -/
def execSetLen (ch : PlainChannel) (n : BitVec 16) (s : State) : Result :=
  .next (s.setBase ch.toChannel { s.base ch.toChannel with lengthCounter := n.toNat })

/-- `SETOUT ch, en` (R147). -/
def execSetOut (ch : PlainChannel) (en : Bool) (s : State) : Result :=
  .next (s.setBase ch.toChannel { s.base ch.toChannel with outEn := en })

end Sys2Proof.Machine
end

