-- ==== Sys2Proof/Machine/DmcUnit.lean ====
section
/-! DEFINITION. The sample player: its register writes, the memory reader, the interrupt schedule, start, stop and
acknowledge, the output unit, and the read-count query (`spec/44_dmc.md` R215 to R232). -/

namespace Sys2Proof.Machine

/-! ### The memory reader (R219, R220) -/

/-- RELOAD_SAMPLE (R219). -/
def reloadSample (s : State) : State :=
  s.setDmc { s.dmc with
    address := s.dmc.base.regs.sampleStart
    base := { s.dmc.base with lengthCounter := s.dmc.base.regs.sampleLength } }

/-- The end of a non-looping sample, in the order of R287: `DmcDisabled`, `next_irq`, `irq_flag`, `IrqChanged` (R220). -/
def endSample (s : State) : State :=
  let s := s.notify .dmcDisabled
  let s := s.setDmc { s.dmc with nextIrq := none }
  if s.dmc.irqEnabled then (s.setDmc { s.dmc with irqFlag := true }).notify .irqChanged else s

/-- The read of FILL_BUFFER: one byte from the bank at the cursor, which advances modulo 2^15 (R12, R74, R220). -/
def fetchSample (s : State) : State :=
  let r := s.memRead (bankAddr s.dmc.address)
  r.2.setDmc { s.dmc with
    buf := r.1
    address := s.dmc.address + 1#15
    bufFull := true
    base := { s.dmc.base with lengthCounter := s.dmc.base.lengthCounter - 1 } }

/-- FILL_BUFFER (R220). Without a reader it stops before any state is changed (R281). -/
def fillBuffer (s : State) : Flow :=
  if s.dmc.bufFull = false ∧ s.dmc.base.lengthCounter > 0 then
    if s.params.memReaderPresent then
      let s := fetchSample s
      if s.dmc.base.lengthCounter = 0 then
        if dmcLoop s.dmc.base.regs.r0 then .goOn (reloadSample s) else .goOn (endSample s)
      else .goOn s
    else .fatal s
  else .goOn s

/-! ### The interrupt schedule (R222) -/

/-- The time RECALC_IRQ computes, or NONE (R222, `90_conflicts.md` C9). -/
def predictIrq (c : Dmc) : Option Nat :=
  if c.irqEnabled = true ∧ c.base.lengthCounter > 0 then
    some (c.lastTime + c.base.delay + ((c.base.lengthCounter - 1) * 8 + c.bitsRemain - 1) * c.period + 1)
  else none

/-- RECALC_IRQ (R222): a notification only when the time changes. -/
def recalcIrq (s : State) : State :=
  let irq := predictIrq s.dmc
  if irq ≠ s.dmc.nextIrq then (s.setDmc { s.dmc with nextIrq := irq }).notify .irqChanged else s

/-! ### Register writes (R144, R216, R217, R221) -/

/-- The part of `WR DMC` common to the four registers (R144). -/
def dmcWriteReg (a : RegNo) (data : Byte) (s : State) : State :=
  s.setDmc { s.dmc with base := s.dmc.base.writeReg a data }

/-- `DmcWrite0(data)` (R216). -/
def dmcWrite0 (data : Byte) (s : State) : State :=
  let enabled := dmcIrqEnable data
  recalcIrq (s.setDmc { s.dmc with
    period := dmcPeriod s.params.palDmc (dmcRateIndex data)
    irqEnabled := enabled
    irqFlag := s.dmc.irqFlag && enabled })

/-- `DmcWrite1(data)` (R217). `DAC_COMP` is used only when `NONLINEAR` is false, and is then a free value (log entry 10). -/
def dmcWrite1 (data : Byte) (s : State) : State :=
  let old := s.dmc.dac
  let new := dmcDacLoad data
  let s := s.setDmc { s.dmc with dac := new }
  if s.params.nonlinear then s
  else s.setDmc { s.dmc with base := { s.dmc.base with lastAmp := Config.dacComp old.toNat new.toNat } }

/-- `WR DMC, 0, data` (R144, R216). -/
def execWrDmc0 (data : Byte) (s : State) : Result := .next (dmcWrite0 data (dmcWriteReg .r0 data s))

/-- `WR DMC, 1, data` (R144, R217). -/
def execWrDmc1 (data : Byte) (s : State) : Result := .next (dmcWrite1 data (dmcWriteReg .r1 data s))

/-- `WR DMC, 2, data` (R144, R221): the byte and its latch only. -/
def execWrDmc2 (data : Byte) (s : State) : Result := .next (dmcWriteReg .r2 data s)

/-- `WR DMC, 3, data` (R144, R221): the byte and its latch only. -/
def execWrDmc3 (data : Byte) (s : State) : Result := .next (dmcWriteReg .r3 data s)

/-! ### Start, stop, acknowledge, binding (R224 to R226, R231) -/

/-- `DMCSTART DMC` (R224). -/
def execDmcStart (s : State) : Result :=
  (((fillBuffer (reloadSample s)).bind fun s => .goOn (recalcIrq s))).toResult

/-- `DMCSTOP DMC` (R225). -/
def execDmcStop (s : State) : Result :=
  .next (recalcIrq (s.setDmc { s.dmc with base := { s.dmc.base with lengthCounter := 0 } }))

/-- `IRQACK DMC` (R226). -/
def execIrqAck (s : State) : Result := .next (s.setDmc { s.dmc with irqFlag := false })

/-- `SETOUT DMC, en` (R147, R231): a change of binding, in either direction, exchanges the two levels. -/
def Dmc.setOut (c : Dmc) (en : Bool) : Dmc :=
  let c := if c.base.outEn ≠ en then { c with dac := c.pausedDac, pausedDac := c.dac } else c
  { c with base := { c.base with outEn := en } }

/-- `SETOUT DMC, en` (R147, R231). -/
def execSetOutDmc (en : Bool) (s : State) : Result := .next (s.setDmc (s.dmc.setOut en))

/-! ### The output unit (R227) -/

/-- The level a shifted bit asks for, before the range test (R227). -/
def dacTarget (dac : BitVec 7) (bit : Bool) : Int := (dac.toNat : Int) + (if bit then 2 else -2)

/-- Track the DMC's level at the start of a window, while bound (R227). -/
def dmcSync (t : Nat) (s : State) : State :=
  let r := trackBound .dmc t (s.dmc.dac.toNat : Int) s.dmc.base s.acc
  (s.setDmc { s.dmc with base := r.1 }).setAcc r.2

/-- Track the DMC's level at a timer edge, while bound (R227). -/
def dmcTrackEdge (t : Nat) (s : State) : State :=
  let r := trackEdgeBound .dmc t (s.dmc.dac.toNat : Int) s.dmc.base s.acc
  (s.setDmc { s.dmc with base := r.1 }).setAcc r.2

/-- The shift of one edge: bit 0 out; the level moves by 2, or keeps its value when the result would leave 0..127
(R12, R227). -/
def dmcShift (t : Nat) (s : State) : State :=
  if s.dmc.silence then s
  else
    let target := dacTarget s.dmc.dac (s.dmc.bits.getLsbD 0)
    let s := s.setDmc { s.dmc with bits := s.dmc.bits >>> 1 }
    if 0 ≤ target ∧ target ≤ 127 then
      dmcTrackEdge t (s.setDmc { s.dmc with dac := BitVec.ofInt 7 target })
    else s

/-- The reload step (R227). -/
def dmcReload (s : State) : Flow :=
  if s.dmc.bufFull then
    fillBuffer (s.setDmc { s.dmc with silence := false, bits := s.dmc.buf, bufFull := false })
  else .goOn (s.setDmc { s.dmc with silence := true })

/-- The countdown of one edge, with the reload step when it reaches 0 (R227). -/
def dmcCount (s : State) : Flow :=
  let remain := s.dmc.bitsRemain - 1
  if remain = 0 then dmcReload (s.setDmc { s.dmc with bitsRemain := 8 })
  else .goOn (s.setDmc { s.dmc with bitsRemain := remain })

/-- One timer edge of the DMC (R227). -/
def dmcEdge (t : Nat) (s : State) : Flow := dmcCount (dmcShift t s)

/-- `n` timer edges from `t` on; a fatal fault ends them (R281). -/
def dmcEdges (period : Nat) : Nat → Nat → State → Flow
  | 0, _, s => .goOn s
  | n + 1, t, s => (dmcEdge t s).bind fun s => dmcEdges period n (t + period) s

/-- `RunDmc(time, end)` (R227). -/
def runDmc (time endTime : Nat) (s : State) : Flow :=
  let e := edges time endTime s.dmc.base.delay s.dmc.period
  (dmcEdges e.period e.count e.first (dmcSync time s)).bind fun s =>
    .goOn (s.setDmc { s.dmc with base := { s.dmc.base with delay := e.carry }, lastTime := endTime })

/-- `RUN DMC, time, end_time` (R141, R227). -/
def execRunDmc (time endTime : Nat) (s : State) : Result :=
  runWindow .dmc time endTime s fun s => (runDmc time endTime s).toResult

/-! ### The read-count query (R228) -/

/-- The number of reads `RUN DMC, last_time, t` would make now, on a copy of the state that has a reader: the query "makes no
read" and raises "no fault of the reader" (R228; log entry 13). -/
def readsBy (t : Nat) (s : State) : Nat :=
  if t ≤ s.dmc.lastTime then 0
  else
    let copy := { s with params := { s.params with memReaderPresent := true } }
    (runDmc s.dmc.lastTime t copy).state.memReads.length - s.memReads.length

/-- `CNTRD DMC, t` (R228): only the response output changes. -/
def execCntRd (t : Nat) (s : State) : Result := .next { s with respCount := readsBy t s }

end Sys2Proof.Machine
end

