-- ==== Sys2Proof/Machine/EnvelopeUnit.lean ====
section
/-! DEFINITION. The envelope-decay unit of SQ1, SQ2 and NOI: CLKENV and VOLUME (`spec/41_envelope.md` R170 to R172). -/

namespace Sys2Proof.Machine

/-- The decay level after one step of the unit: modulo 16, but 0 stays 0 while the loop bit is clear (R171). -/
def decayStep (envelope : BitVec 4) (loopHalt : Bool) : BitVec 4 :=
  if envelope = 0#4 ∧ loopHalt = false then envelope else envelope - 1#4

/-- One CLKENV tick of an envelope unit with the given registers and latch (R171). -/
def Envelope.clock (e : Envelope) (regs : Regs) (restart : Bool) : Envelope :=
  if restart then { envelope := 15#4, envDelay := regs.volPeriod }
  else if e.envDelay = 0#4 then { envelope := decayStep e.envelope regs.loopHalt, envDelay := regs.volPeriod }
  else { e with envDelay := e.envDelay - 1#4 }

/-- The base state after a CLKENV tick: the tick consumes the latch of register 3 (R171). -/
def Base.consumeRestart (b : Base) : Base := { b with written := b.written.set .r3 false }

/-- `VOLUME(ch)` (R172). -/
def volume (b : Base) (e : Envelope) : Nat :=
  if b.lengthCounter = 0 then 0
  else if b.regs.constVol then b.regs.volPeriod.toNat
  else e.envelope.toNat

/-- `CLKENV` on a square channel (R171). -/
def Square.clockEnvelope (c : Square) : Square :=
  { c with base := c.base.consumeRestart, env := c.env.clock c.base.regs (c.base.written.get .r3) }

/-- `CLKENV` on the noise channel (R171). -/
def Noise.clockEnvelope (c : Noise) : Noise :=
  { c with base := c.base.consumeRestart, env := c.env.clock c.base.regs (c.base.written.get .r3) }

/-- `CLKENV SQ1` and `CLKENV SQ2` (R171). -/
def execClkEnvSq (ch : SqChannel) (s : State) : Result := .next (s.setSquare ch (s.square ch).clockEnvelope)

/-- `CLKENV NOI` (R171). -/
def execClkEnvNoi (s : State) : Result := .next (s.setNoi s.noi.clockEnvelope)

end Sys2Proof.Machine
end

