-- ==== Sys2Proof/Machine/NoiseUnit.lean ====
section
/-! DEFINITION. The noise generator (`spec/45_noise.md` R250 to R254). -/

namespace Sys2Proof.Machine

/-- `LfsrStep(noise, mode)` (R251): the feedback enters at bit 14. -/
def lfsrStep (noise : BitVec 15) (mode : Bool) : BitVec 15 :=
  let tap := if mode then noise.getLsbD 6 else noise.getLsbD 1
  let feedback := Bool.xor (noise.getLsbD 0) tap
  (noise >>> 1) ||| ((BitVec.ofBool feedback).setWidth 15 <<< 14)

/-- `NoiseAmp(noise, vol)` (R254). -/
def noiseAmp (noise : BitVec 15) (vol : Nat) : Int := if noise.getLsbD 0 then 0 else (vol : Int)

/-- One timer edge of the noise channel (R253). -/
def noiseEdge (mode : Bool) (vol : Nat) (t : Nat) (p : Noise × Accum) : Noise × Accum :=
  let noise := lfsrStep p.1.noise mode
  let r := trackEdgeBound .noi t (noiseAmp noise vol) p.1.base p.2
  ({ p.1 with base := r.1, noise := noise }, r.2)

/-- `RunNoise(time, end)` (R253). -/
def runNoise (pal : Bool) (time endTime : Nat) (c : Noise) (a : Accum) : Noise × Accum :=
  let vol := volume c.base c.env
  let e := edges time endTime c.base.delay (c.base.regs.noiseTimer pal)
  let sync := trackBound .noi time (noiseAmp c.noise vol) c.base a
  let r := e.run (noiseEdge c.base.regs.noiseMode vol) ({ c with base := sync.1 }, sync.2)
  ({ r.1 with base := { r.1.base with delay := e.carry } }, r.2)

/-- `RUN NOI, time, end_time` (R141, R253). -/
def execRunNoi (time endTime : Nat) (s : State) : Result :=
  runWindow .noi time endTime s fun s =>
    let r := runNoise s.params.palNoi time endTime s.noi s.acc
    .next ((s.setNoi r.1).setAcc r.2)

end Sys2Proof.Machine
end

