-- ==== Sys2Proof/Machine/ResetUnit.lean ====
section
/-! DEFINITION. The RESET command (`spec/70_reset_and_hazards.md` R311): the power-on values of one channel, with its binding
kept; nothing emitted, no notification. -/

namespace Sys2Proof.Machine

/-- The base state RESET leaves: everything but `out_en` (R311). -/
def Base.resetKeepingBinding (b : Base) : Base := { Base.powerOn with outEn := b.outEn }

/-- `RESET ch` for the four channels without a sample player (R311). -/
def execReset (ch : PlainChannel) (s : State) : Result :=
  .next (match ch with
    | .sq1 => { s with sq1 := { Square.powerOn with base := s.sq1.base.resetKeepingBinding } }
    | .sq2 => { s with sq2 := { Square.powerOn with base := s.sq2.base.resetKeepingBinding } }
    | .tri => { s with tri := { Triangle.powerOn with base := s.tri.base.resetKeepingBinding } }
    | .noi => { s with noi := { Noise.powerOn with base := s.noi.base.resetKeepingBinding } })

/-- `RESET DMC` (R311): the period is `DMC_DEFAULT_PERIOD` whatever `PAL[DMC]` is. -/
def execResetDmc (s : State) : Result :=
  .next { s with dmc := { Dmc.powerOn with base := s.dmc.base.resetKeepingBinding } }

end Sys2Proof.Machine
end

