-- ==== Sys2Proof/Machine/SquareUnit.lean ====
section
/-! DEFINITION. The square channels: the sweep unit and the duty waveform (`spec/42_square.md` R180 to R185). -/

namespace Sys2Proof.Machine

/-! ### The sweep unit (R181) -/

/-- The sweep's candidate period: an unbounded integer, never reduced before it is compared (R12, R181). -/
def sweepCandidate (period : Nat) (sweep : Byte) (negAdj : Int) : Int :=
  let offset : Int := (period >>> sweepShift sweep : Nat)
  (period : Int) + (if sweepNegate sweep then negAdj - offset else offset)

/-- The four commit conditions (R181). -/
def sweepCommits (period : Nat) (sweep : Byte) (negAdj : Int) : Bool :=
  decide (sweepShift sweep ≠ 0) && sweepEn sweep && decide (period ≥ sqMinPeriod)
    && decide (sweepCandidate period sweep negAdj < periodCeil)

/-- The registers after an underflow of the sweep divider (R181). -/
def Regs.sweepCommit (r : Regs) (negAdj : Int) : Regs :=
  if sweepCommits r.period r.r1 negAdj then r.setPeriod (BitVec.ofInt 11 (sweepCandidate r.period r.r1 negAdj)) else r

/-- One CLKSWP tick (R181). The commit sets no write latch. -/
def Square.clockSweep (c : Square) (negAdj : Int) : Square :=
  let underflow := decide (c.sweepDelay = 0#3)
  let regs := if underflow then c.base.regs.sweepCommit negAdj else c.base.regs
  if underflow || c.base.written.get .r1 then
    { c with
      base := { c.base with regs := regs, written := c.base.written.set .r1 false }
      sweepDelay := sweepPeriod c.base.regs.r1 }
  else { c with sweepDelay := c.sweepDelay - 1#3 }

/-- `CLKSWP ch, negativeAdjust` (R181). An operand that is neither -1 nor 0 is an illegal command (R111); the decoder
admits none, and the meaning says the same of the syntax (log entry 14). -/
def execClkSwp (ch : SqChannel) (m8 : Byte) (s : State) : Result :=
  if legalNegativeAdjust m8 then .next (s.setSquare ch ((s.square ch).clockSweep (negativeAdjust m8)))
  else raiseCmdFault .illegalCommand s

/-! ### The waveform (R183, R184) -/

/-- The high phases of a duty setting, before setting 3 is inverted (R183). -/
def dutyWidth (ds : BitVec 2) : Nat :=
  match ds.toNat with
  | 0 => 1
  | 1 => 2
  | 2 => 4
  | _ => 2

/-- Whether the output is high (R183). -/
def squareHigh (phase : BitVec 3) (ds : BitVec 2) : Bool :=
  decide (phase.toNat < dutyWidth ds) != decide (ds = 3#2)

/-- `SquareAmp(phase, duty_select, vol)` (R183). -/
def squareAmp (phase : BitVec 3) (ds : BitVec 2) (vol : Nat) : Int :=
  if squareHigh phase ds then (vol : Int) else 0

/-- `phase` after `n` edges, modulo 8 (R12, R184). -/
def advancePhase (phase : BitVec 3) (n : Nat) : BitVec 3 := BitVec.ofNat 3 (phase.toNat + n)

/-- One timer edge of an audible square channel (R184). -/
def squareEdge (ch : Channel) (ds : BitVec 2) (vol : Nat) (t : Nat) (p : Square × Accum) : Square × Accum :=
  let phase := advancePhase p.1.phase 1
  let r := trackEdge ch t (squareAmp phase ds vol) p.1.base p.2
  ({ p.1 with base := r.1, phase := phase }, r.2)

/-- The edges of `RunSquare`: unbound, silent, or audible (R184). -/
def squareEdges (ch : Channel) (time : Nat) (e : EdgeSet) (c : Square) (a : Accum) : Square × Accum :=
  let vol := volume c.base c.env
  if c.base.outEn = false then ({ c with phase := advancePhase c.phase e.count }, a)
  else if c.base.regs.squareSilent vol then
    let r := track ch time 0 c.base a
    ({ c with base := r.1, phase := advancePhase c.phase e.count }, r.2)
  else
    let ds := c.base.regs.dutySelect
    let r := track ch time (squareAmp c.phase ds vol) c.base a
    e.run (squareEdge ch ds vol) ({ c with base := r.1 }, r.2)

/-- `RunSquare(ch, time, end)` (R184). -/
def runSquare (ch : Channel) (time endTime : Nat) (c : Square) (a : Accum) : Square × Accum :=
  let e := edges time endTime c.base.delay c.base.regs.squareTimer
  let r := squareEdges ch time e c a
  ({ r.1 with base := { r.1.base with delay := e.carry } }, r.2)

/-- `RUN ch, time, end_time` on a square channel (R141, R184). -/
def execRunSq (ch : SqChannel) (time endTime : Nat) (s : State) : Result :=
  runWindow ch.toChannel time endTime s fun s =>
    let r := runSquare ch.toChannel time endTime (s.square ch) s.acc
    .next ((s.setSquare ch r.1).setAcc r.2)

end Sys2Proof.Machine
end

