-- ==== Sys2Proof/Machine/TriangleUnit.lean ====
section
/-! DEFINITION. The triangle channel: the linear counter and the waveform (`spec/43_triangle.md` R200 to R204). -/

namespace Sys2Proof.Machine

/-- One CLKLIN tick (R201). -/
def Triangle.clockLinear (c : Triangle) : Triangle :=
  let linear :=
    if c.base.written.get .r3 then c.base.regs.linearReload
    else if c.linearCounter ≠ 0#7 then c.linearCounter - 1#7
    else c.linearCounter
  let written := if c.base.regs.controlHalt then c.base.written else c.base.written.set .r3 false
  { c with base := { c.base with written := written }, linearCounter := linear }

/-- `CLKLIN TRI` (R201). -/
def execClkLin (s : State) : Result := .next (s.setTri s.tri.clockLinear)

/-- `TriAmp(phase)` for `phase` in 1..32 (R202). -/
def triAmp (phase : Nat) : Int := if phase ≤ 16 then 16 - (phase : Int) else (phase : Int) - 17

/-- `TriStep(phase)` (R203). -/
def triStep (phase : Nat) : Nat := if phase = 1 then 32 else phase - 1

/-- One timer edge of an active triangle (R204). -/
def triangleEdge (t : Nat) (p : Triangle × Accum) : Triangle × Accum :=
  let phase := triStep p.1.phase
  let r := trackEdgeBound .tri t (triAmp phase) p.1.base p.2
  ({ p.1 with base := r.1, phase := phase }, r.2)

/-- `RunTriangle(time, end)` (R204). -/
def runTriangle (time endTime : Nat) (c : Triangle) (a : Accum) : Triangle × Accum :=
  let sync := trackBound .tri time (triAmp c.phase) c.base a
  let c1 := { c with base := sync.1 }
  if c.active then
    let e := edges time endTime c.base.delay c.base.regs.triangleTimer
    let r := e.run triangleEdge (c1, sync.2)
    ({ r.1 with base := { r.1.base with delay := e.carry } }, r.2)
  else ({ c1 with base := { c1.base with delay := 0 } }, sync.2)

/-- `RUN TRI, time, end_time` (R141, R204). -/
def execRunTri (time endTime : Nat) (s : State) : Result :=
  runWindow .tri time endTime s fun s =>
    let r := runTriangle time endTime s.tri s.acc
    .next ((s.setTri r.1).setAcc r.2)

end Sys2Proof.Machine
end

