-- ==== Sys2Proof/Machine/Dispatch.lean ====
section
/-! DEFINITION. One arm per command: the meaning of a decoded command. -/

namespace Sys2Proof.Machine

def exec (i : Instr) (s : State) : Host.Outcome State Fault Refusal :=
  match i with
  | .reset ch => Sys2Proof.Machine.execReset ch s
  | .resetDmc => Sys2Proof.Machine.execResetDmc s
  | .wr ch addr data => Sys2Proof.Machine.execWr ch addr data s
  | .wrDmc0 data => Sys2Proof.Machine.execWrDmc0 data s
  | .wrDmc1 data => Sys2Proof.Machine.execWrDmc1 data s
  | .wrDmc2 data => Sys2Proof.Machine.execWrDmc2 data s
  | .wrDmc3 data => Sys2Proof.Machine.execWrDmc3 data s
  | .runSq ch time endTime => Sys2Proof.Machine.execRunSq ch time endTime s
  | .runTri time endTime => Sys2Proof.Machine.execRunTri time endTime s
  | .runNoi time endTime => Sys2Proof.Machine.execRunNoi time endTime s
  | .runDmc time endTime => Sys2Proof.Machine.execRunDmc time endTime s
  | .clkLen ch haltMask => Sys2Proof.Machine.execClkLen ch haltMask s
  | .clkEnvSq ch => Sys2Proof.Machine.execClkEnvSq ch s
  | .clkEnvNoi => Sys2Proof.Machine.execClkEnvNoi s
  | .clkSwp ch m8 => Sys2Proof.Machine.execClkSwp ch m8 s
  | .clkLin => Sys2Proof.Machine.execClkLin s
  | .setOut ch en => Sys2Proof.Machine.execSetOut ch en s
  | .setOutDmc en => Sys2Proof.Machine.execSetOutDmc en s
  | .setLen ch n => Sys2Proof.Machine.execSetLen ch n s
  | .dmcStart => Sys2Proof.Machine.execDmcStart s
  | .dmcStop => Sys2Proof.Machine.execDmcStop s
  | .irqAck => Sys2Proof.Machine.execIrqAck s
  | .cntRd t => Sys2Proof.Machine.execCntRd t s

end Sys2Proof.Machine
end

