-- ==== Sys2Proof/Machine/Step.lean ====
section
/-! DEFINITION. One step of the block: it takes the next presented command and executes it completely
(`spec/20_memory.md` R78, `spec/30_encoding.md` R100, `spec/60_exceptions.md` R283). With no command presented nothing moves
(`spec/10_state.md` R20). -/

namespace Sys2Proof.Machine

/-- One step. -/
def step (s : State) : Host.Outcome State Fault Refusal :=
  match s.pending with
  | [] => .next s
  | c :: rest =>
    match admission s.faulted c with
    | .ignored => .next { s with pending := rest }
    | .illegal _ => raiseCmdFault .illegalCommand { s with pending := rest }
    | .run i => exec i { s with pending := rest }

/-- The owner presents, ahead of what waits, the command whose word has these bits and whose time operands are 0: the block
holds no program and fetches nothing (R23), so this stands for the presentation (log entry 1). -/
def State.withFetchWord (s : State) (nbits w : Nat) : State :=
  { s with pending := tableCommand nbits w :: s.pending }

end Sys2Proof.Machine
end

