-- ==== Sys2Proof/Machine/Accumulator.lean ====
section
/-! DEFINITION. The read side of the delta accumulator and its two time conversions (`spec/46_accumulator.md` R267 to R269).
`Emit` itself is `Accum.emit` in `Machine/Ops.lean`. -/

namespace Sys2Proof.Machine

/-- The sum of the deltas of a log. -/
def sumDeltas : List Emission → Int
  | [] => 0
  | e :: rest => e.delta + sumDeltas rest

/-- `Level(t)`: the ideal (unit-step) waveform the log stands for (R269). -/
def Accum.level (a : Accum) (t : Nat) : Int := sumDeltas (a.log.filter fun e => decide (e.time ≤ t))

/-- `Level(ch, t)`: that waveform for one channel's entries (R269). -/
def Accum.levelOf (a : Accum) (ch : Channel) (t : Nat) : Int :=
  sumDeltas (a.log.filter fun e => decide (e.ch = ch) && decide (e.time ≤ t))

/-- `ResampledTime(t)` (R267). -/
def resampledTime (t : Nat) : Nat := t * Config.rsFactor + Config.rsOffset

/-- `ResampledDuration(n)` (R268). -/
def resampledDuration (n : Nat) : Nat := n * Config.rsFactor

end Sys2Proof.Machine
end

