-- ==== Sys2Proof/Safety.lean ====
section
/-! DEFINITION. What counts as a safe state and a safe run of the block: the invariants of `spec/10_state.md` R49 with the
ranges of R25 to R43 (`State.Inv`), and a run in which no step faults or refuses (`spec/60_exceptions.md` R281: every claim about a
run takes "`faulted` = 0" as a premise). -/

namespace Sys2Proof.Machine

/-- A level inside 0..`top` (R27). -/
abbrev levelWithin (amp : Int) (top : Int) : Prop := 0 ≤ amp ∧ amp ≤ top

/-- The counters of a channel inside their ranges: `length_counter` (R25) and `delay`, below the largest timer period
(R26). -/
abbrev Base.inRange (b : Base) (maxLength : Nat) : Prop := b.lengthCounter ≤ maxLength ∧ b.delay < 4096

/-- The ranges of `last_amp` while `NONLINEAR` is true (R27). -/
abbrev State.levelsInRange (s : State) : Prop :=
  levelWithin s.sq1.base.lastAmp 15 ∧ levelWithin s.sq2.base.lastAmp 15 ∧ levelWithin s.tri.base.lastAmp 15 ∧
    levelWithin s.noi.base.lastAmp 15 ∧ levelWithin s.dmc.base.lastAmp 127

/-- The invariants of the DMC alone: `bits_remain` (R37), `period` (R35), the interrupt enable as last written (R216, R285), a
pending flag only while enabled (R49). -/
abbrev Dmc.inRange (c : Dmc) : Prop :=
  (1 ≤ c.bitsRemain ∧ c.bitsRemain ≤ 8) ∧
    (c.period ∈ dmcPeriodRow false ∨ c.period ∈ dmcPeriodRow true ∨ c.period = dmcDefaultPeriod) ∧
    c.irqEnabled = dmcIrqEnable c.base.regs.r0 ∧ (c.irqFlag = true → c.irqEnabled = true)

/-- The invariants that tie the reader to the buffer (R230) and the schedule to the reader (R288): bytes left only with the
buffer full; a prediction exactly when an interrupt is due. -/
abbrev Dmc.readerReady (c : Dmc) : Prop :=
  (c.base.lengthCounter > 0 → c.bufFull = true) ∧
    (c.nextIrq.isSome = true ↔ (c.irqEnabled = true ∧ c.base.lengthCounter > 0))

/-- The accumulator's sum is the sum of its log, and no entry is zero (R265, R266). -/
abbrev Accum.balanced (a : Accum) : Prop := a.sum = sumDeltas a.log ∧ ∀ e ∈ a.log, e.delta ≠ 0

/-- The invariant of the block between commands (R49). -/
structure State.Inv (s : State) : Prop where
  memory : Memory.wf s.mem = true
  sq1 : s.sq1.base.inRange 65535
  sq2 : s.sq2.base.inRange 65535
  tri : s.tri.base.inRange 65535
  noi : s.noi.base.inRange 65535
  dmcBase : s.dmc.base.inRange 4081
  phase : 1 ≤ s.tri.phase ∧ s.tri.phase ≤ 32
  noise : s.noi.noise ≠ 0#15
  dmc : s.dmc.inRange
  reader : s.dmc.readerReady
  acc : s.acc.balanced
  levels : s.params.nonlinear = true → s.levelsInRange

/-- A step that ends in a next state that is not faulted. -/
def SafeStep (s : State) : Prop := ∃ t, step s = .next t ∧ t.faulted = false

/-- A run of `k` steps, each of them safe. -/
def SafeRun (k : Nat) (s : State) : Prop := ∃ t, Sys2Proof.core.run k s = .next t ∧ t.faulted = false

/-- The state the block is in after a step, whatever its outcome: after `Fatal` it is the state the fault carries, in which the
block ignores every command (R281, R283). -/
def stateAfter (s : State) : State :=
  match step s with
  | .next t => t
  | .fault (.noMemReader t) => t
  | .refused _ => s

end Sys2Proof.Machine
end

