-- ==== Sys2Proof/Certificates/Slice0/Obligations.lean ====
section
/-! DEFINITION. The statements about the block, each one a `def Obligations.<Name> : Prop`, and the small vocabulary they are
written in: bit fields as arithmetic on numbers (`spec/00_scope.md` R9), waveforms as sequences of levels, and frames. `exec` is the
meaning of an admitted command (`spec/60_exceptions.md` R283); `step` is one command of the port. -/

open Sys2Proof Sys2Proof.Machine

namespace Sys2Proof.Claims

/-! ### Bits as numbers (R9) -/

/-- `v[i]`. -/
def bit {w : Nat} (v : BitVec w) (i : Nat) : Nat := v.toNat / 2 ^ i % 2

/-- `v[hi:lo]`. -/
def field {w : Nat} (v : BitVec w) (hi lo : Nat) : Nat := v.toNat / 2 ^ lo % 2 ^ (hi + 1 - lo)

/-- `Period(ch)` (R108). -/
def period (r : Regs) : Nat := r.r2.toNat + 256 * field r.r3 2 0

/-! ### Command words (R101, R102, R103, R111) -/

/-- The channels column of R102. -/
def channelAllowed (op ch : Nat) : Prop :=
  (op ≤ 2 ∨ op = 7) ∨ ((op = 3 ∨ op = 8) ∧ ch ≤ 3) ∨ (op = 4 ∧ (ch ≤ 1 ∨ ch = 3)) ∨ (op = 5 ∧ ch ≤ 1) ∨ (op = 6 ∧ ch = 2) ∨
    (9 ≤ op ∧ ch = 4)

/-- A bit of `IMM` outside the format's fields is set (R103). -/
def spareBitSet (op imm : Nat) : Prop :=
  if op = 1 then 1024 ≤ imm else if op = 3 ∨ op = 5 then 256 ≤ imm else if op = 7 then 2 ≤ imm else if op = 8 then False else imm ≠ 0

/-- R111: the word is illegal. -/
def illegalWord (w : CmdWord) : Prop :=
  13 ≤ field w 31 28 ∨ 5 ≤ field w 27 25 ∨ ¬channelAllowed (field w 31 28) (field w 27 25) ∨ field w 24 16 ≠ 0 ∨
    spareBitSet (field w 31 28) (field w 15 0) ∨ (field w 31 28 = 5 ∧ field w 7 0 ≠ 0xFF ∧ field w 7 0 ≠ 0x00)

/-- Every word with this operation and this channel is rejected by the decoder (R111). -/
def rejectedOn (op ch : Nat) : Prop :=
  ∀ c : Command, field c.word 31 28 = op → field c.word 27 25 = ch → ∃ e, decode c = .error e

/-- RUN on a channel, whichever it is (R102). -/
def runOf (ch : Channel) (time endTime : Nat) : Instr :=
  match ch with
  | .sq1 => .runSq .sq1 time endTime
  | .sq2 => .runSq .sq2 time endTime
  | .tri => .runTri time endTime
  | .noi => .runNoi time endTime
  | .dmc => .runDmc time endTime

/-- RESET on a channel, whichever it is (R102). -/
def resetOf (ch : Channel) : Instr :=
  match ch with
  | .sq1 => .reset .sq1
  | .sq2 => .reset .sq2
  | .tri => .reset .tri
  | .noi => .reset .noi
  | .dmc => .resetDmc

/-- SETOUT on a channel, whichever it is (R102). -/
def setOutOf (ch : Channel) (en : Bool) : Instr :=
  match ch with
  | .sq1 => .setOut .sq1 en
  | .sq2 => .setOut .sq2 en
  | .tri => .setOut .tri en
  | .noi => .setOut .noi en
  | .dmc => .setOutDmc en

/-- WR on a channel, whichever it is (R102). -/
def wrOf (ch : Channel) (a : RegNo) (data : Byte) : Instr :=
  match ch with
  | .sq1 => .wr .sq1 a data
  | .sq2 => .wr .sq2 a data
  | .tri => .wr .tri a data
  | .noi => .wr .noi a data
  | .dmc =>
    match a with
    | .r0 => .wrDmc0 data
    | .r1 => .wrDmc1 data
    | .r2 => .wrDmc2 data
    | .r3 => .wrDmc3 data

/-- A list of commands executed in order, each completely (R78). -/
def execAll : List Instr → State → Result
  | [], s => .next s
  | i :: rest, s =>
    match exec i s with
    | .next t => execAll rest t
    | .fault f => .fault f
    | .refused r => .refused r

/-! ### Waveforms as sequences of levels (R143) -/

/-- What `Track` emits at `t` when the level goes from `old` to `new`. -/
def deltaAt (ch : Channel) (t : Nat) (old new : Int) : List Emission :=
  if new = old then [] else [⟨ch, t, new - old⟩]

/-- What `n` edges emit, `first` the time of the first and `p` apart, when edge `k` takes the level from `level k` to
`level (k + 1)`. -/
def waveLog (ch : Channel) (first p n : Nat) (level : Nat → Int) : List Emission :=
  (List.range n).flatMap fun k => deltaAt ch (first + k * p) (level k) (level (k + 1))

/-- Some of those edges is rising (R30). -/
def waveRises (n : Nat) (level : Nat → Int) : Bool := (List.range n).any fun k => decide (level k < level (k + 1))

/-- The accumulator after a synchronisation at `time` and `n` edges of a bound channel. -/
def waveAcc (a : Accum) (ch : Channel) (time first p n : Nat) (lastAmp : Int) (level : Nat → Int) : Accum :=
  ⟨a.log ++ deltaAt ch time lastAmp (level 0) ++ waveLog ch first p n level, a.sum + (level n - lastAmp)⟩

/-- The base state after a RUN over a non-empty window: unbound, only `delay` moves and `trigger` is 0; bound, the level is
tracked too. -/
def waveBase (b : Base) (carry n : Nat) (level : Nat → Int) : Base :=
  { b with
    delay := carry
    lastAmp := if b.outEn then level n else b.lastAmp
    trigger := b.outEn && waveRises n level }

/-! ### Frames -/

/-- Every channel but `ch` is as it was. -/
def othersSame (ch : Channel) (s t : State) : Prop :=
  (ch ≠ .sq1 → t.sq1 = s.sq1) ∧ (ch ≠ .sq2 → t.sq2 = s.sq2) ∧ (ch ≠ .tri → t.tri = s.tri) ∧ (ch ≠ .noi → t.noi = s.noi) ∧
    (ch ≠ .dmc → t.dmc = s.dmc)

/-- Channel `ch` is the same in both states. -/
def channelSame (ch : Channel) (s t : State) : Prop :=
  match ch with
  | .sq1 => t.sq1 = s.sq1
  | .sq2 => t.sq2 = s.sq2
  | .tri => t.tri = s.tri
  | .noi => t.noi = s.noi
  | .dmc => t.dmc = s.dmc

/-- The memory reader's side of the DMC is as it was: cursor, count, buffer, interrupt state, reads, notifications. -/
def readerSame (s t : State) : Prop :=
  t.dmc.address = s.dmc.address ∧ t.dmc.base.lengthCounter = s.dmc.base.lengthCounter ∧ t.dmc.buf = s.dmc.buf ∧
    t.dmc.irqFlag = s.dmc.irqFlag ∧ t.dmc.nextIrq = s.dmc.nextIrq ∧ t.memReads = s.memReads ∧ t.notifications = s.notifications

/-- A DMC command touched the DMC, the accumulator, the reads and the notifications at most; and of the DMC neither its
registers and latches nor `out_en`, `period`, `irq_enabled`, `paused_dac` (R227). -/
def dmcRunFrame (s t : State) : Prop :=
  t = { s with dmc := t.dmc, acc := t.acc, memReads := t.memReads, notifications := t.notifications } ∧
    t.dmc.base.regs = s.dmc.base.regs ∧ t.dmc.base.written = s.dmc.base.written ∧ t.dmc.base.outEn = s.dmc.base.outEn ∧
    t.dmc.period = s.dmc.period ∧ t.dmc.irqEnabled = s.dmc.irqEnabled ∧ t.dmc.pausedDac = s.dmc.pausedDac

/-- The deltas of one channel in a log, summed (R269). -/
def channelSum (ch : Channel) (log : List Emission) : Int := sumDeltas (log.filter fun e => decide (e.ch = ch))

/-- The time R222 computes, for a DMC with bytes left. -/
def predictedIrq (c : Dmc) : Nat :=
  c.lastTime + c.base.delay + ((c.base.lengthCounter - 1) * 8 + c.bitsRemain - 1) * c.period + 1

end Sys2Proof.Claims

open Sys2Proof.Claims

/-! ## Encoding and admission -/

/-- Tier 3, encoding. Decoding an encoded well-formed command gives it back, every operand at every value (R101 to R103, R109). -/
def Obligations.DecodeEncodeRoundTrip : Prop :=
  ∀ i : Instr, WellFormed i → decode (encode i) = .ok i

/-- Tier 3, encoding. A command the decoder accepts is well formed, and encoding it gives back the very word it came from: a legal
word has one meaning (R115). -/
def Obligations.EncodeDecodeRoundTrip : Prop :=
  ∀ (c : Command) (i : Instr), decode c = .ok i →
    WellFormed i ∧ (encode i).word = c.word ∧ decode ⟨(encode i).word, c.t0, c.t1⟩ = .ok i

/-- R111, whole: exactly the words it lists are illegal; an illegal one sets the sticky fault bit and changes nothing else (but
that the command has been taken from the port), a legal one runs, and a legal RUN with `time` > `end_time` sets that bit alone. -/
def Obligations.IllegalWordSetsCmdFaultOnly : Prop :=
  ∀ (s : State) (c : Command) (rest : List Command), s.faulted = false → s.pending = c :: rest →
    (illegalWord c.word → step s = .next { s with pending := rest, cmdFault := true }) ∧
    (¬illegalWord c.word → ∃ i, decode c = .ok i ∧ step s = exec i { s with pending := rest }) ∧
    (¬illegalWord c.word → field c.word 31 28 = 2 → c.t1 < c.t0 → step s = .next { s with pending := rest, cmdFault := true })

/-- R283, whole: a faulted block ignores the command; otherwise an illegal word raises the command fault, a reversed window of a
legal RUN raises it too, and any other command's rule runs; the fault bit stops nothing. -/
def Obligations.AdmissionOrder : Prop :=
  ∀ (s : State) (c : Command) (rest : List Command), s.pending = c :: rest →
    (s.faulted = true → step s = .next { s with pending := rest }) ∧
    (s.faulted = false → ∀ e, decode c = .error e → step s = .next { s with pending := rest, cmdFault := true }) ∧
    (s.faulted = false → ∀ i, decode c = .ok i → step s = exec i { s with pending := rest }) ∧
    (s.faulted = false → ∀ ch time endTime, decode c = .ok (runOf ch time endTime) → endTime < time →
      step s = .next { s with pending := rest, cmdFault := true })

/-- A step runs the decoded command: when the next command decodes to a well-formed `i`, `step` is `exec i` on the state with that
command taken from the port; with no command presented nothing moves (R20; the idle step is log entry 1). -/
def Obligations.StepRunsDecodedCommand : Prop :=
  (∀ (s : State) (i : Instr) (rest : List Command), WellFormed i → s.faulted = false → s.pending = encode i :: rest →
    step s = exec i { s with pending := rest }) ∧
  (∀ s : State, s.pending = [] → step s = .next s)

/-- Words written out from the tables of R102 and R103 decode to the commands they stand for, one for every operation. -/
def Obligations.WrittenWordsDecode : Prop :=
  decode ⟨0x1000009F#32, 0, 0⟩ = .ok (.wr .sq1 .r0 0x9F#8) ∧ decode ⟨0x1800008F#32, 0, 0⟩ = .ok (.wrDmc0 0x8F#8) ∧
    decode ⟨0x20000000#32, 0, 10000⟩ = .ok (.runSq .sq1 0 10000) ∧ decode ⟨0x30000020#32, 0, 0⟩ = .ok (.clkLen .sq1 0x20#8) ∧
    decode ⟨0x46000000#32, 0, 0⟩ = .ok .clkEnvNoi ∧ decode ⟨0x500000FF#32, 0, 0⟩ = .ok (.clkSwp .sq1 0xFF#8) ∧
    decode ⟨0x64000000#32, 0, 0⟩ = .ok .clkLin ∧ decode ⟨0x78000001#32, 0, 0⟩ = .ok (.setOutDmc true) ∧
    decode ⟨0x8000000A#32, 0, 0⟩ = .ok (.setLen .sq1 10#16) ∧ decode ⟨0x98000000#32, 0, 0⟩ = .ok .dmcStart ∧
    decode ⟨0xA8000000#32, 0, 0⟩ = .ok .dmcStop ∧ decode ⟨0xB8000000#32, 0, 0⟩ = .ok .irqAck ∧
    decode ⟨0xC8000000#32, 6480, 0⟩ = .ok (.cntRd 6480) ∧ decode ⟨0x06000000#32, 0, 0⟩ = .ok (.reset .noi)

/-! ## Register writes -/

/-- WR on SQ1, SQ2, TRI, NOI: the byte is stored, its latch is set, and nothing else changes, in the channel or outside it (the
part of R144 that is not the DMC's). -/
def Obligations.WrStoresByteAndLatch : Prop :=
  ∀ (ch : PlainChannel) (a : RegNo) (data : Byte) (s : State), ∃ t : State, exec (.wr ch a data) s = .next t ∧
    (t.base ch.toChannel).regs.get a = data ∧ (t.base ch.toChannel).written.get a = true ∧
    (∀ a', a' ≠ a → (t.base ch.toChannel).regs.get a' = (s.base ch.toChannel).regs.get a' ∧
      (t.base ch.toChannel).written.get a' = (s.base ch.toChannel).written.get a') ∧
    t = s.setBase ch.toChannel { s.base ch.toChannel with
      regs := (t.base ch.toChannel).regs, written := (t.base ch.toChannel).written }

/-- R221, whole: WR to DMC registers 2 and 3 stores the byte, sets the latch and does nothing else. -/
def Obligations.WrDmc23StoresOnly : Prop :=
  ∀ (data : Byte) (s : State),
    exec (.wrDmc2 data) s = .next { s with dmc := { s.dmc with base := { s.dmc.base with
      regs := { s.dmc.base.regs with r2 := data }, written := { s.dmc.base.written with w2 := true } } } } ∧
    exec (.wrDmc3 data) s = .next { s with dmc := { s.dmc with base := { s.dmc.base with
      regs := { s.dmc.base.regs with r3 := data }, written := { s.dmc.base.written with w3 := true } } } }

/-- WR to DMC register 0 (R216 with R222): byte and latch, the period from the table row of `PAL[DMC]`, the enable `data[7]` and not
`data[6]`, the flag cleared when the IRQ is left disabled, the schedule recomputed, one notification exactly when it changes; nothing
else. -/
def Obligations.WrDmc0Reconfigures : Prop :=
  ∀ (data : Byte) (s : State), ∃ t : State, exec (.wrDmc0 data) s = .next t ∧
    (dmcPeriodRow s.params.palDmc)[field data 3 0]? = some t.dmc.period ∧
    (t.dmc.irqEnabled = true ↔ bit data 7 = 1 ∧ bit data 6 = 0) ∧
    (t.dmc.irqFlag = true ↔ s.dmc.irqFlag = true ∧ t.dmc.irqEnabled = true) ∧
    t.dmc.nextIrq =
      (if t.dmc.irqEnabled = true ∧ 0 < s.dmc.base.lengthCounter then
        some (predictedIrq { s.dmc with period := t.dmc.period }) else none) ∧
    t.notifications = s.notifications ++ (if t.dmc.nextIrq = s.dmc.nextIrq then [] else [.irqChanged]) ∧
    t = { s with
      notifications := t.notifications
      dmc := { s.dmc with
        period := t.dmc.period, irqEnabled := t.dmc.irqEnabled, irqFlag := t.dmc.irqFlag, nextIrq := t.dmc.nextIrq
        base := { s.dmc.base with
          regs := { s.dmc.base.regs with r0 := data }, written := { s.dmc.base.written with w0 := true } } } }

/-- WR to DMC register 1 (R217): byte and latch, the level from bits 6:0, nothing emitted and nothing else changed; only when
`NONLINEAR` is false is `last_amp` set, to the uninterpreted `DAC_COMP` of the old and the new level. -/
def Obligations.WrDmc1SetsLevel : Prop :=
  ∀ (data : Byte) (s : State), ∃ t : State, exec (.wrDmc1 data) s = .next t ∧
    t.dmc.dac.toNat = field data 6 0 ∧
    t.dmc.base.lastAmp =
      (if s.params.nonlinear then s.dmc.base.lastAmp else Config.dacComp s.dmc.dac.toNat (field data 6 0)) ∧
    t = { s with dmc := { s.dmc with
      dac := t.dmc.dac
      base := { s.dmc.base with
        regs := { s.dmc.base.regs with r1 := data }, written := { s.dmc.base.written with w1 := true }
        lastAmp := t.dmc.base.lastAmp } } }

/-! ## Length counter and binding -/

/-- R145, whole: CLKLEN lowers a non-zero length counter by one unless a bit the mask selects is set in register 0, and changes
nothing else; on the DMC it is an illegal command. -/
def Obligations.ClkLenDecrementsUnlessHalted : Prop :=
  (∀ (ch : PlainChannel) (mask : Byte) (s : State),
    exec (.clkLen ch mask) s = .next
      (if 0 < (s.base ch.toChannel).lengthCounter ∧ (s.base ch.toChannel).regs.r0 &&& mask = 0#8 then
        s.setBase ch.toChannel { s.base ch.toChannel with lengthCounter := (s.base ch.toChannel).lengthCounter - 1 }
      else s)) ∧
  rejectedOn 3 4

/-- R146, whole: SETLEN loads the length counter and changes nothing else; on the DMC it is an illegal command. -/
def Obligations.SetLenLoadsCounter : Prop :=
  (∀ (ch : PlainChannel) (n : BitVec 16) (s : State), ∃ t : State, exec (.setLen ch n) s = .next t ∧
    (t.base ch.toChannel).lengthCounter = n.toNat ∧
    t = s.setBase ch.toChannel { s.base ch.toChannel with lengthCounter := n.toNat }) ∧
  rejectedOn 8 4

/-- R147, whole: SETOUT sets `out_en`; on the DMC a change of binding exchanges `dac` and `paused_dac`; nothing is emitted,
`last_amp` is not changed, and SETOUT with the value already there changes nothing. -/
def Obligations.SetOutBinds : Prop :=
  (∀ (ch : PlainChannel) (en : Bool) (s : State),
    exec (.setOut ch en) s = .next (s.setBase ch.toChannel { s.base ch.toChannel with outEn := en })) ∧
  (∀ (en : Bool) (s : State), exec (.setOutDmc en) s = .next
    (if s.dmc.base.outEn = en then s
     else { s with dmc := { s.dmc with
      dac := s.dmc.pausedDac, pausedDac := s.dmc.dac, base := { s.dmc.base with outEn := en } } })) ∧
  (∀ (ch : Channel) (s : State), exec (setOutOf ch (s.base ch).outEn) s = .next s)

/-- R231: unbinding the DMC parks its level and, whatever windows run while it is unbound, rebinding brings that level and the
`last_amp` kept with it back. -/
def Obligations.RebindRestoresDmcLevel : Prop :=
  ∀ (s u : State) (windows : List (Nat × Nat)), s.dmc.base.outEn = true →
    execAll (.setOutDmc false :: windows.map (fun w => .runDmc w.1 w.2) ++ [.setOutDmc true]) s = .next u →
    u.dmc.dac = s.dmc.dac ∧ u.dmc.base.lastAmp = s.dmc.base.lastAmp ∧ u.dmc.base.outEn = true ∧ u.acc = s.acc

/-! ## Envelope -/

namespace Sys2Proof.Claims

/-- One tick of the envelope unit as R171 gives it, on numbers. -/
def envelopeTick (r : Regs) (latch : Bool) (e f : Envelope) : Prop :=
  (latch = true → f.envelope.toNat = 15 ∧ f.envDelay.toNat = field r.r0 3 0) ∧
  (latch = false → 0 < e.envDelay.toNat → f.envelope = e.envelope ∧ f.envDelay.toNat = e.envDelay.toNat - 1) ∧
  (latch = false → e.envDelay.toNat = 0 → f.envDelay.toNat = field r.r0 3 0 ∧
    f.envelope.toNat = (if e.envelope.toNat = 0 ∧ bit r.r0 5 = 0 then 0 else (e.envelope.toNat + 15) % 16))

end Sys2Proof.Claims

/-- R171, whole: CLKENV on SQ1, SQ2 and NOI restarts, counts or steps the envelope, clears the latch of register 3, and changes nothing
else; on TRI and DMC it is an illegal command. -/
def Obligations.ClkEnvTicks : Prop :=
  (∀ (ch : SqChannel) (s : State), ∃ t : State, exec (.clkEnvSq ch) s = .next t ∧
    envelopeTick (s.square ch).base.regs (s.square ch).base.written.w3 (s.square ch).env (t.square ch).env ∧
    t = s.setSquare ch { s.square ch with
      env := (t.square ch).env
      base := { (s.square ch).base with written := { (s.square ch).base.written with w3 := false } } }) ∧
  (∀ s : State, ∃ t : State, exec .clkEnvNoi s = .next t ∧
    envelopeTick s.noi.base.regs s.noi.base.written.w3 s.noi.env t.noi.env ∧
    t = { s with noi := { s.noi with
      env := t.noi.env, base := { s.noi.base with written := { s.noi.base.written with w3 := false } } } }) ∧
  rejectedOn 4 2 ∧ rejectedOn 4 4

/-- R172, whole: VOLUME is 0 with the length counter at 0, else the fixed volume when the constant-volume bit is set, else the
envelope; its result is 0..15. -/
def Obligations.VolumeRule : Prop :=
  ∀ (b : Base) (e : Envelope),
    volume b e = (if b.lengthCounter = 0 then 0 else if bit b.regs.r0 4 = 1 then field b.regs.r0 3 0 else e.envelope.toNat) ∧
    volume b e ≤ 15

/-- The envelope sequence of R173, over any number of ticks: the first CLKENV after a write to register 3 starts the level at 15; `k`
expiries of the divider later it is `15 - k`, held at 0 with the loop bit clear and starting again from 15 with it set. For the noise
channel and both squares. -/
def Obligations.EnvelopeSequence : Prop :=
  (∀ (s : State) (k : Nat), s.noi.base.written.w3 = true → ∃ t : State,
    execAll (List.replicate (1 + k * (field s.noi.base.regs.r0 3 0 + 1)) .clkEnvNoi) s = .next t ∧
    t.noi.env.envelope.toNat = (if bit s.noi.base.regs.r0 5 = 1 then 15 - k % 16 else 15 - k) ∧
    t.noi.base.regs = s.noi.base.regs ∧ t.noi.base.written.w3 = false) ∧
  (∀ (ch : SqChannel) (s : State) (k : Nat), (s.square ch).base.written.w3 = true → ∃ t : State,
    execAll (List.replicate (1 + k * (field (s.square ch).base.regs.r0 3 0 + 1)) (.clkEnvSq ch)) s = .next t ∧
    (t.square ch).env.envelope.toNat = (if bit (s.square ch).base.regs.r0 5 = 1 then 15 - k % 16 else 15 - k) ∧
    (t.square ch).base.regs = (s.square ch).base.regs ∧ (t.square ch).base.written.w3 = false)

/-! ## Sweep -/

namespace Sys2Proof.Claims

/-- The candidate period of R181. -/
def sweepCand (r : Regs) (negAdj : Int) : Int :=
  (period r : Int) +
    (if bit r.r1 3 = 1 then negAdj - ((period r / 2 ^ field r.r1 2 0 : Nat) : Int) else ((period r / 2 ^ field r.r1 2 0 : Nat) : Int))

/-- The four commit conditions of R181. -/
def sweepCommitted (r : Regs) (negAdj : Int) : Prop :=
  field r.r1 2 0 ≠ 0 ∧ bit r.r1 7 = 1 ∧ 8 ≤ period r ∧ sweepCand r negAdj < 0x800

end Sys2Proof.Claims

/-- R181, whole: a CLKSWP tick counts the divider down, on its underflow commits the candidate period into registers 2 and 3 under the
four conditions (bits 7:3 of register 3 kept), reloads the divider on underflow or on the latch of register 1, clears that latch, and
changes nothing else: no other latch, not the envelope. The candidate a commit writes is never negative. Channels other than SQ1 and SQ2,
and immediates other than 0xFF and 0x00, are illegal commands. -/
def Obligations.ClkSwpTicks : Prop :=
  (∀ (ch : SqChannel) (m8 : Byte) (s : State), m8 = 0xFF#8 ∨ m8 = 0x00#8 →
    ∃ (negAdj : Int) (t : State), negAdj = (if m8 = 0xFF#8 then -1 else 0) ∧ exec (.clkSwp ch m8) s = .next t ∧
      ((s.square ch).sweepDelay.toNat = 0 ∧ sweepCommitted (s.square ch).base.regs negAdj →
        0 ≤ sweepCand (s.square ch).base.regs negAdj ∧
        ((period (t.square ch).base.regs : Nat) : Int) = sweepCand (s.square ch).base.regs negAdj ∧
        field (t.square ch).base.regs.r3 7 3 = field (s.square ch).base.regs.r3 7 3) ∧
      (¬((s.square ch).sweepDelay.toNat = 0 ∧ sweepCommitted (s.square ch).base.regs negAdj) →
        (t.square ch).base.regs = (s.square ch).base.regs) ∧
      (t.square ch).base.regs.r0 = (s.square ch).base.regs.r0 ∧ (t.square ch).base.regs.r1 = (s.square ch).base.regs.r1 ∧
      (t.square ch).sweepDelay.toNat =
        (if (s.square ch).sweepDelay.toNat = 0 ∨ (s.square ch).base.written.w1 = true then field (s.square ch).base.regs.r1 6 4
         else (s.square ch).sweepDelay.toNat - 1) ∧
      t = s.setSquare ch { s.square ch with
        sweepDelay := (t.square ch).sweepDelay
        base := { (s.square ch).base with
          regs := (t.square ch).base.regs, written := { (s.square ch).base.written with w1 := false } } }) ∧
  (∀ (ch : SqChannel) (m8 : Byte) (s : State), m8 ≠ 0xFF#8 → m8 ≠ 0x00#8 →
    exec (.clkSwp ch m8) s = .next { s with cmdFault := true }) ∧
  (∀ c : Command, field c.word 31 28 = 5 → field c.word 7 0 ≠ 0xFF → field c.word 7 0 ≠ 0 → ∃ e, decode c = .error e) ∧
  rejectedOn 5 2 ∧ rejectedOn 5 3 ∧ rejectedOn 5 4

/-! ## Linear counter -/

/-- R201, whole: a CLKLIN tick reloads the linear counter from bits 6:0 of register 0 when the latch of register 3 is set, else lowers a
non-zero counter by one; it clears that latch unless bit 7 of register 0 is set; nothing else changes. On any other channel it is an
illegal command. -/
def Obligations.ClkLinTicks : Prop :=
  (∀ s : State, ∃ t : State, exec .clkLin s = .next t ∧
    t.tri.linearCounter.toNat =
      (if s.tri.base.written.w3 = true then field s.tri.base.regs.r0 6 0 else s.tri.linearCounter.toNat - 1) ∧
    t.tri.base.written.w3 = (if bit s.tri.base.regs.r0 7 = 0 then false else s.tri.base.written.w3) ∧
    t = { s with tri := { s.tri with
      linearCounter := t.tri.linearCounter
      base := { s.tri.base with written := { s.tri.base.written with w3 := t.tri.base.written.w3 } } } }) ∧
  rejectedOn 6 0 ∧ rejectedOn 6 1 ∧ rejectedOn 6 3 ∧ rejectedOn 6 4

/-! ## RUN: the frame and the timer -/

/-- RUN on any channel over a reversed window sets the command-fault bit and changes nothing else; over an empty window it changes
nothing at all, not even `trigger` (the first two statements of R141). -/
def Obligations.ReversedAndEmptyWindows : Prop :=
  ∀ (ch : Channel) (time endTime : Nat) (s : State),
    (endTime < time → exec (runOf ch time endTime) s = .next { s with cmdFault := true }) ∧
    exec (runOf ch time time) s = .next s

/-- The closed form of the timer edges (R142): the edge times inside the window are exactly the first `n` of `first + k * P`, `P` the period given; the carry is
what is left to the next edge, it is below the period when there was an edge, and without one it is the old delay less the window. -/
def Obligations.EdgesEnumerateWindow : Prop :=
  ∀ (time endTime delay p : Nat), time < endTime → 1 ≤ p →
    (edges time endTime delay p).first = time + delay ∧ (edges time endTime delay p).period = p ∧
    (∀ k, k < (edges time endTime delay p).count ↔ time + delay + k * p < endTime) ∧
    time + delay + (edges time endTime delay p).count * p = endTime + (edges time endTime delay p).carry ∧
    (1 ≤ (edges time endTime delay p).count → (edges time endTime delay p).carry < p) ∧
    ((edges time endTime delay p).count = 0 → (edges time endTime delay p).carry + (endTime - time) = delay)

/-! ## RUN: square -/

namespace Sys2Proof.Claims

/-- `SquareAmp` as R183 gives it, on numbers. -/
def squareLevel (ds vol phase : Nat) : Int :=
  if (phase < (if ds = 0 then 1 else if ds = 2 then 4 else 2)) ≠ (ds = 3) then (vol : Int) else 0

/-- The silence condition of R184 with R182. -/
abbrev squareIsSilent (r : Regs) (vol : Nat) : Prop :=
  vol = 0 ∨ period r < 8 ∨ (bit r.r1 3 = 0 ∧ 0x800 ≤ period r + period r / 2 ^ field r.r1 2 0)

/-- The levels a square channel goes through: 0 while silent. -/
def squareLevels (c : Square) (k : Nat) : Int :=
  if squareIsSilent c.base.regs (volume c.base c.env) then 0
  else squareLevel (field c.base.regs.r0 7 6) (volume c.base c.env) ((c.phase.toNat + k) % 8)

end Sys2Proof.Claims

/-- R184, whole (with R182, R183): RUN on SQ1 or SQ2 over a non-empty window. Every form advances `phase` by the number of edges modulo 8
and carries the delay; unbound, nothing else; bound, the level is synchronised at `time`, then one emission at each edge at which the
level changes and none elsewhere (0 throughout while silent), `last_amp` the last level, `trigger` whether some edge rises. Nothing
else changes. -/
def Obligations.RunSqResult : Prop :=
  ∀ (ch : SqChannel) (time endTime : Nat) (s : State), time < endTime →
    ∃ e : EdgeSet, e = edges time endTime (s.square ch).base.delay ((period (s.square ch).base.regs + 1) * 2) ∧
      exec (.runSq ch time endTime) s = .next (({ s with
        acc := if (s.square ch).base.outEn then
            waveAcc s.acc ch.toChannel time e.first e.period e.count (s.square ch).base.lastAmp (squareLevels (s.square ch))
          else s.acc }).setSquare ch { s.square ch with
        phase := BitVec.ofNat 3 ((s.square ch).phase.toNat + e.count)
        base := waveBase (s.square ch).base e.carry e.count (squareLevels (s.square ch)) })

/-! ## RUN: triangle -/

namespace Sys2Proof.Claims

/-- `phase` after `k` steps down, cyclically over 1..32 (R203). -/
def triPhaseAfter (phase k : Nat) : Nat := (phase - 1 + 31 * k) % 32 + 1

/-- `TriAmp` (R202). -/
def triLevel (phase : Nat) : Int := if phase ≤ 16 then 16 - (phase : Int) else (phase : Int) - 17

/-- The activity condition of R204. -/
abbrev triActive (c : Triangle) : Prop :=
  c.base.lengthCounter ≠ 0 ∧ c.linearCounter.toNat ≠ 0 ∧ 3 ≤ period c.base.regs + 1

end Sys2Proof.Claims

/-- R204, whole (with R202, R203): RUN on TRI over a non-empty window. Active, `phase` walks down one step per edge over 1..32; silent,
`phase` is frozen and `delay` is 0. Bound, the level is synchronised at `time` and one emission follows at each edge at which it changes;
a silent triangle holds the level of its phase. Nothing else changes. The premise is the range of `phase` (R33), part of `State.Inv`. -/
def Obligations.RunTriResult : Prop :=
  ∀ (time endTime : Nat) (s : State), time < endTime → 1 ≤ s.tri.phase → s.tri.phase ≤ 32 →
    ∃ (e : EdgeSet) (n carry : Nat) (level : Nat → Int),
      e = edges time endTime s.tri.base.delay (period s.tri.base.regs + 1) ∧
      n = (if triActive s.tri then e.count else 0) ∧ carry = (if triActive s.tri then e.carry else 0) ∧
      level = (fun k => triLevel (triPhaseAfter s.tri.phase k)) ∧
      exec (.runTri time endTime) s = .next { s with
        acc := if s.tri.base.outEn then waveAcc s.acc .tri time e.first e.period n s.tri.base.lastAmp level else s.acc
        tri := { s.tri with phase := triPhaseAfter s.tri.phase n, base := waveBase s.tri.base carry n level } }

/-! ## RUN: noise -/

/-- The shift of the noise register (R251) on numbers: down by one bit, with bit 0 XOR the tap of the mode entering at bit 14. -/
def Obligations.LfsrStepShifts : Prop :=
  ∀ (noise : BitVec 15) (mode : Bool),
    (lfsrStep noise mode).toNat = noise.toNat / 2 + 2 ^ 14 * ((bit noise 0 + bit noise (if mode then 6 else 1)) % 2)

/-- R253, whole (with R252, R254): RUN on NOI over a non-empty window shifts the register once per edge, bound or not, loud or not; bound,
the level (0 when bit 0 is set, else the volume) is synchronised at `time` and one emission follows at each edge at which it changes.
Nothing else changes. -/
def Obligations.RunNoiResult : Prop :=
  ∀ (time endTime : Nat) (s : State), time < endTime →
    ∃ (e : EdgeSet) (p : Nat) (reg : Nat → BitVec 15) (level : Nat → Int),
      (noisePeriodRow s.params.palNoi)[field s.noi.base.regs.r2 3 0]? = some p ∧
      e = edges time endTime s.noi.base.delay p ∧
      reg 0 = s.noi.noise ∧ (∀ k, reg (k + 1) = lfsrStep (reg k) (decide (bit s.noi.base.regs.r2 7 = 1))) ∧
      level = (fun k => if bit (reg k) 0 = 1 then 0 else (volume s.noi.base s.noi.env : Int)) ∧
      exec (.runNoi time endTime) s = .next { s with
        acc := if s.noi.base.outEn then waveAcc s.acc .noi time e.first e.period e.count s.noi.base.lastAmp level else s.acc
        noi := { s.noi with noise := reg e.count, base := waveBase s.noi.base e.carry e.count level } }

/-! ## The period tables -/

/-- R218 and R252, whole: the two rows of each table written out, NTSC then PAL, and the default period that RESET gives the DMC
whatever `PAL[DMC]` is. -/
def Obligations.PeriodTables : Prop :=
  dmcPeriodRow false = [428, 380, 340, 320, 286, 254, 226, 214, 190, 160, 142, 128, 106, 84, 72, 54] ∧
    dmcPeriodRow true = [398, 354, 316, 298, 276, 236, 210, 198, 176, 148, 132, 118, 98, 78, 66, 50] ∧
    noisePeriodRow false = [4, 8, 16, 32, 64, 96, 128, 160, 202, 254, 380, 508, 762, 1016, 2034, 4068] ∧
    noisePeriodRow true = [4, 8, 14, 30, 60, 88, 118, 148, 188, 236, 354, 472, 708, 944, 1890, 3778] ∧
    dmcDefaultPeriod = 428 ∧ ∀ s : State, ∃ t : State, exec .resetDmc s = .next t ∧ t.dmc.period = 428

/-! ## DMC: start, stop, acknowledge -/

/-- R224 (with R219, R220, R222): DMCSTART reloads the cursor and the count, reads one byte if the buffer is empty (ending a one-byte
sample at once: loop reloads, no loop disables, clears the schedule and flags the interrupt if enabled), and recomputes the schedule.
With a reader, or with the buffer full, it always completes; nothing else changes. -/
def Obligations.DmcStartResult : Prop :=
  ∀ s : State, s.params.memReaderPresent = true ∨ s.dmc.bufFull = true → ∃ t : State, exec .dmcStart s = .next t ∧
    (s.dmc.bufFull = true →
      t.dmc.address.toNat = 0x4000 + 64 * s.dmc.base.regs.r2.toNat ∧ t.dmc.base.lengthCounter = 16 * s.dmc.base.regs.r3.toNat + 1 ∧
      t.dmc.buf = s.dmc.buf ∧ t.memReads = s.memReads ∧ t.dmc.irqFlag = s.dmc.irqFlag) ∧
    (s.dmc.bufFull = false →
      t.memReads = s.memReads ++ [BitVec.ofNat 16 (0xC000 + 64 * s.dmc.base.regs.r2.toNat)] ∧
      t.dmc.buf = s.readerAnswer (BitVec.ofNat 16 (0xC000 + 64 * s.dmc.base.regs.r2.toNat)) ∧
      (s.dmc.base.regs.r3.toNat ≠ 0 →
        t.dmc.address.toNat = 0x4001 + 64 * s.dmc.base.regs.r2.toNat ∧ t.dmc.base.lengthCounter = 16 * s.dmc.base.regs.r3.toNat ∧
        t.dmc.irqFlag = s.dmc.irqFlag) ∧
      (s.dmc.base.regs.r3.toNat = 0 → bit s.dmc.base.regs.r0 6 = 1 →
        t.dmc.address.toNat = 0x4000 + 64 * s.dmc.base.regs.r2.toNat ∧ t.dmc.base.lengthCounter = 1 ∧ t.dmc.irqFlag = s.dmc.irqFlag) ∧
      (s.dmc.base.regs.r3.toNat = 0 → bit s.dmc.base.regs.r0 6 = 0 →
        t.dmc.address.toNat = 0x4001 + 64 * s.dmc.base.regs.r2.toNat ∧ t.dmc.base.lengthCounter = 0 ∧
        t.dmc.irqFlag = (s.dmc.irqFlag || s.dmc.irqEnabled))) ∧
    t.dmc.bufFull = true ∧
    t.dmc.nextIrq = (if s.dmc.irqEnabled = true ∧ 0 < t.dmc.base.lengthCounter then some (predictedIrq t.dmc) else none) ∧
    t.notifications = s.notifications ++
      (if t.dmc.base.lengthCounter = 0 then .dmcDisabled :: (if s.dmc.irqEnabled then [.irqChanged] else [])
       else if t.dmc.nextIrq = s.dmc.nextIrq then [] else [.irqChanged]) ∧
    t = { s with
      memReads := t.memReads, notifications := t.notifications
      dmc := { s.dmc with
        address := t.dmc.address, buf := t.dmc.buf, bufFull := true, irqFlag := t.dmc.irqFlag, nextIrq := t.dmc.nextIrq
        base := { s.dmc.base with lengthCounter := t.dmc.base.lengthCounter } } }

/-- R281 in DMCSTART: without a reader and with the buffer empty the command stops at the read; the reload has happened, the read has
not; `faulted` is set; nothing else changes. -/
def Obligations.DmcStartWithoutReaderIsFatal : Prop :=
  ∀ s : State, s.params.memReaderPresent = false → s.dmc.bufFull = false →
    ∃ t : State, exec .dmcStart s = .fault (.noMemReader t) ∧
      t.dmc.address.toNat = 0x4000 + 64 * s.dmc.base.regs.r2.toNat ∧ t.dmc.base.lengthCounter = 16 * s.dmc.base.regs.r3.toNat + 1 ∧
      t = { s with faulted := true, dmc := { s.dmc with
        address := t.dmc.address, base := { s.dmc.base with lengthCounter := t.dmc.base.lengthCounter } } }

/-- R225, whole: DMCSTOP empties the byte count and recomputes the schedule to NONE, with one notification exactly when it changes;
`irq_flag`, the buffer and the shift register are not changed. On another channel it is an illegal command. -/
def Obligations.DmcStopResult : Prop :=
  (∀ s : State, exec .dmcStop s = .next { s with
    notifications := s.notifications ++ (if s.dmc.nextIrq = none then [] else [.irqChanged])
    dmc := { s.dmc with nextIrq := none, base := { s.dmc.base with lengthCounter := 0 } } }) ∧
  rejectedOn 10 0 ∧ rejectedOn 10 1 ∧ rejectedOn 10 2 ∧ rejectedOn 10 3

/-- R226, whole: IRQACK clears `irq_flag`, raises no notification and changes nothing else. On another channel it is an illegal
command. -/
def Obligations.IrqAckResult : Prop :=
  (∀ s : State, ∃ t : State, exec .irqAck s = .next t ∧ t.dmc.irqFlag = false ∧ t.notifications = s.notifications ∧
    t = { s with dmc := { s.dmc with irqFlag := false } }) ∧
  rejectedOn 11 0 ∧ rejectedOn 11 1 ∧ rejectedOn 11 2 ∧ rejectedOn 11 3

/-! ## RUN: DMC -/

/-- RUN on the DMC over any forward window, with a reader: it completes, carries the delay of the edges, records the end of the window, and
leaves registers, latches, binding, `period`, `irq_enabled` and `paused_dac` alone (the "State written" of R227). -/
def Obligations.RunDmcCompletes : Prop :=
  ∀ (time endTime : Nat) (s : State), time < endTime → s.params.memReaderPresent = true →
    ∃ t : State, exec (.runDmc time endTime) s = .next t ∧
      t.dmc.base.delay = (edges time endTime s.dmc.base.delay s.dmc.period).carry ∧ t.dmc.lastTime = endTime ∧ dmcRunFrame s t ∧
      (s.dmc.base.outEn = true → t.dmc.base.lastAmp = (t.dmc.dac.toNat : Int)) ∧
      (s.dmc.base.outEn = false → t.dmc.base.lastAmp = s.dmc.base.lastAmp ∧ t.acc = s.acc ∧ t.dmc.base.trigger = false)

/-- One timer edge of the DMC (R227 with R219, R220): a RUN over one cycle with the edge in it. The shift: a set bit raises the level by 2, a
clear bit lowers it by 2, a step that would leave 0..127 is dropped. The countdown and the reload step: from the buffer if it is full, else
silence; then one byte is read if bytes remain; the last one loops, or disables the channel and flags the interrupt. The premises are a
reader where a byte is due, a positive period (R35) and `bits_remain` in its range (R37). -/
def Obligations.RunDmcOneEdge : Prop :=
  ∀ (time : Nat) (s : State),
    (s.dmc.bitsRemain = 1 → s.dmc.bufFull = true → 0 < s.dmc.base.lengthCounter → s.params.memReaderPresent = true) →
    1 ≤ s.dmc.period → 1 ≤ s.dmc.bitsRemain → s.dmc.base.delay = 0 →
    ∃ t : State, exec (.runDmc time (time + 1)) s = .next t ∧ dmcRunFrame s t ∧
      t.dmc.base.delay = s.dmc.period - 1 ∧ t.dmc.lastTime = time + 1 ∧
      t.dmc.dac.toNat =
        (if s.dmc.silence = true then s.dmc.dac.toNat
         else if bit s.dmc.bits 0 = 1 then (if s.dmc.dac.toNat + 2 ≤ 127 then s.dmc.dac.toNat + 2 else s.dmc.dac.toNat)
         else (if 2 ≤ s.dmc.dac.toNat then s.dmc.dac.toNat - 2 else s.dmc.dac.toNat)) ∧
      t.acc =
        (if s.dmc.base.outEn = true then
          ⟨s.acc.log ++ deltaAt .dmc time s.dmc.base.lastAmp (s.dmc.dac.toNat : Int) ++
              deltaAt .dmc time (s.dmc.dac.toNat : Int) (t.dmc.dac.toNat : Int),
            s.acc.sum + ((t.dmc.dac.toNat : Int) - s.dmc.base.lastAmp)⟩
         else s.acc) ∧
      t.dmc.base.trigger = (s.dmc.base.outEn && decide (s.dmc.dac.toNat < t.dmc.dac.toNat)) ∧
      t.dmc.bitsRemain = (if s.dmc.bitsRemain = 1 then 8 else s.dmc.bitsRemain - 1) ∧
      (s.dmc.bitsRemain ≠ 1 ∨ s.dmc.bufFull = false →
        t.dmc.bits = (if s.dmc.silence = true then s.dmc.bits else BitVec.ofNat 8 (s.dmc.bits.toNat / 2)) ∧
        t.dmc.bufFull = s.dmc.bufFull ∧ t.dmc.silence = (s.dmc.silence || decide (s.dmc.bitsRemain = 1)) ∧ readerSame s t) ∧
      (s.dmc.bitsRemain = 1 → s.dmc.bufFull = true → t.dmc.bits = s.dmc.buf ∧ t.dmc.silence = false) ∧
      (s.dmc.bitsRemain = 1 → s.dmc.bufFull = true → s.dmc.base.lengthCounter = 0 → t.dmc.bufFull = false ∧ readerSame s t) ∧
      (s.dmc.bitsRemain = 1 → s.dmc.bufFull = true → 0 < s.dmc.base.lengthCounter →
        t.dmc.bufFull = true ∧ t.memReads = s.memReads ++ [BitVec.ofNat 16 (0x8000 + s.dmc.address.toNat)] ∧
        t.dmc.buf = s.readerAnswer (BitVec.ofNat 16 (0x8000 + s.dmc.address.toNat)) ∧
        (1 < s.dmc.base.lengthCounter →
          t.dmc.address.toNat = (s.dmc.address.toNat + 1) % 0x8000 ∧ t.dmc.base.lengthCounter = s.dmc.base.lengthCounter - 1 ∧
          t.dmc.irqFlag = s.dmc.irqFlag ∧ t.dmc.nextIrq = s.dmc.nextIrq ∧ t.notifications = s.notifications) ∧
        (s.dmc.base.lengthCounter = 1 → bit s.dmc.base.regs.r0 6 = 1 →
          t.dmc.address.toNat = 0x4000 + 64 * s.dmc.base.regs.r2.toNat ∧
          t.dmc.base.lengthCounter = 16 * s.dmc.base.regs.r3.toNat + 1 ∧
          t.dmc.irqFlag = s.dmc.irqFlag ∧ t.dmc.nextIrq = s.dmc.nextIrq ∧ t.notifications = s.notifications) ∧
        (s.dmc.base.lengthCounter = 1 → bit s.dmc.base.regs.r0 6 = 0 →
          t.dmc.address.toNat = (s.dmc.address.toNat + 1) % 0x8000 ∧ t.dmc.base.lengthCounter = 0 ∧
          t.dmc.irqFlag = (s.dmc.irqFlag || s.dmc.irqEnabled) ∧ t.dmc.nextIrq = none ∧
          t.notifications = s.notifications ++ .dmcDisabled :: (if s.dmc.irqEnabled then [.irqChanged] else [])))

namespace Sys2Proof.Claims

/-- The level after the shift of one edge (R227), on numbers: by 2 up or down with the bit, a step that would leave 0..127 dropped. -/
def dacStep (silent : Bool) (b dac : Nat) : Nat :=
  if silent then dac
  else if b = 1 then (if dac + 2 ≤ 127 then dac + 2 else dac)
  else (if 2 ≤ dac then dac - 2 else dac)

/-- The level after `k` shifts of the shift register, bit 0 first (R227). -/
def dacAfter (c : Dmc) : Nat → Nat
  | 0 => c.dac.toNat
  | k + 1 => dacStep c.silence (bit c.bits k) (dacAfter c k)

/-- The levels a DMC goes through until its shift register is reloaded. -/
def dmcLevels (c : Dmc) (k : Nat) : Int := (dacAfter c k : Int)

end Sys2Proof.Claims

/-- RUN on the DMC over a window that does not reach the reload step, the window without any timer edge among them (R227): with or
without a reader it synchronises the level at `time`, shifts one bit per edge, emits where the level changes, lowers `bits_remain` by
the edges, carries the delay (without an edge the old delay less the window), records the end, and changes nothing else. -/
def Obligations.RunDmcBeforeReload : Prop :=
  ∀ (time endTime : Nat) (s : State), time < endTime →
    (edges time endTime s.dmc.base.delay s.dmc.period).count < s.dmc.bitsRemain →
    ∃ (e : EdgeSet) (n : Nat), e = edges time endTime s.dmc.base.delay s.dmc.period ∧ n = e.count ∧
      (endTime ≤ time + s.dmc.base.delay → n = 0 ∧ e.carry + (endTime - time) = s.dmc.base.delay) ∧
      exec (.runDmc time endTime) s = .next { s with
        acc := if s.dmc.base.outEn then waveAcc s.acc .dmc time e.first e.period n s.dmc.base.lastAmp (dmcLevels s.dmc) else s.acc
        dmc := { s.dmc with
          dac := BitVec.ofNat 7 (dacAfter s.dmc n)
          bits := if s.dmc.silence then s.dmc.bits else BitVec.ofNat 8 (s.dmc.bits.toNat / 2 ^ n)
          bitsRemain := s.dmc.bitsRemain - n
          lastTime := endTime
          base := waveBase s.dmc.base e.carry n (dmcLevels s.dmc) } }

/-- R281 in RUN DMC: without a reader, bytes left and the buffer full, the command stops at the first reload step, whichever edge of the
window that is (the `bits_remain`-th). What came before is kept: the level was synchronised at `time`, every edge up to and with that one
shifted its bit, with its emission, and the reload step was done. `delay` and `last_time` are as before, no byte was read, no
notification raised, `faulted` is set, and nothing else changes. -/
def Obligations.RunDmcFatalKeepsEarlierEffects : Prop :=
  ∀ (time endTime : Nat) (s : State), s.params.memReaderPresent = false → 1 ≤ s.dmc.period →
    1 ≤ s.dmc.bitsRemain → s.dmc.bufFull = true → 0 < s.dmc.base.lengthCounter →
    time + s.dmc.base.delay + (s.dmc.bitsRemain - 1) * s.dmc.period < endTime →
    exec (.runDmc time endTime) s = .fault (.noMemReader { s with
      faulted := true
      acc := if s.dmc.base.outEn then
          waveAcc s.acc .dmc time (time + s.dmc.base.delay) s.dmc.period s.dmc.bitsRemain s.dmc.base.lastAmp (dmcLevels s.dmc)
        else s.acc
      dmc := { s.dmc with
        dac := BitVec.ofNat 7 (dacAfter s.dmc s.dmc.bitsRemain)
        bits := s.dmc.buf, silence := false, bitsRemain := 8, bufFull := false
        base := waveBase s.dmc.base s.dmc.base.delay s.dmc.bitsRemain (dmcLevels s.dmc) } })

/-- The closed form of silent edges (R232): while `silence` is set and the buffer is empty a RUN of `n` edges only moves `bits_remain`. -/
def Obligations.SilentDmcBatching : Prop :=
  ∀ (time endTime : Nat) (s : State), time < endTime → s.dmc.silence = true → s.dmc.bufFull = false →
    1 ≤ s.dmc.bitsRemain → s.dmc.bitsRemain ≤ 8 →
    ∃ (n : Nat) (t : State), n = (edges time endTime s.dmc.base.delay s.dmc.period).count ∧
      exec (.runDmc time endTime) s = .next t ∧
      t.dmc.bitsRemain = (s.dmc.bitsRemain - 1 + 8 - n % 8) % 8 + 1 ∧
      t.dmc.dac = s.dmc.dac ∧ t.dmc.bits = s.dmc.bits ∧ t.dmc.silence = true ∧ t.dmc.bufFull = false ∧ readerSame s t ∧
      t.acc.log = s.acc.log ++ (if s.dmc.base.outEn = true then deltaAt .dmc time s.dmc.base.lastAmp (s.dmc.dac.toNat : Int) else []) ∧
      dmcRunFrame s t

/-! ## DMC: the schedule and the query -/

/-- Meaning of `next_irq` (R223): in a state of `State.Inv` whose schedule is the one RECALC_IRQ computes and whose flag is clear, the RUN from
`last_time` to `T` sets the flag exactly when `T` is at least `next_irq`: the predicted time is the least such end. -/
def Obligations.NextIrqIsLeastEndTime : Prop :=
  ∀ (s : State) (irq endTime : Nat), s.Inv → s.params.memReaderPresent = true → s.dmc.nextIrq = some irq →
    irq = predictedIrq s.dmc → s.dmc.irqFlag = false → s.dmc.lastTime ≤ endTime →
    ∃ t : State, exec (.runDmc s.dmc.lastTime endTime) s = .next t ∧ (t.dmc.irqFlag = true ↔ irq ≤ endTime)

/-- A RUN that stops short of the predicted time does not change the prediction (R222: "a RUN does not change the predicted time, it only
approaches it"): the schedule is kept, and computing it anew from the state reached gives the same time. -/
def Obligations.RunKeepsPrediction : Prop :=
  ∀ (s t : State) (irq endTime : Nat), s.Inv → s.dmc.nextIrq = some irq → irq = predictedIrq s.dmc → s.dmc.lastTime ≤ endTime →
    endTime < irq → exec (.runDmc s.dmc.lastTime endTime) s = .next t →
    t.dmc.nextIrq = some irq ∧ predictedIrq t.dmc = irq ∧ t.notifications = s.notifications

/-- The closed form of CNTRD (R229), in every state of `State.Inv`: reads fall on the reload edges, the first `(bits_remain - 1)` periods after
the next edge and then every eight periods; a non-looping sample makes `length_counter` of them, a looping one never stops. CNTRD always
completes and changes the response alone. Without a reader, where the run R228 asks about would stop at its first read, this count is the
model's choice (log entry 13) and no rule of the spec. -/
def Obligations.CountReadsClosedForm : Prop :=
  ∀ (s : State) (t : Nat), s.Inv →
    ∃ first count : Nat, first = s.dmc.lastTime + s.dmc.base.delay + (s.dmc.bitsRemain - 1) * s.dmc.period ∧
      count = (if s.dmc.base.lengthCounter = 0 ∨ t ≤ first then 0
        else if bit s.dmc.base.regs.r0 6 = 0 then min ((t - first - 1) / (8 * s.dmc.period) + 1) s.dmc.base.lengthCounter
        else (t - first - 1) / (8 * s.dmc.period) + 1) ∧
      exec (.cntRd t) s = .next { s with respCount := count }

/-- R228: CNTRD answers the number of reads `RUN DMC, last_time, t` makes if executed now, wherever that run completes, and 0 for `t` not
after `last_time`; it changes the response alone, with or without a reader (where the run would stop at a missing reader the count is log
entry 13's choice and is left open here); on another channel it is an illegal command. -/
def Obligations.CntRdCountsTheReadsOfARun : Prop :=
  (∀ (s : State) (t : Nat), ∃ n : Nat, exec (.cntRd t) s = .next { s with respCount := n } ∧
    (t ≤ s.dmc.lastTime → n = 0) ∧
    (∀ u : State, s.dmc.lastTime < t → exec (.runDmc s.dmc.lastTime t) s = .next u → u.memReads.length = s.memReads.length + n)) ∧
  rejectedOn 12 0 ∧ rejectedOn 12 1 ∧ rejectedOn 12 2 ∧ rejectedOn 12 3

/-- No command raises more than one `IrqChanged`, nor more than one `DmcDisabled` (R288); a command adds notifications behind the old
ones. -/
def Obligations.AtMostOneIrqChangedPerCommand : Prop :=
  ∀ (i : Instr) (s t : State), exec i s = .next t →
    ∃ new : List Notification, t.notifications = s.notifications ++ new ∧ new.count .irqChanged ≤ 1 ∧ new.count .dmcDisabled ≤ 1

/-- The life of the interrupt flag (R285): it rises only in RUN DMC or DMCSTART, enabled, at the end of a non-looping sample and with the
notification raised; it falls only by a write to register 0 that leaves the IRQ disabled, by IRQACK or by RESET. -/
def Obligations.IrqFlagLifeCycle : Prop :=
  ∀ (i : Instr) (s t : State), exec i s = .next t →
    (s.dmc.irqFlag = false → t.dmc.irqFlag = true →
      (i = .dmcStart ∨ ∃ time endTime, i = .runDmc time endTime) ∧ s.dmc.irqEnabled = true ∧ bit s.dmc.base.regs.r0 6 = 0 ∧
      t.dmc.base.lengthCounter = 0 ∧ t.notifications = s.notifications ++ [.dmcDisabled, .irqChanged]) ∧
    (s.dmc.irqFlag = true → t.dmc.irqFlag = false →
      (∃ data, i = .wrDmc0 data ∧ ¬(bit data 7 = 1 ∧ bit data 6 = 0)) ∨ i = .irqAck ∨ i = .resetDmc)

/-! ## Reset -/

/-- R311, whole: RESET gives the channel its reset values and keeps its binding; no other channel, not the accumulator, no fault bit and no
notification changes. A reserved channel number is an illegal command. -/
def Obligations.ResetCommandResult : Prop :=
  (∀ (ch : Channel) (s : State), ∃ t : State, exec (resetOf ch) s = .next t ∧ othersSame ch s t ∧
    t.base ch = ⟨⟨0#8, 0#8, 0#8, 0#8⟩, ⟨false, false, false, false⟩, 0, 0, 0, false, (s.base ch).outEn⟩ ∧
    (ch = .sq1 → t.sq1 = ⟨t.base ch, ⟨0#4, 0#4⟩, 0#3, 0#3⟩) ∧ (ch = .sq2 → t.sq2 = ⟨t.base ch, ⟨0#4, 0#4⟩, 0#3, 0#3⟩) ∧
    (ch = .tri → t.tri = ⟨t.base ch, 1, 0#7⟩) ∧ (ch = .noi → t.noi = ⟨t.base ch, ⟨0#4, 0#4⟩, 0x4000#15⟩) ∧
    (ch = .dmc → t.dmc = ⟨t.base ch, 0#15, 428, 0#8, false, 0#8, 1, 0#7, 0#7, true, false, false, none, 0⟩) ∧
    t = { s with sq1 := t.sq1, sq2 := t.sq2, tri := t.tri, noi := t.noi, dmc := t.dmc }) ∧
  (∀ c : Command, field c.word 31 28 = 0 → 5 ≤ field c.word 27 25 → ∃ e, decode c = .error e)

/-- R310 with the table of R51: the state after power-on, every spec field at the value the table gives, all channels unbound. -/
def Obligations.PowerOnValues : Prop :=
  (∀ ch : Channel, State.reset.base ch = ⟨⟨0#8, 0#8, 0#8, 0#8⟩, ⟨false, false, false, false⟩, 0, 0, 0, false, false⟩) ∧
    State.reset.sq1.env = ⟨0#4, 0#4⟩ ∧ State.reset.sq2.env = ⟨0#4, 0#4⟩ ∧ State.reset.noi.env = ⟨0#4, 0#4⟩ ∧
    State.reset.sq1.phase = 0#3 ∧ State.reset.sq2.phase = 0#3 ∧ State.reset.sq1.sweepDelay = 0#3 ∧
    State.reset.sq2.sweepDelay = 0#3 ∧ State.reset.tri.phase = 1 ∧ State.reset.tri.linearCounter = 0#7 ∧
    State.reset.noi.noise = 0x4000#15 ∧
    State.reset.dmc = ⟨State.reset.dmc.base, 0#15, 428, 0#8, false, 0#8, 1, 0#7, 0#7, true, false, false, none, 0⟩ ∧
    State.reset.acc = ⟨[], 0⟩ ∧ State.reset.faulted = false ∧ State.reset.cmdFault = false

/-! ## Faults -/

/-- Every command of every state ends in a next state or in `Fatal(NoMemReader)`; the fatal fault comes only from DMCSTART and RUN DMC, only
without a reader, with `faulted` set and no byte read; no other channel and no parameter changed (R280, R281). -/
def Obligations.OnlyMissingReaderStopsABlock : Prop :=
  ∀ (i : Instr) (s : State),
    (∃ t, exec i s = .next t ∧ t.faulted = s.faulted) ∨
    (∃ t, exec i s = .fault (.noMemReader t) ∧ (i = .dmcStart ∨ ∃ time endTime, i = .runDmc time endTime) ∧
      s.params.memReaderPresent = false ∧ t.faulted = true ∧ t.memReads = s.memReads ∧ othersSame .dmc s t ∧ t.params = s.params)

/-- A faulted block stays faulted for good and ignores every command (R281, R283): any number of steps only empties the port. -/
def Obligations.FaultedBlockIsStuck : Prop :=
  ∀ (s : State) (k : Nat), s.faulted = true → Sys2Proof.core.run k s = .next { s with pending := s.pending.drop k }

/-! ## Whole-machine rules -/

/-- The invariant of R49 holds after power-on. -/
def Obligations.InvariantAtReset : Prop := State.reset.Inv

/-- Tier 3, invariant. Every step from every state of `State.Inv` keeps it: canonical memory, the ranges of R25, R26, R33, R35, R37, the noise
register never 0 (R255), the reader ready (R230), a schedule exactly when an interrupt is due (R288), a pending flag only while enabled,
the accumulator balanced (R265), levels in range (R27). -/
def Obligations.StepKeepsInvariant : Prop :=
  ∀ s t : State, s.Inv → step s = .next t → t.Inv

/-- Window splitting (R149, `trigger` excepted): on every channel, two RUNs over adjacent windows leave the same emissions and the same
state as one RUN over both. The DMC's premises are a reader and a positive period (R35). -/
def Obligations.WindowSplitting : Prop :=
  ∀ (ch : Channel) (t0 t1 t2 : Nat) (s : State), t0 ≤ t1 → t1 ≤ t2 →
    (ch = .dmc → s.params.memReaderPresent = true ∧ 1 ≤ s.dmc.period) →
    ∃ m u w : State, exec (runOf ch t0 t1) s = .next m ∧ exec (runOf ch t1 t2) m = .next u ∧ exec (runOf ch t0 t2) s = .next w ∧
      u.clearTrigger ch = w.clearTrigger ch

/-- Delta conservation (R150), for every command and every channel: what a channel has emitted and its `last_amp` move together, except where
RESET sets the level to 0 without emitting, and where a write to DMC register 1 does so with `NONLINEAR` false. The log only grows. -/
def Obligations.DeltaConservation : Prop :=
  ∀ (i : Instr) (ch : Channel) (s t : State), exec i s = .next t → i ≠ resetOf ch →
    (s.params.nonlinear = false → ch = .dmc → ∀ data, i ≠ .wrDmc1 data) →
    channelSum ch t.acc.log - (t.base ch).lastAmp = channelSum ch s.acc.log - (s.base ch).lastAmp ∧
    ∃ new, t.acc.log = s.acc.log ++ new ∧ t.acc.sum = s.acc.sum + sumDeltas new ∧ ∀ e ∈ new, e.ch = i.channel ∧ e.delta ≠ 0

/-- Every emission of a RUN lies inside its window (R141, R142: "forwards them, with their exact sub-interval timestamps"). -/
def Obligations.EmissionsLieInTheWindow : Prop :=
  ∀ (ch : Channel) (time endTime : Nat) (s t : State), exec (runOf ch time endTime) s = .next t →
    ∃ new, t.acc.log = s.acc.log ++ new ∧ ∀ e ∈ new, e.ch = ch ∧ time ≤ e.time ∧ e.time < endTime

/-- R148: an unbound RUN advances the channel exactly as a bound one would: run with either binding, the two states differ in the binding,
`last_amp`, `trigger` and the accumulator alone; and the unbound one emits nothing, keeps `last_amp` and ends with `trigger` 0. -/
def Obligations.UnboundRunAdvancesAsBound : Prop :=
  ∀ (ch : Channel) (time endTime : Nat) (s : State), time < endTime → (ch = .dmc → s.params.memReaderPresent = true) →
    ∃ t u : State, exec (runOf ch time endTime) (s.setBase ch { s.base ch with outEn := false }) = .next t ∧
      exec (runOf ch time endTime) (s.setBase ch { s.base ch with outEn := true }) = .next u ∧
      t.acc = s.acc ∧ (t.base ch).lastAmp = (s.base ch).lastAmp ∧ (t.base ch).trigger = false ∧
      t = { u.setBase ch { u.base ch with outEn := false, lastAmp := (t.base ch).lastAmp, trigger := false } with acc := t.acc }

/-- Channels are independent (R294): a command of one channel leaves every other channel as it was. -/
def Obligations.OtherChannelsUntouched : Prop :=
  ∀ (i : Instr) (s t : State), exec i s = .next t → othersSame i.channel s t

/-- Channels are independent (R294), as non-interference: two states that agree on a command's own channel (and on the parameters and on what
the memory reader answers) agree on it afterwards, and the command emits the same deltas in both, whatever the other four channels hold. -/
def Obligations.OwnChannelAloneDecides : Prop :=
  ∀ (i : Instr) (s s' t : State), s'.params = s.params → s'.mem = s.mem → s'.memReads = s.memReads → channelSame i.channel s s' →
    exec i s = .next t →
    ∃ (t' : State) (new : List Emission), exec i s' = .next t' ∧ channelSame i.channel t t' ∧
      t.acc.log = s.acc.log ++ new ∧ t'.acc.log = s'.acc.log ++ new

/-- What a command that completes (answers a next state) does not change (R7, R44, R76): the parameters, the external memory, `faulted`, the
command port; and it never clears `cmd_fault`. A command that ends in the fatal fault sets `faulted` (R281): `OnlyMissingReaderStopsABlock`
says which and when. -/
def Obligations.ParametersMemoryAndFaultsKept : Prop :=
  ∀ (i : Instr) (s t : State), exec i s = .next t →
    t.params = s.params ∧ t.mem = s.mem ∧ t.faulted = s.faulted ∧ t.pending = s.pending ∧ (s.cmdFault = true → t.cmdFault = true)

/-- Who writes a register byte (R22): WR to it, the sweep commit into registers 2 and 3 of a square, and RESET; nothing else. -/
def Obligations.WhoWritesRegisters : Prop :=
  ∀ (i : Instr) (s t : State) (ch : Channel) (a : RegNo), exec i s = .next t →
    (t.base ch).regs.get a ≠ (s.base ch).regs.get a →
    (∃ data, i = wrOf ch a data) ∨ i = resetOf ch ∨
      (∃ (c : SqChannel) (m8 : Byte), i = .clkSwp c m8 ∧ c.toChannel = ch ∧ (a = .r2 ∨ a = .r3))

/-- Who moves a write latch (R24): only WR to that register sets it; only its consumer clears it (CLKENV for register 3 of SQ1, SQ2, NOI; CLKLIN
with bit 7 of register 0 clear for register 3 of TRI; CLKSWP for register 1 of SQ1, SQ2), and RESET. -/
def Obligations.WhoMovesLatches : Prop :=
  ∀ (i : Instr) (s t : State) (ch : Channel) (a : RegNo), exec i s = .next t →
    ((s.base ch).written.get a = false → (t.base ch).written.get a = true → ∃ data, i = wrOf ch a data) ∧
    ((s.base ch).written.get a = true → (t.base ch).written.get a = false →
      i = resetOf ch ∨ (a = .r3 ∧ ∃ c : SqChannel, i = .clkEnvSq c ∧ c.toChannel = ch) ∨ (a = .r3 ∧ ch = .noi ∧ i = .clkEnvNoi) ∨
        (a = .r3 ∧ ch = .tri ∧ i = .clkLin ∧ bit s.tri.base.regs.r0 7 = 0) ∨
        (a = .r1 ∧ ∃ (c : SqChannel) (m8 : Byte), i = .clkSwp c m8 ∧ c.toChannel = ch))

/-- Only SETOUT changes a binding: RESET and every other command keep it (R28, R311). -/
def Obligations.OnlySetOutChangesBinding : Prop :=
  ∀ (i : Instr) (s t : State) (ch : Channel), exec i s = .next t → (t.base ch).outEn ≠ (s.base ch).outEn →
    i = setOutOf ch (t.base ch).outEn

/-! ## Accumulator and external memory -/

/-- The law of the resampled time domain (R268): stepping by a resampled duration lands where converting the clock time does. -/
def Obligations.ResampledTimeLaw : Prop :=
  ∀ t n : Nat, resampledTime (t + n) = resampledTime t + resampledDuration n

/-- The ideal waveform at and after the end of everything emitted is the running sum, in total and, over the five channels, channel by
channel (R269, R265). -/
def Obligations.LevelIsRunningSum : Prop :=
  ∀ (s : State) (t : Nat), s.acc.balanced → (∀ e ∈ s.acc.log, e.time ≤ t) →
    s.acc.level t = s.acc.sum ∧ (∀ ch, s.acc.levelOf ch t = channelSum ch s.acc.log) ∧
    s.acc.sum = s.acc.levelOf .sq1 t + s.acc.levelOf .sq2 t + s.acc.levelOf .tri t + s.acc.levelOf .noi t + s.acc.levelOf .dmc t

/-- The owner's promises about the external memory (the model's form of the reader, log entry 5): a byte placed at an address of the 16-bit
space is the one looked up there and the one the reader answers there, at every read; every other address looks up and answers as before;
and the canonical form is kept. -/
def Obligations.PlacedBytesReadBack : Prop :=
  ∀ (m : Memory) (a : Nat) (v : Byte), Memory.wf m = true → a < 0x10000 →
    Memory.lookup a (Memory.place a v m) = some v ∧ (∀ b, b ≠ a → Memory.lookup b (Memory.place a v m) = Memory.lookup b m) ∧
    Memory.wf (Memory.place a v m) = true ∧
    ∀ s : State, State.readerAnswer { s with mem := Memory.place a v m } (BitVec.ofNat 16 a) = v ∧
      ∀ b : Addr, b.toNat ≠ a → State.readerAnswer { s with mem := Memory.place a v m } b = State.readerAnswer { s with mem := m } b
end

