-- ==== Sys2Proof/Laws/Accumulator.lean ====
section
/-! SUPPORT. The laws of the accumulator's sums. -/

namespace Sys2Proof.Machine

@[simp] theorem sumDeltas_append (a b : List Emission) : sumDeltas (a ++ b) = sumDeltas a + sumDeltas b := by
  induction a with
  | nil => simp [sumDeltas]
  | cons e a ih => simp [sumDeltas, ih, Int.add_assoc]

/-- A log is the five channels' logs put together (R266). -/
theorem sumDeltas_channels (l : List Emission) :
    sumDeltas l = sumDeltas (l.filter fun e => decide (e.ch = .sq1)) + sumDeltas (l.filter fun e => decide (e.ch = .sq2)) +
      sumDeltas (l.filter fun e => decide (e.ch = .tri)) + sumDeltas (l.filter fun e => decide (e.ch = .noi)) +
      sumDeltas (l.filter fun e => decide (e.ch = .dmc)) := by
  induction l with
  | nil => rfl
  | cons e l ih =>
    cases h : e.ch <;> simp [sumDeltas, h, ih] <;> omega

end Sys2Proof.Machine
end

