-- ==== Sys2Proof/Laws/Bits.lean ====
section
/-! SUPPORT. The bit fields of the model as the arithmetic of the statements (R9, R104 to R110), and the period tables looked up. -/

namespace Sys2Proof.Machine

open Sys2Proof.Claims

/-- One bit (R9). -/
theorem bit_eq {w} (v : BitVec w) (i : Nat) : bit v i = (v.getLsbD i).toNat := by
  rw [bit, BitVec.getLsbD, Nat.testBit_eq_decide_div_mod_eq]
  have := Nat.mod_two_eq_zero_or_one (v.toNat / 2 ^ i)
  rcases this with h | h <;> simp [h]

/-- A bit field (R9). -/
theorem field_eq {w} (v : BitVec w) (hi lo : Nat) : field v hi lo = (v.extractLsb' lo (hi+1-lo)).toNat := by
  simp [field, BitVec.extractLsb'_toNat, Nat.shiftRight_eq_div_pow]

/-- `Period(ch)` (R108). -/
theorem period_eq (r : Regs) : Claims.period r = r.period := by
  simp [Claims.period, Regs.period, field_eq, byteField]; omega

/-- The prediction of R222 in the words of the statements. -/
theorem predictIrq_eq (c : Dmc) : predictIrq c = if c.irqEnabled = true ∧ 0 < c.base.lengthCounter then some
    (predictedIrq c) else none := rfl

theorem sweepNegate_bit (r : Byte) : sweepNegate r = true ↔ bit r 3 = 1 := by simp [bit_eq, sweepNegate]

theorem sweepShift_field (r : Byte) : sweepShift r = field r 2 0 := by rw [field_eq]; rfl

/-- `DMC_PERIOD[pal][data[3:0]]` is an entry of its row (R218). -/
theorem dmcPeriodRow_rate (pal : Bool) (data : Byte) :
    (dmcPeriodRow pal)[field data 3 0]? = some (dmcPeriod pal (dmcRateIndex data)) := by
  have h : ∀ i : BitVec 4, (dmcPeriodRow pal)[i.toNat]? = some (dmcPeriod pal i.toNat) := by cases pal <;> decide
  rw [field_eq]
  exact h _

/-- `NOISE_PERIOD[pal][reg[NOI][2][3:0]]` is an entry of its row (R252). -/
theorem noisePeriodRow_index (pal : Bool) (r : Regs) : (noisePeriodRow pal)[field r.r2 3 0]? = some (r.noiseTimer pal) := by
  have h : ∀ i : BitVec 4, (noisePeriodRow pal)[i.toNat]? = some (noisePeriod pal i.toNat) := by cases pal <;> decide
  rw [field_eq]
  exact h _

/-- The timer periods of the noise channel are positive and fit twelve bits and a half (R26, R252). -/
theorem noiseTimer_range (pal : Bool) (r : Regs) : 1 ≤ r.noiseTimer pal ∧ r.noiseTimer pal ≤ 4096 := by
  have h : ∀ i : BitVec 4, 1 ≤ noisePeriod pal i.toNat ∧ noisePeriod pal i.toNat ≤ 4096 := by cases pal <;> decide
  exact h _

/-- `irq_enabled` after a write of `data` to register 0 (R216). -/
theorem dmcIrqEnable_iff (data : Byte) : dmcIrqEnable data = true ↔ bit data 7 = 1 ∧ bit data 6 = 0 := by
  simp [bit_eq, dmcIrqEnable, dmcIrqEn, dmcLoop]

/-- The loop bit of DMC register 0 (R107). -/
theorem dmcLoop_iff (data : Byte) : (dmcLoop data = true ↔ bit data 6 = 1) ∧ (dmcLoop data = false ↔ bit data 6 = 0) := by
  simp [dmcLoop, bit_eq]

/-- The 11-bit period (R108). -/
theorem period_lt (r : Regs) : Claims.period r < 2048 := by
  unfold Claims.period field
  have := r.r2.isLt
  have := Nat.mod_lt (r.r3.toNat / 2^0) (show 2^(2+1-0) > 0 by norm_num)
  omega

theorem Regs.get_set (r : Regs) (a a' : RegNo) (d : Byte) : (r.set a d).get a' = if a' = a then d else r.get a' := by
  cases a <;> cases a' <;> rfl

theorem Latches.get_set (r : Latches) (a a' : RegNo) (d : Bool) : (r.set a d).get a' = if a' = a then d else r.get a' := by
  cases a <;> cases a' <;> rfl

end Sys2Proof.Machine
end

