-- ==== Sys2Proof/Laws/Decode.lean ====
section
/-! SUPPORT. The spec lemmas of the decoder's and the encoder's parts: the fields of a word as numbers, the fields of a packed
word, the numbers of operations, channels and registers read back, the immediates read back. -/

namespace Sys2Proof

/-- Concatenation as a number (R9). -/
theorem append_toNat {m n : Nat} (x : BitVec m) (y : BitVec n) : (x ++ y).toNat = x.toNat * 2 ^ n + y.toNat := by
  rw [BitVec.toNat_append, ← Nat.shiftLeft_add_eq_or_of_lt y.isLt, Nat.shiftLeft_eq]

/-! ### The fields of a word as numbers -/

theorem opField_toNat (w : CmdWord) : (opField w).toNat = w.toNat / 2 ^ 28 % 2 ^ 4 := by
  simp [opField, BitVec.extractLsb'_toNat, Nat.shiftRight_eq_div_pow]

theorem chField_toNat (w : CmdWord) : (chField w).toNat = w.toNat / 2 ^ 25 % 2 ^ 3 := by
  simp [chField, BitVec.extractLsb'_toNat, Nat.shiftRight_eq_div_pow]

theorem zField_toNat (w : CmdWord) : (zField w).toNat = w.toNat / 2 ^ 16 % 2 ^ 9 := by
  simp [zField, BitVec.extractLsb'_toNat, Nat.shiftRight_eq_div_pow]

theorem immField_toNat (w : CmdWord) : (immField w).toNat = w.toNat % 2 ^ 16 := by
  simp [immField, BitVec.extractLsb'_toNat]

theorem packWord_toNat (op : BitVec 4) (ch : BitVec 3) (z : BitVec 9) (imm : BitVec 16) :
    (packWord op ch z imm).toNat = ((op.toNat * 8 + ch.toNat) * 512 + z.toNat) * 65536 + imm.toNat := by
  show (((op ++ ch) ++ z) ++ imm).toNat = _
  rw [append_toNat, append_toNat, append_toNat]; norm_num

/-! ### The fields of a packed word -/

theorem opField_packWord (op : BitVec 4) (ch : BitVec 3) (z : BitVec 9) (imm : BitVec 16) :
    opField (packWord op ch z imm) = op := by
  apply BitVec.eq_of_toNat_eq
  rw [opField_toNat, packWord_toNat]
  have := op.isLt; have := ch.isLt; have := z.isLt; have := imm.isLt
  omega

theorem chField_packWord (op : BitVec 4) (ch : BitVec 3) (z : BitVec 9) (imm : BitVec 16) :
    chField (packWord op ch z imm) = ch := by
  apply BitVec.eq_of_toNat_eq
  rw [chField_toNat, packWord_toNat]
  have := op.isLt; have := ch.isLt; have := z.isLt; have := imm.isLt
  omega

theorem zField_packWord (op : BitVec 4) (ch : BitVec 3) (z : BitVec 9) (imm : BitVec 16) :
    zField (packWord op ch z imm) = z := by
  apply BitVec.eq_of_toNat_eq
  rw [zField_toNat, packWord_toNat]
  have := op.isLt; have := ch.isLt; have := z.isLt; have := imm.isLt
  omega

theorem immField_packWord (op : BitVec 4) (ch : BitVec 3) (z : BitVec 9) (imm : BitVec 16) :
    immField (packWord op ch z imm) = imm := by
  apply BitVec.eq_of_toNat_eq
  rw [immField_toNat, packWord_toNat]
  have := imm.isLt
  omega

/-- A word is the packing of its fields. -/
theorem packWord_fields (w : CmdWord) : packWord (opField w) (chField w) (zField w) (immField w) = w := by
  apply BitVec.eq_of_toNat_eq
  rw [packWord_toNat, opField_toNat, chField_toNat, zField_toNat, immField_toNat]
  have := w.isLt
  omega

/-! ### Numbers read back -/

theorem Op.ofCode_code (op : Op) : Op.ofCode op.code = some op := by cases op <;> rfl

theorem Op.code_of_ofCode : ∀ (b : BitVec 4) (op : Op), Op.ofCode b = some op → op.code = b := by decide

theorem Channel.ofCode_code (ch : Channel) : Channel.ofCode ch.code = some ch := by cases ch <;> rfl

theorem Channel.code_of_ofCode : ∀ (b : BitVec 3) (ch : Channel), Channel.ofCode b = some ch → ch.code = b := by decide

theorem RegNo.ofCode_code (a : RegNo) : RegNo.ofCode a.code = a := by cases a <;> rfl

theorem RegNo.code_ofCode : ∀ b : BitVec 2, (RegNo.ofCode b).code = b := by decide

/-! ### Immediates read back -/

theorem immAddr_immW (addr : RegNo) (data : Byte) : immAddr (immW addr data) = addr := by
  have h : (immW addr data).extractLsb' 8 2 = addr.code := by revert data; cases addr <;> decide
  rw [immAddr, h, RegNo.ofCode_code]

theorem immByte_immW (addr : RegNo) (data : Byte) : immByte (immW addr data) = data := by
  revert data; cases addr <;> decide

theorem immByte_immM : ∀ m8 : Byte, immByte (immM m8) = m8 := by decide

theorem immEn_immE (en : Bool) : immEn (immE en) = en := by cases en <;> rfl

theorem spare_immW (addr : RegNo) (data : Byte) : immW addr data &&& Op.wr.spareImm = 0#16 := by
  revert data; cases addr <;> decide

theorem spare_immM : ∀ m8 : Byte, immM m8 &&& 0xFF00#16 = 0#16 := by decide

theorem spare_immE (en : Bool) : immE en &&& Op.setOut.spareImm = 0#16 := by cases en <;> rfl

/-- The spare bits of an immediate are clear exactly when it is below the bound of its format (R103). -/
theorem spareImm_eq_zero_iff (op : Op) (imm : BitVec 16) :
    imm &&& op.spareImm = 0#16 ↔
      imm.toNat < (match op with
        | .wr => 1024
        | .clkLen => 256
        | .clkSwp => 256
        | .setOut => 2
        | .setLen => 65536
        | _ => 1) := by
  have key : ∀ (k m : Nat), k + m = 16 →
      (imm &&& BitVec.ofNat 16 ((2 ^ m - 1) * 2 ^ k) = 0#16 ↔ imm.toNat < 2 ^ k) := by
    intro k m hkm
    have hlt : (2 ^ m - 1) * 2 ^ k < 2 ^ 16 := by
      rw [Nat.sub_mul, ← pow_add, Nat.add_comm m k, hkm, Nat.one_mul]
      exact Nat.sub_lt (by norm_num) (Nat.two_pow_pos k)
    rw [← BitVec.toNat_inj, BitVec.toNat_and, BitVec.toNat_ofNat, Nat.mod_eq_of_lt hlt, BitVec.toNat_ofNat, Nat.zero_mod]
    have hx : imm.toNat < 2 ^ k * 2 ^ m := by rw [← pow_add, hkm]; exact imm.isLt
    have hdiv : imm.toNat / 2 ^ k < 2 ^ m := Nat.div_lt_of_lt_mul hx
    have split : imm.toNat &&& (2 ^ m - 1) * 2 ^ k = imm.toNat / 2 ^ k * 2 ^ k := by
      rw [← Nat.shiftLeft_eq, ← Nat.shiftLeft_eq, ← Nat.shiftRight_eq_div_pow]
      apply Nat.eq_of_testBit_eq
      intro i
      simp only [Nat.testBit_and, Nat.testBit_shiftLeft, Nat.testBit_two_pow_sub_one, Nat.testBit_shiftRight]
      by_cases hi : k ≤ i
      · by_cases hj : i - k < m
        · simp [hi, hj]
        · have : imm.toNat.testBit i = false := by
            apply Nat.testBit_lt_two_pow
            exact lt_of_lt_of_le imm.isLt (Nat.pow_le_pow_right (by norm_num) (by omega))
          simp [hi, this]
      · simp [hi]
    rw [split]
    have hpos := Nat.two_pow_pos k
    constructor
    · intro h
      rcases Nat.mul_eq_zero.mp h with h | h
      · exact (Nat.div_eq_zero_iff.mp h).resolve_left (by omega)
      · omega
    · intro h
      rw [Nat.div_eq_of_lt h, Nat.zero_mul]
  have hlt := imm.isLt
  cases op
  case wr => simpa [Op.spareImm] using key 10 6 rfl
  case clkLen => simpa [Op.spareImm] using key 8 8 rfl
  case clkSwp => simpa [Op.spareImm] using key 8 8 rfl
  case setOut => simpa [Op.spareImm] using key 1 15 rfl
  case setLen => simpa [Op.spareImm] using hlt
  all_goals simpa [Op.spareImm] using key 0 16 rfl

/-- An immediate of format W is put together from its fields (R103). -/
theorem immW_of_spare {imm : BitVec 16} (h : imm &&& Op.wr.spareImm = 0#16) : immW (immAddr imm) (immByte imm) = imm := by
  rw [spareImm_eq_zero_iff] at h
  apply BitVec.eq_of_toNat_eq
  show (((0#6 ++ (immAddr imm).code) : BitVec 8) ++ immByte imm : BitVec 16).toNat = _
  rw [immAddr, RegNo.code_ofCode, append_toNat, append_toNat, immByte, BitVec.extractLsb'_toNat, BitVec.extractLsb'_toNat]
  simp [Nat.shiftRight_eq_div_pow]
  simp at h
  omega

/-- An immediate of format M is its byte (R103). -/
theorem immM_of_spare {imm : BitVec 16} (h : imm &&& 0xFF00#16 = 0#16) : immM (immByte imm) = imm := by
  have h := (spareImm_eq_zero_iff .clkLen imm).mp h
  apply BitVec.eq_of_toNat_eq
  show (0#8 ++ immByte imm : BitVec 16).toNat = _
  rw [append_toNat, immByte, BitVec.extractLsb'_toNat]
  simp at h ⊢
  omega

/-- An immediate of format E is its bit (R103). -/
theorem immE_of_spare {imm : BitVec 16} (h : imm &&& Op.setOut.spareImm = 0#16) : immE (immEn imm) = imm := by
  have h := (spareImm_eq_zero_iff .setOut imm).mp h
  apply BitVec.eq_of_toNat_eq
  have h : imm.toNat = 0 ∨ imm.toNat = 1 := by simp at h; omega
  rcases h with h | h <;> simp [immE, immEn, BitVec.getLsbD, h]

/-- An immediate without fields is 0 (R103). -/
theorem imm_eq_zero {imm : BitVec 16} (h : imm &&& 0xFFFF#16 = 0#16) : imm = 0#16 := by
  have h := (spareImm_eq_zero_iff .reset imm).mp h
  apply BitVec.eq_of_toNat_eq
  simp at h ⊢
  omega

/-! ### The decoder on a packed word -/

/-- A packed word without spare bits decodes to what `buildInstr` answers. -/
theorem decode_packWord (op : Op) (ch : Channel) (imm : BitVec 16) (t0 t1 : Nat) (spare : imm &&& op.spareImm = 0#16) :
    decode ⟨packWord op.code ch.code 0#9 imm, t0, t1⟩ = buildInstr op ch imm t0 t1 := by
  simp [decode, opField_packWord, chField_packWord, zField_packWord, immField_packWord, Op.ofCode_code, Channel.ofCode_code,
    spare]

/-- An accepted word is the packing of an operation, a channel and an immediate without spare bits. -/
theorem decode_ok {c : Command} {i : Instr} (h : decode c = .ok i) :
    ∃ (op : Op) (ch : Channel), c.word = packWord op.code ch.code 0#9 (immField c.word) ∧
      immField c.word &&& op.spareImm = 0#16 ∧ buildInstr op ch (immField c.word) c.t0 c.t1 = .ok i := by
  unfold decode at h
  split at h
  · cases h
  · rename_i op hop
    split at h
    · cases h
    · rename_i ch hch
      split at h
      · cases h
      · rename_i hz
        split at h
        · cases h
        · rename_i hs
          refine ⟨op, ch, ?_, not_not.mp hs, h⟩
          rw [Op.code_of_ofCode _ _ hop, Channel.code_of_ofCode _ _ hch, ← not_not.mp hz, packWord_fields]

end Sys2Proof
end

