-- ==== Sys2Proof/Laws/Admission.lean ====
section
/-! SUPPORT. The decoder read from the words (R111), the step of an accepted and of a rejected command (R283), and the frame of RUN (R141). -/

namespace Sys2Proof.Machine

open Sys2Proof.Claims

/-- An accepted command runs. -/
theorem step_of_decode_ok {s : State} {c : Command} {rest : List Command} {i : Instr} (hf : s.faulted = false) (hp : s.pending =
    c :: rest)
    (h : decode c = .ok i) : step s = exec i { s with pending := rest } := by
  simp [step, hp, admission, hf, h]

/-- A rejected command sets the fault bit. -/
theorem step_of_decode_error {s : State} {c : Command} {rest : List Command} {e : Illegal} (hf : s.faulted = false) (hp :
    s.pending = c :: rest)
    (h : decode c = .error e) : step s = .next { s with pending := rest, cmdFault := true } := by
  simp [step, hp, admission, hf, h, raiseCmdFault]

/-- What the decoder builds is well formed and encodes back. -/
theorem buildInstr_ok {op ch imm t0 t1 i} (hs : imm &&& Op.spareImm op = 0#16) (h : buildInstr op ch imm t0 t1 = .ok i) :
    WellFormed i ∧ (encode i).word = packWord op.code ch.code 0#9 imm ∧ buildInstr op ch imm t0 t1 = .ok i := by
  refine ⟨?_, ?_, h⟩
  · cases op <;> cases ch <;> simp [buildInstr, Channel.plain?, Channel.square?] at h <;> try (subst h; rfl)
    · split at h <;> cases h <;> rfl
    · split at h
      · rename_i h1; cases h; simpa [WellFormed, Instr.wellFormed] using h1
      · cases h
    · split at h
      · rename_i h1; cases h; simpa [WellFormed, Instr.wellFormed] using h1
      · cases h
  · cases op
    case wr =>
      have hW := immW_of_spare hs
      cases ch <;> simp [buildInstr, Channel.plain?] at h <;> try (subst h; simp [encode, encodeWord, PlainChannel.toChannel, hW])
      split at h <;> rename_i ha <;> cases h <;> rw [ha] at hW <;> simp [encode, encodeWord, hW]
    case setLen =>
      cases ch <;> simp [buildInstr, Channel.plain?] at h <;> subst h <;> rfl
    case setOut =>
      have hW := immE_of_spare hs
      cases ch <;> simp [buildInstr, Channel.plain?] at h <;> subst h <;>  simp [encode, encodeWord, PlainChannel.toChannel, hW]
    case clkLen =>
      have hW := immM_of_spare hs
      cases ch <;> simp [buildInstr, Channel.plain?] at h <;> subst h <;>  simp [encode, encodeWord, PlainChannel.toChannel, hW]
    case clkSwp =>
      have hW := immM_of_spare hs
      cases ch <;> simp [buildInstr, Channel.square?] at h <;> (split at h <;> cases h; simp [encode, encodeWord,
          SqChannel.toChannel, hW])
    all_goals
      have h0 := imm_eq_zero hs
      subst h0
      cases ch <;> simp [buildInstr, Channel.plain?] at h <;> subst h <;> rfl

/-- The words R111 lists are those the decoder rejects. -/
theorem illegalWord_iff (c : Command) : illegalWord c.word ↔ ∃ e, decode c = .error e := by
  have e1 : field c.word 31 28 = (opField c.word).toNat := by rw [opField_toNat]; rfl
  have e2 : field c.word 27 25 = (chField c.word).toNat := by rw [chField_toNat]; rfl
  have e3 : field c.word 24 16 = (zField c.word).toNat := by rw [zField_toNat]; rfl
  have e4 : field c.word 15 0 = (immField c.word).toNat := by rw [immField_toNat]; simp [field]
  have e5 : field c.word 7 0 = (immByte (immField c.word)).toNat := by
    simp [immByte, BitVec.extractLsb'_toNat, immField_toNat, field]
  unfold illegalWord decode
  rw [e1, e2, e3, e4, e5]
  generalize opField c.word = ob
  generalize chField c.word = cb
  generalize zField c.word = z
  generalize immField c.word = imm
  cases hop : Op.ofCode ob with
  | none =>
    have : 13 ≤ ob.toNat := by revert ob; decide
    simp [this]
  | some op =>
    cases hch : Channel.ofCode cb with
    | none =>
      have : 5 ≤ cb.toNat := by revert cb; decide
      simp [this]
    | some ch =>
      by_cases hz : z = 0#9
      · subst hz
        have hs := spareImm_eq_zero_iff op imm
        have hob := Op.code_of_ofCode _ _ hop
        have hcb := Channel.code_of_ofCode _ _ hch
        subst hob hcb
        have hi := imm.isLt
        by_cases hz : imm &&& op.spareImm = 0#16
        · have hlt := hs.mp hz
          have hb : (immByte imm).toNat = imm.toNat % 256 := by
              simp [immByte, BitVec.extractLsb'_toNat]
          cases op <;> cases ch <;> simp [Op.code, Channel.code, channelAllowed, spareBitSet, hz, buildInstr, Channel.plain?,
              Channel.square?] at hlt ⊢ <;> try omega
          · split <;> simp <;> omega
          all_goals
            split
            · simp; rename_i h; rcases h with h | h <;> simp [h] <;> omega
            · rename_i h
              rw [not_or, ← BitVec.toNat_inj, ← BitVec.toNat_inj] at h
              simp at h ⊢; omega
        · have hlt := mt hs.mpr hz
          simp only [ne_eq, hz, not_true_eq_false, not_false_eq_true, if_true, if_false]
          clear hs hz
          cases op <;> cases ch <;> simp [Op.code, Channel.code, channelAllowed, spareBitSet] at hlt ⊢ <;> omega
      · have : z.toNat ≠ 0 := fun h => hz (BitVec.eq_of_toNat_eq (by simpa using h))
        simp [hz, this]

/-- A channel outside the channels column (R102). -/
theorem rejectedOn_of_not_allowed {op ch : Nat} (h : ¬channelAllowed op ch) : rejectedOn op ch := by
  intro c ho hc
  apply (illegalWord_iff c).mp
  right; right; left
  rw [ho, hc]; exact h

/-- A reversed window (R141). -/
theorem exec_runOf_reversed {ch : Channel} {time endTime : Nat} {s : State} (h : endTime < time) :
    exec (runOf ch time endTime) s = .next { s with cmdFault := true } := by
  cases ch <;> simp [runOf, exec, execRunSq, execRunTri, execRunNoi, execRunDmc, runWindow, h, raiseCmdFault]

/-- An empty window (R141). -/
theorem exec_runOf_empty {ch : Channel} {time : Nat} {s : State} :
    exec (runOf ch time time) s = .next s := by
  cases ch <;> simp [runOf, exec, execRunSq, execRunTri, execRunNoi, execRunDmc, runWindow]

theorem window_cases (time endTime : Nat) : endTime < time ∨ time = endTime ∨ time < endTime := by omega

theorem runOf_cases (i : Instr) : (∃ ch a b, i = runOf ch a b) ∨ (∀ ch a b, i ≠ runOf ch a b) := by
  by_cases h : ∃ ch a b, i = runOf ch a b
  · exact .inl h
  · right; intro ch a b he; exact h ⟨ch, a, b, he⟩

theorem runOf_channel (ch a b) : (runOf ch a b).channel = ch := by cases ch <;> rfl

/-- A legal word of operation 2 is a RUN with the two time operands (R102, R103). -/
theorem decode_runOf {c : Command} {i : Instr} (h : decode c = .ok i) (hop : field c.word 31 28 = 2) : ∃ ch, i =
    runOf ch c.t0 c.t1 := by
  obtain ⟨op, ch, hw, hs, hb⟩ := decode_ok h
  have e1 : field c.word 31 28 = op.code.toNat := by
    rw [hw]; show _ / 2^28 % 2^4 = _; rw [← opField_toNat, opField_packWord]
  rw [e1] at hop
  cases op <;> simp [Op.code] at hop
  refine ⟨ch, ?_⟩
  cases ch <;> simp [buildInstr] at hb <;> subst hb <;> rfl

end Sys2Proof.Machine
end

