-- ==== Sys2Proof/Laws/State.lean ====
section
/-! SUPPORT. One lemma per field per update of the state, so that no later proof unfolds a record update. -/

namespace Sys2Proof.Machine

variable (s : State)

/-! ### setTri -/

@[simp] theorem State.setTri_params (c : Triangle) : (s.setTri c).params = s.params := rfl

@[simp] theorem State.setTri_sq1 (c : Triangle) : (s.setTri c).sq1 = s.sq1 := rfl

@[simp] theorem State.setTri_sq2 (c : Triangle) : (s.setTri c).sq2 = s.sq2 := rfl

@[simp] theorem State.setTri_tri (c : Triangle) : (s.setTri c).tri = c := rfl

@[simp] theorem State.setTri_noi (c : Triangle) : (s.setTri c).noi = s.noi := rfl

@[simp] theorem State.setTri_dmc (c : Triangle) : (s.setTri c).dmc = s.dmc := rfl

@[simp] theorem State.setTri_acc (c : Triangle) : (s.setTri c).acc = s.acc := rfl

@[simp] theorem State.setTri_faulted (c : Triangle) : (s.setTri c).faulted = s.faulted := rfl

@[simp] theorem State.setTri_cmdFault (c : Triangle) : (s.setTri c).cmdFault = s.cmdFault := rfl

@[simp] theorem State.setTri_respCount (c : Triangle) : (s.setTri c).respCount = s.respCount := rfl

@[simp] theorem State.setTri_notifications (c : Triangle) : (s.setTri c).notifications = s.notifications := rfl

@[simp] theorem State.setTri_memReads (c : Triangle) : (s.setTri c).memReads = s.memReads := rfl

@[simp] theorem State.setTri_mem (c : Triangle) : (s.setTri c).mem = s.mem := rfl

@[simp] theorem State.setTri_pending (c : Triangle) : (s.setTri c).pending = s.pending := rfl

/-! ### setNoi -/

@[simp] theorem State.setNoi_params (c : Noise) : (s.setNoi c).params = s.params := rfl

@[simp] theorem State.setNoi_sq1 (c : Noise) : (s.setNoi c).sq1 = s.sq1 := rfl

@[simp] theorem State.setNoi_sq2 (c : Noise) : (s.setNoi c).sq2 = s.sq2 := rfl

@[simp] theorem State.setNoi_tri (c : Noise) : (s.setNoi c).tri = s.tri := rfl

@[simp] theorem State.setNoi_noi (c : Noise) : (s.setNoi c).noi = c := rfl

@[simp] theorem State.setNoi_dmc (c : Noise) : (s.setNoi c).dmc = s.dmc := rfl

@[simp] theorem State.setNoi_acc (c : Noise) : (s.setNoi c).acc = s.acc := rfl

@[simp] theorem State.setNoi_faulted (c : Noise) : (s.setNoi c).faulted = s.faulted := rfl

@[simp] theorem State.setNoi_cmdFault (c : Noise) : (s.setNoi c).cmdFault = s.cmdFault := rfl

@[simp] theorem State.setNoi_respCount (c : Noise) : (s.setNoi c).respCount = s.respCount := rfl

@[simp] theorem State.setNoi_notifications (c : Noise) : (s.setNoi c).notifications = s.notifications := rfl

@[simp] theorem State.setNoi_memReads (c : Noise) : (s.setNoi c).memReads = s.memReads := rfl

@[simp] theorem State.setNoi_mem (c : Noise) : (s.setNoi c).mem = s.mem := rfl

@[simp] theorem State.setNoi_pending (c : Noise) : (s.setNoi c).pending = s.pending := rfl

/-! ### setDmc -/

@[simp] theorem State.setDmc_params (c : Dmc) : (s.setDmc c).params = s.params := rfl

@[simp] theorem State.setDmc_sq1 (c : Dmc) : (s.setDmc c).sq1 = s.sq1 := rfl

@[simp] theorem State.setDmc_sq2 (c : Dmc) : (s.setDmc c).sq2 = s.sq2 := rfl

@[simp] theorem State.setDmc_tri (c : Dmc) : (s.setDmc c).tri = s.tri := rfl

@[simp] theorem State.setDmc_noi (c : Dmc) : (s.setDmc c).noi = s.noi := rfl

@[simp] theorem State.setDmc_dmc (c : Dmc) : (s.setDmc c).dmc = c := rfl

@[simp] theorem State.setDmc_acc (c : Dmc) : (s.setDmc c).acc = s.acc := rfl

@[simp] theorem State.setDmc_faulted (c : Dmc) : (s.setDmc c).faulted = s.faulted := rfl

@[simp] theorem State.setDmc_cmdFault (c : Dmc) : (s.setDmc c).cmdFault = s.cmdFault := rfl

@[simp] theorem State.setDmc_respCount (c : Dmc) : (s.setDmc c).respCount = s.respCount := rfl

@[simp] theorem State.setDmc_notifications (c : Dmc) : (s.setDmc c).notifications = s.notifications := rfl

@[simp] theorem State.setDmc_memReads (c : Dmc) : (s.setDmc c).memReads = s.memReads := rfl

@[simp] theorem State.setDmc_mem (c : Dmc) : (s.setDmc c).mem = s.mem := rfl

@[simp] theorem State.setDmc_pending (c : Dmc) : (s.setDmc c).pending = s.pending := rfl

/-! ### setAcc -/

@[simp] theorem State.setAcc_params (a : Accum) : (s.setAcc a).params = s.params := rfl

@[simp] theorem State.setAcc_sq1 (a : Accum) : (s.setAcc a).sq1 = s.sq1 := rfl

@[simp] theorem State.setAcc_sq2 (a : Accum) : (s.setAcc a).sq2 = s.sq2 := rfl

@[simp] theorem State.setAcc_tri (a : Accum) : (s.setAcc a).tri = s.tri := rfl

@[simp] theorem State.setAcc_noi (a : Accum) : (s.setAcc a).noi = s.noi := rfl

@[simp] theorem State.setAcc_dmc (a : Accum) : (s.setAcc a).dmc = s.dmc := rfl

@[simp] theorem State.setAcc_acc (a : Accum) : (s.setAcc a).acc = a := rfl

@[simp] theorem State.setAcc_faulted (a : Accum) : (s.setAcc a).faulted = s.faulted := rfl

@[simp] theorem State.setAcc_cmdFault (a : Accum) : (s.setAcc a).cmdFault = s.cmdFault := rfl

@[simp] theorem State.setAcc_respCount (a : Accum) : (s.setAcc a).respCount = s.respCount := rfl

@[simp] theorem State.setAcc_notifications (a : Accum) : (s.setAcc a).notifications = s.notifications := rfl

@[simp] theorem State.setAcc_memReads (a : Accum) : (s.setAcc a).memReads = s.memReads := rfl

@[simp] theorem State.setAcc_mem (a : Accum) : (s.setAcc a).mem = s.mem := rfl

@[simp] theorem State.setAcc_pending (a : Accum) : (s.setAcc a).pending = s.pending := rfl

/-! ### notify -/

@[simp] theorem State.notify_params (n : Notification) : (s.notify n).params = s.params := rfl

@[simp] theorem State.notify_sq1 (n : Notification) : (s.notify n).sq1 = s.sq1 := rfl

@[simp] theorem State.notify_sq2 (n : Notification) : (s.notify n).sq2 = s.sq2 := rfl

@[simp] theorem State.notify_tri (n : Notification) : (s.notify n).tri = s.tri := rfl

@[simp] theorem State.notify_noi (n : Notification) : (s.notify n).noi = s.noi := rfl

@[simp] theorem State.notify_dmc (n : Notification) : (s.notify n).dmc = s.dmc := rfl

@[simp] theorem State.notify_acc (n : Notification) : (s.notify n).acc = s.acc := rfl

@[simp] theorem State.notify_faulted (n : Notification) : (s.notify n).faulted = s.faulted := rfl

@[simp] theorem State.notify_cmdFault (n : Notification) : (s.notify n).cmdFault = s.cmdFault := rfl

@[simp] theorem State.notify_respCount (n : Notification) : (s.notify n).respCount = s.respCount := rfl

@[simp] theorem State.notify_notifications (n : Notification) : (s.notify n).notifications = s.notifications ++ [n] := rfl

@[simp] theorem State.notify_memReads (n : Notification) : (s.notify n).memReads = s.memReads := rfl

@[simp] theorem State.notify_mem (n : Notification) : (s.notify n).mem = s.mem := rfl

@[simp] theorem State.notify_pending (n : Notification) : (s.notify n).pending = s.pending := rfl

/-! ### setSquare -/

@[simp] theorem State.setSquare_params (ch : SqChannel) (c : Square) : (s.setSquare ch c).params = s.params := by
  cases ch <;> rfl

@[simp] theorem State.setSquare_tri (ch : SqChannel) (c : Square) : (s.setSquare ch c).tri = s.tri := by
  cases ch <;> rfl

@[simp] theorem State.setSquare_noi (ch : SqChannel) (c : Square) : (s.setSquare ch c).noi = s.noi := by
  cases ch <;> rfl

@[simp] theorem State.setSquare_dmc (ch : SqChannel) (c : Square) : (s.setSquare ch c).dmc = s.dmc := by
  cases ch <;> rfl

@[simp] theorem State.setSquare_acc (ch : SqChannel) (c : Square) : (s.setSquare ch c).acc = s.acc := by
  cases ch <;> rfl

@[simp] theorem State.setSquare_faulted (ch : SqChannel) (c : Square) : (s.setSquare ch c).faulted = s.faulted := by
  cases ch <;> rfl

@[simp] theorem State.setSquare_cmdFault (ch : SqChannel) (c : Square) : (s.setSquare ch c).cmdFault = s.cmdFault := by
  cases ch <;> rfl

@[simp] theorem State.setSquare_respCount (ch : SqChannel) (c : Square) : (s.setSquare ch c).respCount = s.respCount := by
  cases ch <;> rfl

@[simp] theorem State.setSquare_notifications (ch : SqChannel) (c : Square) : (s.setSquare ch
    c).notifications = s.notifications := by
  cases ch <;> rfl

@[simp] theorem State.setSquare_memReads (ch : SqChannel) (c : Square) : (s.setSquare ch c).memReads = s.memReads := by
  cases ch <;> rfl

@[simp] theorem State.setSquare_mem (ch : SqChannel) (c : Square) : (s.setSquare ch c).mem = s.mem := by
  cases ch <;> rfl

@[simp] theorem State.setSquare_pending (ch : SqChannel) (c : Square) : (s.setSquare ch c).pending = s.pending := by
  cases ch <;> rfl

@[simp] theorem State.square_setSquare (ch : SqChannel) (c : Square) : (s.setSquare ch c).square ch = c := by
  cases ch <;> rfl

@[simp] theorem State.setSquare_square (ch : SqChannel) : s.setSquare ch (s.square ch) = s := by
  cases ch <;> rfl

@[simp] theorem State.setSquare_setSquare (ch : SqChannel) (c d : Square) :
    (s.setSquare ch c).setSquare ch d = s.setSquare ch d := by
  cases ch <;> rfl

theorem State.square_setSquare_ne (ch ch' : SqChannel) (c : Square) (h : ch' ≠ ch) :
    (s.setSquare ch c).square ch' = s.square ch' := by
  cases ch <;> cases ch' <;> first | rfl | exact absurd rfl h

/-! ### Single-channel updates, twice -/

@[simp] theorem State.setDmc_setDmc (c d : Dmc) : (s.setDmc c).setDmc d = s.setDmc d := rfl

@[simp] theorem State.setDmc_dmc_self : s.setDmc s.dmc = s := rfl

@[simp] theorem State.setTri_tri_self : s.setTri s.tri = s := rfl

@[simp] theorem State.setNoi_noi_self : s.setNoi s.noi = s := rfl

@[simp] theorem State.setAcc_acc_self : s.setAcc s.acc = s := rfl

/-! ### setBase -/

@[simp] theorem State.setBase_params (ch : Channel) (b : Base) : (s.setBase ch b).params = s.params := by
  cases ch <;> rfl

@[simp] theorem State.setBase_acc (ch : Channel) (b : Base) : (s.setBase ch b).acc = s.acc := by
  cases ch <;> rfl

@[simp] theorem State.setBase_faulted (ch : Channel) (b : Base) : (s.setBase ch b).faulted = s.faulted := by
  cases ch <;> rfl

@[simp] theorem State.setBase_cmdFault (ch : Channel) (b : Base) : (s.setBase ch b).cmdFault = s.cmdFault := by
  cases ch <;> rfl

@[simp] theorem State.setBase_respCount (ch : Channel) (b : Base) : (s.setBase ch b).respCount = s.respCount := by
  cases ch <;> rfl

@[simp] theorem State.setBase_notifications (ch : Channel) (b : Base) : (s.setBase ch b).notifications = s.notifications := by
  cases ch <;> rfl

@[simp] theorem State.setBase_memReads (ch : Channel) (b : Base) : (s.setBase ch b).memReads = s.memReads := by
  cases ch <;> rfl

@[simp] theorem State.setBase_mem (ch : Channel) (b : Base) : (s.setBase ch b).mem = s.mem := by
  cases ch <;> rfl

@[simp] theorem State.setBase_pending (ch : Channel) (b : Base) : (s.setBase ch b).pending = s.pending := by
  cases ch <;> rfl

@[simp] theorem State.base_setBase (ch : Channel) (b : Base) : (s.setBase ch b).base ch = b := by
  cases ch <;> rfl

@[simp] theorem State.setBase_base (ch : Channel) : s.setBase ch (s.base ch) = s := by
  cases ch <;> rfl

@[simp] theorem State.setBase_setBase (ch : Channel) (b d : Base) :
    (s.setBase ch b).setBase ch d = s.setBase ch d := by
  cases ch <;> rfl

theorem State.base_setBase_ne (ch ch' : Channel) (b : Base) (h : ch' ≠ ch) :
    (s.setBase ch b).base ch' = s.base ch' := by
  cases ch <;> cases ch' <;> first | rfl | exact absurd rfl h

@[simp] theorem State.base_toChannel_sq (ch : SqChannel) : s.base ch.toChannel = (s.square ch).base := by
  cases ch <;> rfl

@[simp] theorem State.setBase_toChannel_sq (ch : SqChannel) (b : Base) :
    s.setBase ch.toChannel b = s.setSquare ch { s.square ch with base := b } := by
  cases ch <;> rfl

@[simp] theorem State.base_tri : s.base .tri = s.tri.base := rfl

@[simp] theorem State.base_noi : s.base .noi = s.noi.base := rfl

@[simp] theorem State.base_dmc : s.base .dmc = s.dmc.base := rfl

@[simp] theorem State.setBase_tri (b : Base) : s.setBase .tri b = s.setTri { s.tri with base := b } := rfl

@[simp] theorem State.setBase_noi (b : Base) : s.setBase .noi b = s.setNoi { s.noi with base := b } := rfl

@[simp] theorem State.setBase_dmc (b : Base) : s.setBase .dmc b = s.setDmc { s.dmc with base := b } := rfl

/-! ### Registers and latches -/

@[simp] theorem Regs.get_set_same (r : Regs) (a : RegNo) (v : Byte) : (r.set a v).get a = v := by
  cases a <;> rfl

theorem Regs.get_set_ne (r : Regs) (a a' : RegNo) (v : Byte) (h : a' ≠ a) : (r.set a v).get a' = r.get a' := by
  cases a <;> cases a' <;> first | rfl | exact absurd rfl h

@[simp] theorem Latches.get_set_same (w : Latches) (a : RegNo) (v : Bool) : (w.set a v).get a = v := by
  cases a <;> rfl

theorem Latches.get_set_ne (w : Latches) (a a' : RegNo) (v : Bool) (h : a' ≠ a) : (w.set a v).get a' = w.get a' := by
  cases a <;> cases a' <;> first | rfl | exact absurd rfl h

/-! ### memRead and the faults -/

@[simp] theorem State.memRead_fst (a : Addr) : (s.memRead a).1 = s.readerAnswer a := rfl

@[simp] theorem State.memRead_snd (a : Addr) : (s.memRead a).2 = { s with memReads := s.memReads ++ [a] } := rfl

theorem raiseCmdFault_eq (r : CmdFaultReason) : raiseCmdFault r s = .next { s with cmdFault := true } := rfl

theorem raiseFatal_eq : raiseFatal s = .fault (.noMemReader { s with faulted := true }) := rfl

end Sys2Proof.Machine
end

