-- ==== Sys2Proof/Laws/Dmc.lean ====
section
/-! SUPPORT. The spec lemmas of the sample player's operations: each says once everything the operation can do. -/

namespace Sys2Proof.Machine

/-! ### Flow -/

@[simp] theorem Flow.bind_goOn (s : State) (f : State → Flow) : (Flow.goOn s).bind f = f s := rfl

@[simp] theorem Flow.bind_fatal (s : State) (f : State → Flow) : (Flow.fatal s).bind f = .fatal s := rfl

@[simp] theorem Flow.toResult_goOn (s : State) : (Flow.goOn s).toResult = .next s := rfl

@[simp] theorem Flow.toResult_fatal (s : State) : (Flow.fatal s).toResult = raiseFatal s := rfl

@[simp] theorem Flow.state_goOn (s : State) : (Flow.goOn s).state = s := rfl

@[simp] theorem Flow.state_fatal (s : State) : (Flow.fatal s).state = s := rfl

theorem Flow.bind_assoc (f : Flow) (g h : State → Flow) : (f.bind g).bind h = f.bind fun s => (g s).bind h := by
  cases f <;> rfl

theorem Flow.bind_goOn_right (f : Flow) : f.bind .goOn = f := by cases f <;> rfl

/-- A command that went on ran both parts. -/
theorem Flow.bind_eq_goOn {f : Flow} {g : State → Flow} {t : State} (h : f.bind g = .goOn t) :
    ∃ m, f = .goOn m ∧ g m = .goOn t := by
  cases f with
  | goOn m => exact ⟨m, rfl, h⟩
  | fatal m => cases h

theorem Flow.toResult_eq_next {f : Flow} {t : State} (h : f.toResult = .next t) : f = .goOn t := by
  cases f with
  | goOn m => cases h; rfl
  | fatal m => cases h

/-! ### The interrupt schedule (R222) -/

/-- RECALC_IRQ stores the prediction and notifies exactly when it changes. -/
theorem recalcIrq_eq (s : State) : recalcIrq s = { s with
    notifications := s.notifications ++ (if predictIrq s.dmc = s.dmc.nextIrq then [] else [.irqChanged])
    dmc := { s.dmc with nextIrq := predictIrq s.dmc } } := by
  by_cases h : predictIrq s.dmc = s.dmc.nextIrq
  · simp only [recalcIrq, h, ne_eq, not_true_eq_false, if_false, if_true, List.append_nil]
  · simp only [recalcIrq, h, ne_eq, not_false_eq_true, if_false, if_true, State.setDmc, State.notify]

/-! ### The memory reader (R219, R220) -/

/-- The end of a sample: one `DmcDisabled`, the schedule emptied, the flag and `IrqChanged` while enabled. -/
theorem endSample_eq (s : State) : endSample s = { s with
    notifications := s.notifications ++ .dmcDisabled :: (if s.dmc.irqEnabled then [.irqChanged] else [])
    dmc := { s.dmc with nextIrq := none, irqFlag := s.dmc.irqFlag || s.dmc.irqEnabled } } := by
  cases h : s.dmc.irqEnabled <;> simp [endSample, State.notify, State.setDmc, h]

/-- FILL_BUFFER does nothing with the buffer full or no byte left. -/
theorem fillBuffer_idle {s : State} (h : s.dmc.bufFull = true ∨ s.dmc.base.lengthCounter = 0) : fillBuffer s = .goOn s := by
  rcases h with h | h <;> simp [fillBuffer, h]

/-- FILL_BUFFER without a reader stops before it changes anything (R281). -/
theorem fillBuffer_fatal {s : State} (hb : s.dmc.bufFull = false) (hl : 0 < s.dmc.base.lengthCounter)
    (hr : s.params.memReaderPresent = false) : fillBuffer s = .fatal s := by
  simp [fillBuffer, hb, hl, hr]

/-- FILL_BUFFER before the last byte. -/
theorem fillBuffer_more {s : State} (hb : s.dmc.bufFull = false) (hl : 1 < s.dmc.base.lengthCounter)
    (hr : s.params.memReaderPresent = true) : fillBuffer s = .goOn (fetchSample s) := by
  have h0 : 0 < s.dmc.base.lengthCounter := by omega
  have h1 : ¬s.dmc.base.lengthCounter - 1 = 0 := by omega
  simp [fillBuffer, hb, h0, hr, fetchSample, h1]

/-- FILL_BUFFER on the last byte of a looping sample. -/
theorem fillBuffer_loop {s : State} (hb : s.dmc.bufFull = false) (hl : s.dmc.base.lengthCounter = 1)
    (hr : s.params.memReaderPresent = true) (hloop : dmcLoop s.dmc.base.regs.r0 = true) :
    fillBuffer s = .goOn (reloadSample (fetchSample s)) := by
  simp [fillBuffer, hb, hl, hr, fetchSample, hloop]

/-- FILL_BUFFER on the last byte of a sample that does not loop. -/
theorem fillBuffer_end {s : State} (hb : s.dmc.bufFull = false) (hl : s.dmc.base.lengthCounter = 1)
    (hr : s.params.memReaderPresent = true) (hloop : dmcLoop s.dmc.base.regs.r0 = false) :
    fillBuffer s = .goOn (endSample (fetchSample s)) := by
  simp [fillBuffer, hb, hl, hr, fetchSample, hloop]

/-- The forms of FILL_BUFFER, whole. -/
theorem fillBuffer_cases (s : State) :
    ((s.dmc.bufFull = true ∨ s.dmc.base.lengthCounter = 0) ∧ fillBuffer s = .goOn s) ∨
    (s.dmc.bufFull = false ∧ 0 < s.dmc.base.lengthCounter ∧ s.params.memReaderPresent = false ∧ fillBuffer s = .fatal s) ∨
    (s.dmc.bufFull = false ∧ 1 < s.dmc.base.lengthCounter ∧ s.params.memReaderPresent = true ∧
      fillBuffer s = .goOn (fetchSample s)) ∨
    (s.dmc.bufFull = false ∧ s.dmc.base.lengthCounter = 1 ∧ s.params.memReaderPresent = true ∧
      dmcLoop s.dmc.base.regs.r0 = true ∧ fillBuffer s = .goOn (reloadSample (fetchSample s))) ∨
    (s.dmc.bufFull = false ∧ s.dmc.base.lengthCounter = 1 ∧ s.params.memReaderPresent = true ∧
      dmcLoop s.dmc.base.regs.r0 = false ∧ fillBuffer s = .goOn (endSample (fetchSample s))) := by
  cases hb : s.dmc.bufFull
  case true => exact .inl ⟨.inl rfl, fillBuffer_idle (.inl hb)⟩
  by_cases h0 : s.dmc.base.lengthCounter = 0
  · exact .inl ⟨.inr h0, fillBuffer_idle (.inr h0)⟩
  cases hr : s.params.memReaderPresent
  case false => exact .inr (.inl ⟨rfl, by omega, rfl, fillBuffer_fatal hb (by omega) hr⟩)
  by_cases h1 : s.dmc.base.lengthCounter = 1
  · cases hl : dmcLoop s.dmc.base.regs.r0
    · exact .inr (.inr (.inr (.inr ⟨rfl, h1, rfl, rfl, fillBuffer_end hb h1 hr hl⟩)))
    · exact .inr (.inr (.inr (.inl ⟨rfl, h1, rfl, rfl, fillBuffer_loop hb h1 hr hl⟩)))
  · exact .inr (.inr (.inl ⟨rfl, by omega, rfl, fillBuffer_more hb (by omega) hr⟩))

/-- All that FILL_BUFFER can change (R220). -/
theorem fillBuffer_keeps (s : State) : (fillBuffer s).state = { s with
    memReads := (fillBuffer s).state.memReads
    notifications := (fillBuffer s).state.notifications
    dmc := { s.dmc with
      buf := (fillBuffer s).state.dmc.buf
      address := (fillBuffer s).state.dmc.address
      bufFull := (fillBuffer s).state.dmc.bufFull
      irqFlag := (fillBuffer s).state.dmc.irqFlag
      nextIrq := (fillBuffer s).state.dmc.nextIrq
      base := { s.dmc.base with lengthCounter := (fillBuffer s).state.dmc.base.lengthCounter } } } := by
  rcases fillBuffer_cases s with h | h | h | h | h
  · rw [h.2]; rfl
  · rw [h.2.2.2]; rfl
  · rw [h.2.2.2]; rfl
  · rw [h.2.2.2.2]; rfl
  · rw [h.2.2.2.2, endSample_eq]; rfl

/-- DMCSTART, when it completes: the reload, FILL_BUFFER, RECALC_IRQ (R224). -/
theorem execDmcStart_next {s t : State} (h : execDmcStart s = .next t) :
    fillBuffer (reloadSample s) = .goOn (fillBuffer (reloadSample s)).state ∧ t = recalcIrq (fillBuffer (reloadSample
        s)).state := by
  obtain ⟨m, hm, hr⟩ := Flow.bind_eq_goOn (Flow.toResult_eq_next h)
  cases hr
  rw [hm]
  exact ⟨rfl, rfl⟩

end Sys2Proof.Machine
end

