-- ==== Sys2Proof/Laws/Timer.lean ====
section
/-! SUPPORT. The spec lemmas of the timer edges (R142), of the edge iterator, and of amplitude tracking (R143). -/

namespace Sys2Proof.Machine

/-! ### Edges (R142) -/

theorem ceilDiv_spec (a : Nat) {b : Nat} (hb : 1 ≤ b) : a ≤ ceilDiv a b * b ∧ ceilDiv a b * b < a + b := by
  unfold ceilDiv
  have h1 := Nat.div_add_mod (a + b - 1) b
  have h2 := Nat.mod_lt (a + b - 1) (show b > 0 by omega)
  rw [Nat.mul_comm] at h1
  omega

@[simp] theorem edges_first (time endTime : Nat) (delay period : Nat) : (edges time endTime delay
    period).first = time + delay := rfl

@[simp] theorem edges_period (time endTime : Nat) (delay period : Nat) : (edges time endTime delay period).period = period := rfl

theorem edges_carry_def (time endTime : Nat) (delay period : Nat) :
    (edges time endTime delay period).carry = time + delay + (edges time endTime delay period).count * period - endTime := rfl

/-- The last edge of the window and the first one after it (R142). -/
theorem edges_bounds (time endTime : Nat) (delay : Nat) {period : Nat} (hp : 1 ≤ period) :
    endTime ≤ time + delay + (edges time endTime delay period).count * period ∧
      (1 ≤ (edges time endTime delay period).count →
        time + delay + (edges time endTime delay period).count * period < endTime + period) := by
  have hc : (edges time endTime delay period).count =
      if time + delay ≥ endTime then 0 else ceilDiv (endTime - (time + delay)) period := rfl
  rw [hc]
  split
  · omega
  · have := ceilDiv_spec (endTime - (time + delay)) hp
    omega

/-- Edge `k` is inside the window exactly when its time is before the end (R142). -/
theorem edges_lt_iff (time endTime : Nat) (delay : Nat) {period : Nat} (hp : 1 ≤ period) (k : Nat) :
    k < (edges time endTime delay period).count ↔ time + delay + k * period < endTime := by
  obtain ⟨h1, h2⟩ := edges_bounds time endTime delay hp
  constructor
  · intro hk
    have hmul : (k + 1) * period ≤ (edges time endTime delay period).count * period := Nat.mul_le_mul_right _ hk
    rw [Nat.succ_mul] at hmul
    have := h2 (by omega)
    omega
  · intro hk
    by_contra hn
    have hmul : (edges time endTime delay period).count * period ≤ k * period := Nat.mul_le_mul_right _ (by omega)
    omega

/-- The carry is the distance from the end to the next edge (R142). -/
theorem edges_carry (time endTime : Nat) (delay : Nat) {period : Nat} (hp : 1 ≤ period) :
    time + delay + (edges time endTime delay period).count * period = endTime + (edges time endTime delay period).carry := by
  have := (edges_bounds time endTime delay hp).1
  rw [edges_carry_def]
  omega

/-- The carry stays below any bound of the delay and the period (R26). -/
theorem edges_carry_lt (time endTime : Nat) (delay : Nat) {period bound : Nat} (hp : 1 ≤ period) (hb : period ≤ bound)
    (hd : delay < bound) (ht : time ≤ endTime) : (edges time endTime delay period).carry < bound := by
  have h1 := edges_carry time endTime delay hp
  by_cases h : 1 ≤ (edges time endTime delay period).count
  · have := (edges_bounds time endTime delay hp).2 h
    omega
  · have h0 : (edges time endTime delay period).count = 0 := by omega
    rw [h0, Nat.zero_mul] at h1
    omega

/-- The number of edges is fixed by which edges are inside. -/
theorem edges_count_eq {time endTime : Nat} {delay period n : Nat} (hp : 1 ≤ period)
    (h : ∀ k, k < n ↔ time + delay + k * period < endTime) : (edges time endTime delay period).count = n := by
  have h1 := fun k => (edges_lt_iff time endTime delay hp k).trans (h k).symm
  by_contra hne
  rcases Nat.lt_or_gt_of_ne hne with hlt | hlt
  · exact absurd ((h1 _).mpr hlt) (Nat.lt_irrefl _)
  · exact absurd ((h1 _).mp hlt) (Nat.lt_irrefl _)

/-- The edges of two adjacent windows are the edges of both together (R142, R149). -/
theorem edges_split {t0 t1 t2 : Nat} (delay : Nat) {period : Nat} (hp : 1 ≤ period) (h12 : t1 ≤ t2) :
    (edges t0 t1 delay period).count + (edges t1 t2 (edges t0 t1 delay period).carry period).count =
        (edges t0 t2 delay period).count ∧
      (edges t1 t2 (edges t0 t1 delay period).carry period).carry = (edges t0 t2 delay period).carry ∧
      t1 + (edges t0 t1 delay period).carry = t0 + delay + (edges t0 t1 delay period).count * period := by
  have hc1 := edges_carry t0 t1 delay hp
  have hcount : (edges t0 t2 delay period).count =
      (edges t0 t1 delay period).count + (edges t1 t2 (edges t0 t1 delay period).carry period).count := by
    apply edges_count_eq hp
    intro k
    by_cases hk : k < (edges t0 t1 delay period).count
    · have := (edges_lt_iff t0 t1 delay hp k).mp hk
      constructor <;> intro _ <;> omega
    · obtain ⟨j, rfl⟩ := Nat.exists_eq_add_of_le (Nat.le_of_not_lt hk)
      have hj := edges_lt_iff t1 t2 (edges t0 t1 delay period).carry hp j
      rw [Nat.add_mul]
      omega
  have hc2 := edges_carry t1 t2 (edges t0 t1 delay period).carry hp
  have hc3 := edges_carry t0 t2 delay hp
  rw [hcount, Nat.add_mul] at hc3
  omega

/-- An empty window has no edge. -/
theorem edges_empty (time : Nat) (delay period : Nat) :
    (edges time time delay period).count = 0 ∧ (edges time time delay period).carry = delay := by
  have : (edges time time delay period).count = 0 := by simp [edges]
  exact ⟨this, by rw [edges_carry_def, this]; omega⟩

/-! ### The edge iterator -/

theorem atEdges_add {α : Type} (f : Nat → α → α) (p m n : Nat) (t : Nat) (x : α) :
    atEdges f p (m + n) t x = atEdges f p n (t + m * p) (atEdges f p m t x) := by
  induction m generalizing t x with
  | zero => simp [atEdges]
  | succ m ih =>
    rw [Nat.succ_add]
    show atEdges f p (m + n) (t + p) (f t x) = _
    rw [ih, Nat.succ_mul, Nat.add_assoc t p, Nat.add_comm p]
    rfl

theorem atEdges_succ_right {α : Type} (f : Nat → α → α) (p n : Nat) (t : Nat) (x : α) :
    atEdges f p (n + 1) t x = f (t + n * p) (atEdges f p n t x) := by
  rw [atEdges_add]
  rfl

/-- What every edge keeps, all edges keep. -/
theorem atEdges_induct {α : Type} {f : Nat → α → α} {P : α → Prop} (h : ∀ t x, P x → P (f t x)) (p n : Nat) (t : Nat) {x : α}
    (hx : P x) : P (atEdges f p n t x) := by
  induction n generalizing t x with
  | zero => exact hx
  | succ n ih => exact ih _ (h t x hx)

/-! ### Amplitude tracking (R143) -/

/-- Track, whole: the level moves to `amp`; the difference is emitted unless it is zero. -/
theorem track_eq (ch : Channel) (t : Nat) (amp : Int) (b : Base) (a : Accum) :
    track ch t amp b a =
      ({ b with lastAmp := amp },
        ⟨a.log ++ (if amp = b.lastAmp then [] else [⟨ch, t, amp - b.lastAmp⟩]), a.sum + (amp - b.lastAmp)⟩) := by
  by_cases h : amp = b.lastAmp
  · subst h; simp [track]
  · have : amp - b.lastAmp ≠ 0 := by omega
    simp [track, h, this, Accum.emit]

/-- TrackEdge, whole: as Track, and a rising level sets `trigger`. -/
theorem trackEdge_eq (ch : Channel) (t : Nat) (amp : Int) (b : Base) (a : Accum) :
    trackEdge ch t amp b a =
      ({ b with lastAmp := amp, trigger := b.trigger || decide (b.lastAmp < amp) },
        ⟨a.log ++ (if amp = b.lastAmp then [] else [⟨ch, t, amp - b.lastAmp⟩]), a.sum + (amp - b.lastAmp)⟩) := by
  simp only [trackEdge, track_eq, triggerAfter]
  congr 3
  exact decide_eq_decide.mpr (by omega)

theorem trackBound_of_bound {b : Base} (h : b.outEn = true) (ch : Channel) (t : Nat) (amp : Int) (a : Accum) :
    trackBound ch t amp b a = track ch t amp b a := by simp [trackBound, h]

theorem trackBound_of_unbound {b : Base} (h : b.outEn = false) (ch : Channel) (t : Nat) (amp : Int) (a : Accum) :
    trackBound ch t amp b a = (b, a) := by simp [trackBound, h]

theorem trackEdgeBound_of_bound {b : Base} (h : b.outEn = true) (ch : Channel) (t : Nat) (amp : Int) (a : Accum) :
    trackEdgeBound ch t amp b a = trackEdge ch t amp b a := by simp [trackEdgeBound, h]

theorem trackEdgeBound_of_unbound {b : Base} (h : b.outEn = false) (ch : Channel) (t : Nat) (amp : Int) (a : Accum) :
    trackEdgeBound ch t amp b a = (b, a) := by simp [trackEdgeBound, h]

end Sys2Proof.Machine
end

