-- ==== Sys2Proof/Laws/Wave.lean ====
section
/-! SUPPORT. What the timer edges of a bound channel emit, as a waveform: the iterated TrackEdge in closed form. -/

namespace Sys2Proof.Machine

open Sys2Proof.Claims

/-- Track in the words of the statements. -/
theorem track_deltaAt (ch : Channel) (t : Nat) (amp : Int) (b : Base) (a : Accum) :
    track ch t amp b a =
      ({ b with lastAmp := amp }, ⟨a.log ++ deltaAt ch t b.lastAmp amp, a.sum + (amp - b.lastAmp)⟩) := track_eq ch t amp b a

/-- TrackEdge in the words of the statements. -/
theorem trackEdge_deltaAt (ch : Channel) (t : Nat) (amp : Int) (b : Base) (a : Accum) :
    trackEdge ch t amp b a =
      ({ b with lastAmp := amp, trigger := b.trigger || decide (b.lastAmp < amp) },
        ⟨a.log ++ deltaAt ch t b.lastAmp amp, a.sum + (amp - b.lastAmp)⟩) := trackEdge_eq ch t amp b a

theorem waveLog_succ (ch : Channel) (first p n : Nat) (level : Nat → Int) :
    waveLog ch first p (n + 1) level = waveLog ch first p n level ++ deltaAt ch (first + n * p) (level n) (level (n + 1)) := by
  simp [waveLog, List.range_succ]

theorem waveRises_succ (n : Nat) (level : Nat → Int) :
    waveRises (n + 1) level = (waveRises n level || decide (level n < level (n + 1))) := by
  simp [waveRises, List.range_succ]

/-- Edges that track a level, on a channel whose state after `k` edges with base state `b` is `mk k b`. -/
theorem atEdges_wave {σ : Type} {f : Nat → σ × Accum → σ × Accum} {mk : Nat → Base → σ} {ch : Channel} {level : Nat → Int}
    (step : ∀ k t b a, b.outEn = true → f t (mk k b, a) =
      (mk (k + 1) (trackEdge ch t (level (k + 1)) b a).1, (trackEdge ch t (level (k + 1)) b a).2))
    (p n first : Nat) (b : Base) (a : Accum) (bound : b.outEn = true) (start : b.lastAmp = level 0) :
    atEdges f p n first (mk 0 b, a) =
      (mk n { b with lastAmp := level n, trigger := b.trigger || waveRises n level },
        ⟨a.log ++ waveLog ch first p n level, a.sum + (level n - b.lastAmp)⟩) := by
  induction n with
  | zero => simp [atEdges, waveRises, waveLog, ← start]
  | succ n ih =>
    rw [atEdges_succ_right, ih, step n _ { b with lastAmp := level n, trigger := _ } _ bound, trackEdge_deltaAt, waveLog_succ,
        waveRises_succ, ← Bool.or_assoc,
      List.append_assoc, show a.sum + (level n - b.lastAmp) + (level (n + 1) - level n) = a.sum + (level (n + 1) - b.lastAmp) by
        omega]

/-- Edges of an unbound channel: nothing is emitted. -/
theorem atEdges_unbound {σ : Type} {f : Nat → σ × Accum → σ × Accum} {mk : Nat → Base → σ}
    (step : ∀ k t b a, b.outEn = false → f t (mk k b, a) = (mk (k + 1) b, a))
    (p n first : Nat) (b : Base) (a : Accum) (unbound : b.outEn = false) :
    atEdges f p n first (mk 0 b, a) = (mk n b, a) := by
  induction n with
  | zero => rfl
  | succ n ih => rw [atEdges_succ_right, ih, step _ _ _ _ unbound]

/-- A synchronisation and the edges after it, on a bound channel with `trigger` cleared. -/
theorem atEdges_syncWave {σ : Type} {f : Nat → σ × Accum → σ × Accum} {mk : Nat → Base → σ} {ch : Channel} {level : Nat → Int}
    (step : ∀ k t b a, b.outEn = true → f t (mk k b, a) =
      (mk (k + 1) (trackEdge ch t (level (k + 1)) b a).1, (trackEdge ch t (level (k + 1)) b a).2))
    (p n first time : Nat) (b : Base) (a : Accum) (bound : b.outEn = true) :
    atEdges f p n first (mk 0 (track ch time (level 0) b a).1, (track ch time (level 0) b a).2) =
      (mk n { b with lastAmp := level n, trigger := b.trigger || waveRises n level },
        waveAcc a ch time first p n b.lastAmp level) := by
  rw [track_deltaAt]
  have h := atEdges_wave step p n first { b with lastAmp := level 0 }
    ⟨a.log ++ deltaAt ch time b.lastAmp (level 0), a.sum + (level 0 - b.lastAmp)⟩ bound rfl
  rw [h]
  simp only [waveAcc]
  congr 2
  omega

/-! ### Waveforms put together -/

theorem waveLog_add (ch : Channel) (first p m n : Nat) (lv : Nat → Int) :
    waveLog ch first p (m + n) lv = waveLog ch first p m lv ++ waveLog ch (first + m * p) p n (fun k => lv (m + k)) := by
  induction n with
  | zero => simp [waveLog]
  | succ n ih =>
    rw [← Nat.add_assoc, waveLog_succ, ih, waveLog_succ, List.append_assoc, Nat.add_mul, Nat.add_assoc first]; rfl

/-- Two adjacent windows emit what the window over both emits (R149). -/
theorem waveAcc_split (a : Accum) (ch : Channel) (t0 t1 first p m n : Nat) (la : Int) (lv : Nat → Int) :
    waveAcc (waveAcc a ch t0 first p m la lv) ch t1 (first + m * p) p n (lv m) (fun k => lv (m + k)) = waveAcc a ch t0 first p (m +
        n) la lv := by
  simp only [waveAcc, waveLog_add, Nat.add_zero, deltaAt, if_true, List.append_nil, List.append_assoc]
  congr 1
  omega

/-- A base state with `trigger` cleared. -/
def Base.untriggered (b : Base) : Base := { b with trigger := false }

/-- Two adjacent windows leave the base state of the window over both, `trigger` excepted (R149). -/
theorem waveBase_split (b : Base) (c1 c2 m n : Nat) (lv : Nat → Int) :
   Base.untriggered (waveBase (Base.untriggered (waveBase b c1 m lv)) c2 n (fun k => lv (m + k))) = Base.untriggered (waveBase b c2
       (m + n) lv) := by
  cases h : b.outEn <;> simp [Base.untriggered, waveBase, h]

/-- The accumulator of two adjacent windows, bound or not (R149). -/
theorem wave_split (b : Base) (a : Accum) (ch : Channel) (c1 t0 t1 first p m n : Nat) (lv : Nat → Int) :
   (if (Base.untriggered (waveBase b c1 m lv)).outEn = true then
      waveAcc (if b.outEn = true then waveAcc a ch t0 first p m b.lastAmp lv else a) ch t1 (first + m * p) p n (Base.untriggered
          (waveBase b c1 m lv)).lastAmp (fun k => lv (m + k))
    else (if b.outEn = true then waveAcc a ch t0 first p m b.lastAmp lv else a)) =
   if b.outEn = true then waveAcc a ch t0 first p (m + n) b.lastAmp lv else a := by
  cases h : b.outEn
  · simp [Base.untriggered, waveBase, h]
  · simp only [Base.untriggered, waveBase, h, if_true]; exact waveAcc_split _ _ _ _ _ _ _ _ _ _

/-- Every emission of a waveform. -/
theorem waveLog_mem {ch : Channel} {first p n : Nat} {level : Nat → Int} {e : Emission} (h : e ∈ waveLog ch first p n level) :
    e.ch = ch ∧ e.delta ≠ 0 ∧ ∃ k < n, e.time = first + k * p := by
  simp only [waveLog, List.mem_flatMap, List.mem_range] at h
  obtain ⟨k, hk, he⟩ := h
  unfold deltaAt at he
  split at he
  · cases he
  · rename_i hne
    simp at he; subst he
    exact ⟨rfl, by simpa using fun h => hne (by omega), k, hk, rfl⟩

theorem sum_deltaAt (ch : Channel) (t : Nat) (a b : Int) : sumDeltas (deltaAt ch t a b) = b - a := by
  unfold deltaAt; split
  · simp [sumDeltas]; omega
  · simp [sumDeltas]

/-- What a waveform emits adds up to the change of its level. -/
theorem sum_waveLog (ch : Channel) (first p n : Nat) (level : Nat → Int) : sumDeltas (waveLog ch first p n level) =
    level n - level 0 := by
  induction n with
  | zero => simp [waveLog, sumDeltas]
  | succ n ih => rw [waveLog_succ, sumDeltas_append, ih, sum_deltaAt]; omega

theorem waveAcc_log (o : Bool) (a : Accum) (ch time first p n la lv) : (if o =
    true then waveAcc a ch time first p n la lv else a).log =
    a.log ++ (if o = true then deltaAt ch time la (lv 0) ++ waveLog ch first p n lv else []) := by
  cases o <;> simp [waveAcc]

theorem waveLog_congr (ch : Channel) (first p : Nat) {n : Nat} {l l' : Nat → Int} (h : ∀ k, k ≤ n → l' k = l k) :
   waveLog ch first p n l' = waveLog ch first p n l := by
  induction n with
  | zero => rfl
  | succ n ih => rw [waveLog_succ, waveLog_succ, ih (fun k hk => h k (by omega)), h n (by omega), h (n+1) (by omega)]

theorem waveRises_congr {n : Nat} {l l' : Nat → Int} (h : ∀ k, k ≤ n → l' k = l k) :
   waveRises n l' = waveRises n l := by
  induction n with
  | zero => rfl
  | succ n ih => rw [waveRises_succ, waveRises_succ, ih (fun k hk => h k (by omega)), h n (by omega), h (n+1) (by omega)]

theorem wave_const_zero (ch t p n) : waveLog ch t p n (fun _ => 0) = [] ∧ waveRises n (fun _ => 0) = false := by
  simp [waveLog, waveRises, deltaAt]

/-- A waveform keeps the accumulator balanced (R265, R266). -/
theorem balanced_waveAcc {a : Accum} (h : a.balanced) (ch : Channel) (t first p n : Nat) (la : Int) (lv : Nat → Int) :
    (waveAcc a ch t first p n la lv).balanced := by
  obtain ⟨h1, h2⟩ := h
  constructor
  · simp only [waveAcc, sumDeltas_append, sum_deltaAt, sum_waveLog, h1]; omega
  · intro e he
    simp only [waveAcc, List.mem_append] at he
    rcases he with (he | he) | he
    · exact h2 e he
    · unfold deltaAt at he; split at he
      · cases he
      · rename_i hne; simp at he; subst he; simp; omega
    · exact (waveLog_mem he).2.1

end Sys2Proof.Machine
end

