-- ==== Sys2Proof/Laws/DmcRun.lean ====
section
/-! SUPPORT. What RUN DMC can do: its frame, its edges in closed form, the level's waveform, and the schedule of its reads. -/

namespace Sys2Proof.Machine

open Sys2Proof.Claims

/-! ### The frame of RUN DMC (the "State written" of R227) -/

theorem dmcRunFrame_refl (s : State) : dmcRunFrame s s := ⟨rfl, rfl, rfl, rfl, rfl, rfl, rfl⟩

theorem dmcRunFrame_trans {s m t : State} (h : dmcRunFrame s m) (k : dmcRunFrame m t) : dmcRunFrame s t := by
  obtain ⟨h0, h1, h2, h3, h4, h5, h6⟩ := h
  obtain ⟨k0, k1, k2, k3, k4, k5, k6⟩ := k
  refine ⟨?_, k1.trans h1, k2.trans h2, k3.trans h3, k4.trans h4, k5.trans h5, k6.trans h6⟩
  rw [h0] at k0; exact k0

theorem dmcTrackEdge_frame (t : Nat) (s : State) : dmcRunFrame s (dmcTrackEdge t s) := by
  cases h : s.dmc.base.outEn
  · simp [dmcTrackEdge, trackEdgeBound_of_unbound h, State.setDmc, State.setAcc, dmcRunFrame_refl]
  · simp [dmcTrackEdge, trackEdgeBound_of_bound h, trackEdge_eq, State.setDmc, State.setAcc, dmcRunFrame]

theorem dmcSync_frame (t : Nat) (s : State) : dmcRunFrame s (dmcSync t s) := by
  cases h : s.dmc.base.outEn
  · simp [dmcSync, trackBound_of_unbound h, State.setDmc, State.setAcc, dmcRunFrame_refl]
  · simp [dmcSync, trackBound_of_bound h, track_eq, State.setDmc, State.setAcc, dmcRunFrame]

theorem dmcShift_frame (t : Nat) (s : State) : dmcRunFrame s (dmcShift t s) := by
  cases h : s.dmc.silence
  · simp only [dmcShift, h]
    simp only [if_false, Bool.false_eq_true]
    split
    · refine dmcRunFrame_trans ?_ (dmcTrackEdge_frame _ _)
      simp [dmcRunFrame, State.setDmc]
    · simp [dmcRunFrame, State.setDmc]
  · simp [dmcShift, h, dmcRunFrame_refl]

theorem fetchSample_frame (s : State) : dmcRunFrame s (fetchSample s) := by
  simp [fetchSample, State.memRead, State.setDmc, dmcRunFrame]

theorem reloadSample_frame (s : State) : dmcRunFrame s (reloadSample s) := by
  simp [reloadSample, State.setDmc, dmcRunFrame]

theorem endSample_frame (s : State) : dmcRunFrame s (endSample s) := by
  simp [endSample_eq, dmcRunFrame]

theorem fillBuffer_frame (s : State) : dmcRunFrame s (fillBuffer s).state := by
  rcases fillBuffer_cases s with h | h | h | h | h
  · rw [h.2]; exact dmcRunFrame_refl s
  · rw [h.2.2.2]; exact dmcRunFrame_refl s
  · rw [h.2.2.2]; exact fetchSample_frame s
  · rw [h.2.2.2.2]; exact dmcRunFrame_trans (fetchSample_frame s) (reloadSample_frame _)
  · rw [h.2.2.2.2]; exact dmcRunFrame_trans (fetchSample_frame s) (endSample_frame _)

theorem dmcCount_frame (s : State) : dmcRunFrame s (dmcCount s).state := by
  simp only [dmcCount]
  split
  · simp only [dmcReload]
    split
    · refine dmcRunFrame_trans ?_ (fillBuffer_frame _)
      simp [dmcRunFrame, State.setDmc]
    · simp [dmcRunFrame, State.setDmc]
  · simp [dmcRunFrame, State.setDmc]

theorem dmcEdge_frame (t : Nat) (s : State) : dmcRunFrame s (dmcEdge t s).state := dmcRunFrame_trans (dmcShift_frame t s)
    (dmcCount_frame _)

theorem dmcEdges_frame (p n t : Nat) (s : State) : dmcRunFrame s (dmcEdges p n t s).state := by
  induction n generalizing t s with
  | zero => exact dmcRunFrame_refl s
  | succ n ih =>
    have := dmcEdge_frame t s
    simp only [dmcEdges]
    cases h : dmcEdge t s with
    | goOn m => rw [h] at this; exact dmcRunFrame_trans this (ih _ m)
    | fatal m => rw [h] at this; exact this

theorem runDmc_frame (time endTime : Nat) (s : State) : dmcRunFrame s (runDmc time endTime s).state := by
  have h1 := dmcRunFrame_trans (dmcSync_frame time s) (dmcEdges_frame s.dmc.period (edges time endTime s.dmc.base.delay
      s.dmc.period).count (time + s.dmc.base.delay) _)
  simp only [runDmc, edges_period, edges_first]
  cases h : dmcEdges s.dmc.period (edges time endTime s.dmc.base.delay s.dmc.period).count (time + s.dmc.base.delay) (dmcSync time
      s) with
  | fatal m => rw [h] at h1; exact h1
  | goOn m => 
    rw [h] at h1; refine dmcRunFrame_trans h1 ?_
    simp [dmcRunFrame, State.setDmc]

/-! ### The countdown and the reload step in closed form (R227) -/

theorem dmcCount_tick {s : State} (h : s.dmc.bitsRemain - 1 ≠ 0) :
    dmcCount s = .goOn { s with dmc := { s.dmc with bitsRemain := s.dmc.bitsRemain - 1 } } := by
  simp [dmcCount, h, State.setDmc]

theorem dmcCount_empty {s : State} (h : s.dmc.bitsRemain - 1 = 0) (hb : s.dmc.bufFull = false) :
    dmcCount s = .goOn { s with dmc := { s.dmc with bitsRemain := 8, silence := true } } := by
  simp [dmcCount, h, dmcReload, hb, State.setDmc]

/-- The state in which the shift register has just taken the buffer. -/
def State.reloaded (s : State) : State := { s with dmc := { s.dmc with
  bitsRemain := 8, silence := false, bits := s.dmc.buf, bufFull := false } }

theorem dmcCount_full {s : State} (h : s.dmc.bitsRemain - 1 = 0) (hb : s.dmc.bufFull = true) :
    dmcCount s = fillBuffer s.reloaded := by
  simp [dmcCount, h, dmcReload, hb, State.setDmc, State.reloaded]

/-! ### The shift in closed form (R227) -/

/-- The level after the shift of one edge. -/
def Dmc.shiftedDac (c : Dmc) : BitVec 7 :=
  if c.silence = true then c.dac
  else if 0 ≤ dacTarget c.dac (c.bits.getLsbD 0) ∧ dacTarget c.dac (c.bits.getLsbD 0) ≤ 127 then
    BitVec.ofInt 7 (dacTarget c.dac (c.bits.getLsbD 0))
  else c.dac

/-- The level after the shift, as a number (R12, R227): by 2 up or down, or unchanged at the ends of the range. -/
theorem Dmc.shiftedDac_toNat (c : Dmc) :
    c.shiftedDac.toNat =
      (if c.silence = true then c.dac.toNat
       else if c.bits.getLsbD 0 = true then (if c.dac.toNat + 2 ≤ 127 then c.dac.toNat + 2 else c.dac.toNat)
       else (if 2 ≤ c.dac.toNat then c.dac.toNat - 2 else c.dac.toNat)) := by
  have hlt := c.dac.isLt
  unfold Dmc.shiftedDac
  split
  · rfl
  · cases hb : c.bits.getLsbD 0
    · simp only [dacTarget, Bool.false_eq_true, if_false]
      by_cases h2 : 2 ≤ c.dac.toNat
      · rw [if_pos (by omega), if_pos h2, BitVec.toNat_ofInt]
        omega
      · rw [if_neg (by omega), if_neg h2]
    · simp only [dacTarget, if_true]
      by_cases h2 : c.dac.toNat + 2 ≤ 127
      · rw [if_pos (by omega), if_pos h2, BitVec.toNat_ofInt]
        omega
      · rw [if_neg (by omega), if_neg h2]

/-- The shift of an edge, whole, in a state whose level is tracked (bound, `last_amp` is the level). -/
theorem dmcShift_eq (t : Nat) (s : State) (tracked : s.dmc.base.outEn = true → s.dmc.base.lastAmp = (s.dmc.dac.toNat : Int)) :
    dmcShift t s = { s with
      acc := if s.dmc.base.outEn = true then
          ⟨s.acc.log ++ deltaAt .dmc t (s.dmc.dac.toNat : Int) (s.dmc.shiftedDac.toNat : Int),
            s.acc.sum + ((s.dmc.shiftedDac.toNat : Int) - (s.dmc.dac.toNat : Int))⟩
        else s.acc
      dmc := { s.dmc with
        bits := if s.dmc.silence = true then s.dmc.bits else s.dmc.bits >>> 1
        dac := s.dmc.shiftedDac
        base := { s.dmc.base with
          lastAmp := if s.dmc.base.outEn = true then (s.dmc.shiftedDac.toNat : Int) else s.dmc.base.lastAmp
          trigger := s.dmc.base.trigger || (s.dmc.base.outEn && decide (s.dmc.dac.toNat < s.dmc.shiftedDac.toNat)) } } } := by
  by_cases ho : s.dmc.base.outEn = true
  · have hl := tracked ho
    by_cases hs : s.dmc.silence = true
    · have hd : s.dmc.shiftedDac = s.dmc.dac := by simp [Dmc.shiftedDac, hs]
      simp [dmcShift, hs, hd, deltaAt, ← hl]
      rw [← hs]
    · by_cases hr : 0 ≤ dacTarget s.dmc.dac (s.dmc.bits.getLsbD 0) ∧ dacTarget s.dmc.dac (s.dmc.bits.getLsbD 0) ≤ 127
      · have hd : s.dmc.shiftedDac = BitVec.ofInt 7 (dacTarget s.dmc.dac (s.dmc.bits.getLsbD 0)) := by
          simp only [Dmc.shiftedDac, hs, if_false, if_pos hr, Bool.false_eq_true]
        simp only [dmcShift, hs, if_false, State.setDmc_dmc, if_pos hr, ← hd, ho, if_true, Bool.false_eq_true]
        simp [dmcTrackEdge, State.setDmc, State.setAcc, trackEdgeBound_of_bound, ho, trackEdge_deltaAt, hl]
      · have hd : s.dmc.shiftedDac = s.dmc.dac := by
          simp only [Dmc.shiftedDac, hs, if_false, if_neg hr, Bool.false_eq_true]
        simp only [dmcShift, hs, if_false, State.setDmc_dmc, if_neg hr, hd, ho, if_true, Bool.false_eq_true]
        simp [State.setDmc, deltaAt, ← hl]
        rw [← ho]
  · simp only [Bool.not_eq_true] at ho
    by_cases hs : s.dmc.silence = true
    · have hd : s.dmc.shiftedDac = s.dmc.dac := by simp [Dmc.shiftedDac, hs]
      simp [dmcShift, hs, hd, ho]
      rw [← hs, ← ho]
    · by_cases hr : 0 ≤ dacTarget s.dmc.dac (s.dmc.bits.getLsbD 0) ∧ dacTarget s.dmc.dac (s.dmc.bits.getLsbD 0) ≤ 127
      · have hd : s.dmc.shiftedDac = BitVec.ofInt 7 (dacTarget s.dmc.dac (s.dmc.bits.getLsbD 0)) := by
          simp only [Dmc.shiftedDac, hs, if_false, if_pos hr, Bool.false_eq_true]
        simp only [dmcShift, hs, if_false, State.setDmc_dmc, if_pos hr, ← hd, Bool.false_eq_true]
        simp [dmcTrackEdge, State.setDmc, State.setAcc, trackEdgeBound_of_unbound, ho]
        rw [← ho]
      · have hd : s.dmc.shiftedDac = s.dmc.dac := by
          simp only [Dmc.shiftedDac, hs, if_false, if_neg hr, Bool.false_eq_true]
        simp only [dmcShift, hs, if_false, State.setDmc_dmc, if_neg hr, hd, Bool.false_eq_true]
        simp [State.setDmc, ho]
        rw [← ho]

/-- The synchronisation of a window, whole (R227). -/
theorem dmcSync_eq (t : Nat) (s : State) :
    dmcSync t s = { s with
      acc := if s.dmc.base.outEn = true then
          ⟨s.acc.log ++ deltaAt .dmc t s.dmc.base.lastAmp (s.dmc.dac.toNat : Int),
            s.acc.sum + ((s.dmc.dac.toNat : Int) - s.dmc.base.lastAmp)⟩
        else s.acc
      dmc := { s.dmc with base := { s.dmc.base with
        lastAmp := if s.dmc.base.outEn = true then (s.dmc.dac.toNat : Int) else s.dmc.base.lastAmp } } } := by
  by_cases ho : s.dmc.base.outEn = true
  · simp [dmcSync, ho, trackBound_of_bound, track_deltaAt, State.setDmc, State.setAcc]
  · simp only [Bool.not_eq_true] at ho
    simp [dmcSync, ho, trackBound_of_unbound, State.setDmc, State.setAcc]
    rw [← ho]

/-! ### The edges of a window, put together -/

theorem dmcEdges_add (p m n t : Nat) (s : State) :
    dmcEdges p (m + n) t s = (dmcEdges p m t s).bind (dmcEdges p n (t + m * p)) := by
  induction m generalizing t s with
  | zero => simp [dmcEdges]
  | succ m ih =>
    have h : t + (m + 1) * p = t + p + m * p := by rw [Nat.succ_mul]; omega
    rw [Nat.succ_add, h]
    simp only [dmcEdges, Flow.bind_assoc]
    congr 1
    funext s
    exact ih _ _

theorem dmcEdges_succ_right (p n t : Nat) (s : State) :
    dmcEdges p (n + 1) t s = (dmcEdges p n t s).bind (dmcEdge (t + n * p)) := by
  rw [dmcEdges_add]
  congr 1
  funext s
  simp [dmcEdges, Flow.bind_goOn_right]

/-- With a reader FILL_BUFFER never stops the command. -/
theorem fillBuffer_goOn {s : State} (hr : s.params.memReaderPresent = true) : fillBuffer s = .goOn (fillBuffer s).state := by
  rcases fillBuffer_cases s with h | h | h | h | h
  · rw [h.2]; rfl
  · exact absurd hr (by simp [h.2.2.1])
  · rw [h.2.2.2]; rfl
  · rw [h.2.2.2.2]; rfl
  · rw [h.2.2.2.2]; rfl

theorem dmcCount_goOn {s : State} (hr : s.params.memReaderPresent = true) : dmcCount s = .goOn (dmcCount s).state := by
  by_cases h : s.dmc.bitsRemain - 1 = 0
  · cases hb : s.dmc.bufFull
    · rw [dmcCount_empty h hb]; rfl
    · rw [dmcCount_full h hb]; exact fillBuffer_goOn hr
  · rw [dmcCount_tick h]; rfl

theorem dmcRunFrame_params {s t : State} (h : dmcRunFrame s t) : t.params = s.params := by rw [h.1]

theorem dmcEdges_goOn {s : State} (hr : s.params.memReaderPresent = true) (p n t : Nat) :
    dmcEdges p n t s = .goOn (dmcEdges p n t s).state := by
  induction n with
  | zero => rfl
  | succ n ih =>
    have hp := dmcRunFrame_params (dmcEdges_frame p n t s)
    rw [dmcEdges_succ_right, ih]
    have hs := dmcRunFrame_params (dmcShift_frame (t + n * p) (dmcEdges p n t s).state)
    exact dmcCount_goOn (by rw [hs, hp]; exact hr)

/-! ### The waveform of the level: what a run emits is a function of the unbound run -/

/-- The state without its binding, its tracked level and its accumulator. -/
def State.unbind (s : State) : State := { s with
  acc := ⟨[], 0⟩
  dmc := { s.dmc with base := { s.dmc.base with outEn := false, lastAmp := 0, trigger := false } } }

/-- The state with a binding, a tracked level, a trigger and an accumulator. -/
def State.withWave (u : State) (b : Base) (a : Accum) : State := { u with
  acc := a
  dmc := { u.dmc with base := { u.dmc.base with outEn := b.outEn, lastAmp := b.lastAmp, trigger := b.trigger } } }

theorem State.unbind_withWave (s : State) : s.unbind.withWave s.dmc.base s.acc = s := rfl

/-- A flow with every state it reaches changed. -/
def Flow.map (g : State → State) : Flow → Flow
  | .goOn s => .goOn (g s)
  | .fatal s => .fatal (g s)

theorem fillBuffer_withWave (u : State) (b : Base) (a : Accum) :
    fillBuffer (u.withWave b a) = (fillBuffer u).map (·.withWave b a) := by
  rcases fillBuffer_cases u with h | h | h | h | h
  · rw [h.2, fillBuffer_idle (s := u.withWave b a) h.1]; rfl
  · rw [h.2.2.2, fillBuffer_fatal (s := u.withWave b a) h.1 h.2.1 h.2.2.1]; rfl
  · rw [h.2.2.2, fillBuffer_more (s := u.withWave b a) h.1 h.2.1 h.2.2.1]; rfl
  · rw [h.2.2.2.2, fillBuffer_loop (s := u.withWave b a) h.1 h.2.1 h.2.2.1 h.2.2.2.1]; rfl
  · rw [h.2.2.2.2, fillBuffer_end (s := u.withWave b a) h.1 h.2.1 h.2.2.1 h.2.2.2.1, endSample_eq, endSample_eq]; rfl

theorem dmcCount_withWave (u : State) (b : Base) (a : Accum) :
    dmcCount (u.withWave b a) = (dmcCount u).map (·.withWave b a) := by
  by_cases h : u.dmc.bitsRemain - 1 = 0
  · cases hb : u.dmc.bufFull
    · rw [dmcCount_empty (s := u.withWave b a) h hb, dmcCount_empty h hb]; rfl
    · rw [dmcCount_full (s := u.withWave b a) h hb, dmcCount_full h hb]
      exact fillBuffer_withWave u.reloaded b a
  · rw [dmcCount_tick (s := u.withWave b a) h, dmcCount_tick h]; rfl

/-- The reload step does not touch the level. -/
theorem dmcCount_dac (s : State) : (dmcCount s).state.dmc.dac = s.dmc.dac := by
  by_cases h : s.dmc.bitsRemain - 1 = 0
  · cases hb : s.dmc.bufFull
    · rw [dmcCount_empty h hb]; rfl
    · rw [dmcCount_full h hb]
      rcases fillBuffer_cases s.reloaded with k | k | k | k | k
      · rw [k.2]; rfl
      · rw [k.2.2.2]; rfl
      · rw [k.2.2.2]; rfl
      · rw [k.2.2.2.2]; rfl
      · rw [k.2.2.2.2, endSample_eq]; rfl
  · rw [dmcCount_tick h]; rfl

theorem dmcEdge_dac (t : Nat) (s : State) (tracked : s.dmc.base.outEn = true → s.dmc.base.lastAmp = (s.dmc.dac.toNat : Int)) :
    (dmcEdge t s).state.dmc.dac = s.dmc.shiftedDac := by
  rw [dmcEdge, dmcCount_dac, dmcShift_eq t s tracked]

/-- One edge of a tracked channel is the edge of the unbound one, with the change of the level emitted. -/
theorem dmcEdge_withWave (t : Nat) (u : State) (b : Base) (a : Accum) (hu : u.dmc.base.outEn = false)
    (tracked : b.outEn = true → b.lastAmp = (u.dmc.dac.toNat : Int)) :
    dmcEdge t (u.withWave b a) = (dmcEdge t u).map (·.withWave
      { b with
        lastAmp := if b.outEn = true then (u.dmc.shiftedDac.toNat : Int) else b.lastAmp
        trigger := b.trigger || (b.outEn && decide (u.dmc.dac.toNat < u.dmc.shiftedDac.toNat)) }
      (if b.outEn = true then
        ⟨a.log ++ deltaAt .dmc t (u.dmc.dac.toNat : Int) (u.dmc.shiftedDac.toNat : Int),
          a.sum + ((u.dmc.shiftedDac.toNat : Int) - (u.dmc.dac.toNat : Int))⟩
      else a)) := by
  rw [dmcEdge, dmcEdge, dmcShift_eq t (u.withWave b a) tracked, dmcShift_eq t u (by simp [hu]), ← dmcCount_withWave]
  rfl

/-- The level after `k` edges. -/
def dmcLevel (p first : Nat) (u : State) (k : Nat) : Int := ((dmcEdges p k first u).state.dmc.dac.toNat : Int)

/-- The base state after `n` edges of a tracked channel. -/
def levelBase (b : Base) (n : Nat) (level : Nat → Int) : Base := { b with
  lastAmp := if b.outEn = true then level n else b.lastAmp
  trigger := b.trigger || (b.outEn && waveRises n level) }

/-- The accumulator after `n` edges of a tracked channel. -/
def levelAcc (b : Base) (a : Accum) (first p n : Nat) (level : Nat → Int) : Accum :=
  if b.outEn = true then ⟨a.log ++ waveLog .dmc first p n level, a.sum + (level n - level 0)⟩ else a

/-- One edge more of a tracked channel, which may stop: the edge of the unbound one, with the change of the level emitted. -/
theorem dmcEdges_withWave_next {p n first : Nat} {u m : State} {b : Base} {a : Accum} (hu : u.dmc.base.outEn = false)
    (hm : dmcEdges p n first u = .goOn m)
    (ih : dmcEdges p n first (u.withWave b a) =
      .goOn (m.withWave (levelBase b n (dmcLevel p first u)) (levelAcc b a first p n (dmcLevel p first u)))) :
    dmcEdges p (n + 1) first (u.withWave b a) = (dmcEdges p (n + 1) first u).map
      (·.withWave (levelBase b (n + 1) (dmcLevel p first u)) (levelAcc b a first p (n + 1) (dmcLevel p first u))) := by
  have hmu : m.dmc.base.outEn = false := by
    have := (dmcEdges_frame p n first u).2.2.2.1
    rw [hm] at this
    exact this.trans hu
  have hln : dmcLevel p first u n = (m.dmc.dac.toNat : Int) := by rw [dmcLevel, hm]; rfl
  have hls : dmcLevel p first u (n + 1) = (m.dmc.shiftedDac.toNat : Int) := by
    have := dmcEdge_dac (first + n * p) m (by simp [hmu])
    rw [dmcLevel, dmcEdges_succ_right, hm, Flow.bind_goOn, this]
  have hsum : ∀ x y z : Int, a.sum + (x - y) + (z - x) = a.sum + (z - y) := by intro x y z; omega
  rw [dmcEdges_succ_right, ih, Flow.bind_goOn, dmcEdge_withWave _ _ _ _ hmu (by
      intro ho; have ho : b.outEn = true := ho; simp [levelBase, ho, hln]), dmcEdges_succ_right, hm, Flow.bind_goOn]
  cases ho : b.outEn <;> simp [levelBase, levelAcc, waveLog_succ, waveRises_succ, hls, hln, ho, Bool.or_assoc, hsum]

/-- The edges of a tracked channel are the edges of the unbound one, with the waveform of the level emitted. -/
theorem dmcEdges_withWave {p n first : Nat} {u v : State} (b : Base) (a : Accum) (hu : u.dmc.base.outEn = false)
    (tracked : b.outEn = true → b.lastAmp = (u.dmc.dac.toNat : Int)) (h : dmcEdges p n first u = .goOn v) :
    dmcEdges p n first (u.withWave b a) =
      .goOn (v.withWave (levelBase b n (dmcLevel p first u)) (levelAcc b a first p n (dmcLevel p first u))) := by
  induction n generalizing v with
  | zero =>
    cases h
    cases ho : b.outEn
    · simp [dmcEdges, levelBase, levelAcc, ho]; rw [← ho]
    · simp [dmcEdges, levelBase, levelAcc, ho, waveRises, waveLog, dmcLevel, ← tracked ho]; rw [← ho]
  | succ n ih =>
    have h' := h
    rw [dmcEdges_succ_right] at h'
    obtain ⟨m, hm, -⟩ := Flow.bind_eq_goOn h'
    rw [dmcEdges_withWave_next hu hm (ih hm), h]
    rfl

/-- A tracked run that is not cut short is not cut short unbound. -/
theorem dmcEdges_goOn_of_withWave {p n first : Nat} {u w : State} {b : Base} {a : Accum} (hu : u.dmc.base.outEn = false)
    (tracked : b.outEn = true → b.lastAmp = (u.dmc.dac.toNat : Int)) (h : dmcEdges p n first (u.withWave b a) = .goOn w) :
    ∃ v, dmcEdges p n first u = .goOn v := by
  induction n generalizing w with
  | zero => exact ⟨u, rfl⟩
  | succ n ih =>
    rw [dmcEdges_succ_right] at h
    obtain ⟨m, hm, hw⟩ := Flow.bind_eq_goOn h
    obtain ⟨v, hv⟩ := ih hm
    have hvu : v.dmc.base.outEn = false := by
      have := (dmcEdges_frame p n first u).2.2.2.1
      rw [hv] at this
      exact this.trans hu
    have hl : dmcLevel p first u n = (v.dmc.dac.toNat : Int) := by rw [dmcLevel, hv]; rfl
    have hm' := dmcEdges_withWave b a hu tracked hv
    rw [hm] at hm'
    cases hm'
    rw [dmcEdge_withWave _ _ _ _ hvu (by intro ho; have ho : b.outEn = true := ho; simp [levelBase, ho, hl])] at hw
    rw [dmcEdges_succ_right, hv, Flow.bind_goOn]
    cases he : dmcEdge (first + n * p) v with
    | goOn x => exact ⟨x, rfl⟩
    | fatal x => rw [he] at hw; cases hw

/-- RUN DMC over a non-empty window that is not cut short: the unbound run, the synchronisation and the waveform of the level, the new
`delay` and `last_time`. -/
theorem runDmc_eq {time endTime : Nat} {s v : State}
    (h : dmcEdges s.dmc.period (edges time endTime s.dmc.base.delay s.dmc.period).count (time + s.dmc.base.delay) s.unbind = .goOn
        v) :
    runDmc time endTime s =
      (let e := edges time endTime s.dmc.base.delay s.dmc.period
       let level := dmcLevel s.dmc.period e.first s.unbind
       let w := v.withWave { s.dmc.base with
          lastAmp := if s.dmc.base.outEn = true then level e.count else s.dmc.base.lastAmp
          trigger := s.dmc.base.trigger || (s.dmc.base.outEn && waveRises e.count level) }
        (if s.dmc.base.outEn = true then waveAcc s.acc .dmc time e.first e.period e.count s.dmc.base.lastAmp level else s.acc)
       .goOn { w with dmc := { w.dmc with base := { w.dmc.base with delay := e.carry }, lastTime := endTime } }) := by
  have hs : dmcSync time s = s.unbind.withWave
      { s.dmc.base with lastAmp := if s.dmc.base.outEn = true then (s.dmc.dac.toNat : Int) else s.dmc.base.lastAmp }
      (if s.dmc.base.outEn = true then
          ⟨s.acc.log ++ deltaAt .dmc time s.dmc.base.lastAmp (s.dmc.dac.toNat : Int),
            s.acc.sum + ((s.dmc.dac.toNat : Int) - s.dmc.base.lastAmp)⟩
        else s.acc) := dmcSync_eq time s
  simp only [runDmc, edges_first, edges_period, hs]
  rw [dmcEdges_withWave _ _ rfl (by intro ho; have ho : s.dmc.base.outEn = true := ho; simp [ho]; rfl) h]
  simp only [Flow.bind_goOn]
  congr 1
  cases ho : s.dmc.base.outEn
  · simp [State.withWave, State.setDmc, levelBase, levelAcc]
  · simp [State.withWave, State.setDmc, levelBase, levelAcc, waveAcc, dmcLevel, dmcEdges, State.unbind]
    omega

/-- The synchronised state is the unbound one with the level tracked. -/
theorem dmcSync_unbind (t : Nat) (s : State) : dmcSync t s = s.unbind.withWave
    { s.dmc.base with lastAmp := if s.dmc.base.outEn = true then (s.dmc.dac.toNat : Int) else s.dmc.base.lastAmp }
    (if s.dmc.base.outEn = true then
        ⟨s.acc.log ++ deltaAt .dmc t s.dmc.base.lastAmp (s.dmc.dac.toNat : Int),
          s.acc.sum + ((s.dmc.dac.toNat : Int) - s.dmc.base.lastAmp)⟩
      else s.acc) := dmcSync_eq t s

/-- A RUN DMC that completes has a completing unbound run, so that `runDmc_eq` applies. -/
theorem runDmc_goOn_unbind {time endTime : Nat} {s t : State} (h : runDmc time endTime s = .goOn t) :
    ∃ v, dmcEdges s.dmc.period (edges time endTime s.dmc.base.delay s.dmc.period).count (time +
        s.dmc.base.delay) s.unbind = .goOn v := by
  obtain ⟨m, hm, -⟩ := Flow.bind_eq_goOn h
  rw [dmcSync_unbind] at hm
  exact dmcEdges_goOn_of_withWave rfl (by intro ho; have ho : s.dmc.base.outEn = true := ho; simp [ho]; rfl) hm

/-! ### The schedule of the reads (R227 to R230) -/

/-- The shift leaves the countdown, the reader and the interrupt alone. -/
theorem dmcShift_reader (t : Nat) (s : State) :
    (dmcShift t s).dmc.bitsRemain = s.dmc.bitsRemain ∧
      (dmcShift t s).dmc.base.lengthCounter = s.dmc.base.lengthCounter ∧ (dmcShift t s).dmc.bufFull = s.dmc.bufFull ∧
      (dmcShift t s).dmc.buf = s.dmc.buf ∧ (dmcShift t s).dmc.address = s.dmc.address ∧
      (dmcShift t s).dmc.silence = s.dmc.silence ∧ (dmcShift t s).dmc.irqFlag = s.dmc.irqFlag ∧
      (dmcShift t s).dmc.nextIrq = s.dmc.nextIrq ∧ (dmcShift t s).notifications = s.notifications ∧
      (dmcShift t s).memReads = s.memReads ∧ (dmcShift t s).dmc.lastTime = s.dmc.lastTime ∧
      (dmcShift t s).dmc.base.delay = s.dmc.base.delay := by
  have track : ∀ s : State, dmcTrackEdge t s = { s with
      acc := (dmcTrackEdge t s).acc
      dmc := { s.dmc with base := { s.dmc.base with
        lastAmp := (dmcTrackEdge t s).dmc.base.lastAmp, trigger := (dmcTrackEdge t s).dmc.base.trigger } } } := by
    intro s
    cases h : s.dmc.base.outEn
    · simp [dmcTrackEdge, trackEdgeBound_of_unbound h, State.setDmc, State.setAcc]
    · simp [dmcTrackEdge, trackEdgeBound_of_bound h, trackEdge_eq, State.setDmc, State.setAcc]
  by_cases hs : s.dmc.silence = true
  · simp [dmcShift, hs]
  · simp only [dmcShift, hs, Bool.false_eq_true, if_false]
    split
    · rw [track]; simp [State.setDmc]
    · simp [State.setDmc]

/-- The fields of a state that decide when the DMC reads, and what its reads leave. -/
structure ReaderView where
  bitsRemain : Nat
  lengthCounter : Nat
  bufFull : Bool
  irqFlag : Bool
  nextIrq : Option Nat
  notifications : List Notification
  reads : Nat
  deriving DecidableEq, Repr

/-- The reader's view of a state. -/
def State.readerView (s : State) : ReaderView :=
  ⟨s.dmc.bitsRemain, s.dmc.base.lengthCounter, s.dmc.bufFull, s.dmc.irqFlag, s.dmc.nextIrq, s.notifications, s.memReads.length⟩

/-- One edge, as the reader sees it, in a state with the buffer full while bytes are left (R230). -/
theorem dmcEdge_view {s : State} (t : Nat) (hr : s.params.memReaderPresent = true)
    (ready : 0 < s.dmc.base.lengthCounter → s.dmc.bufFull = true) :
    (dmcEdge t s).state.readerView =
      (let v := s.readerView
       if v.bitsRemain - 1 ≠ 0 then { v with bitsRemain := v.bitsRemain - 1 }
       else if v.lengthCounter = 0 then { v with bitsRemain := 8, bufFull := false }
       else if 1 < v.lengthCounter then { v with bitsRemain := 8, lengthCounter := v.lengthCounter - 1, reads := v.reads + 1 }
       else if dmcLoop s.dmc.base.regs.r0 = true then
         { v with bitsRemain := 8, lengthCounter := s.dmc.base.regs.sampleLength, reads := v.reads + 1 }
       else { v with
         bitsRemain := 8, lengthCounter := 0, reads := v.reads + 1, nextIrq := none, irqFlag := v.irqFlag || s.dmc.irqEnabled
         notifications := v.notifications ++ .dmcDisabled :: (if s.dmc.irqEnabled then [.irqChanged] else []) }) := by
  obtain ⟨h1, h2, h3, h4, h5, h6, h7, h8, h9, h10, -, -⟩ := dmcShift_reader t s
  have hf := dmcShift_frame t s
  have hp := dmcRunFrame_params hf
  obtain ⟨-, hregs, -, -, -, hen, -⟩ := hf
  have hv : s.readerView = (dmcShift t s).readerView := by simp [State.readerView, h1, h2, h3, h7, h8, h9, h10]
  rw [← hp] at hr
  rw [← hregs, ← hen, hv, dmcEdge]
  rw [← h2, ← h3] at ready
  generalize dmcShift t s = s at *
  by_cases hb : s.dmc.bitsRemain - 1 = 0
  · cases hbuf : s.dmc.bufFull
    · have h0 : s.dmc.base.lengthCounter = 0 := by
        by_contra hne
        rw [ready (by omega)] at hbuf
        cases hbuf
      rw [dmcCount_empty hb hbuf]
      simp [State.readerView, hb, h0, hbuf]
    · rw [dmcCount_full hb hbuf]
      by_cases h0 : s.dmc.base.lengthCounter = 0
      · rw [fillBuffer_idle (s := s.reloaded) (.inr h0)]
        simp [State.readerView, hb, h0, State.reloaded]
      · by_cases h1 : 1 < s.dmc.base.lengthCounter
        · rw [fillBuffer_more (s := s.reloaded) rfl h1 hr]
          simp [State.readerView, hb, h0, h1, fetchSample, State.reloaded, hbuf]
        · have h1' : s.dmc.base.lengthCounter = 1 := by omega
          cases hl : dmcLoop s.dmc.base.regs.r0
          · rw [fillBuffer_end (s := s.reloaded) rfl h1' hr hl, endSample_eq]
            simp [State.readerView, hb, h1', fetchSample, State.reloaded, hbuf]
          · rw [fillBuffer_loop (s := s.reloaded) rfl h1' hr hl]
            simp [State.readerView, hb, h1', fetchSample, State.reloaded, hbuf, reloadSample]
  · rw [dmcCount_tick hb]
    simp [State.readerView, hb]

/-- How many of the first `n` edges reload the shift register, `r` edges away at first. -/
def reloads (r n : Nat) : Nat := (n + 8 - r) / 8

/-- The reader's view after `n` edges (R227 to R230): `bits_remain` counts modulo 8; one read at each reload edge while bytes are left; a sample
that loops never ends; one that does not ends at the read of its last byte, with the interrupt while enabled. -/
theorem dmcEdges_view {s : State} (p n first : Nat) (hr : s.params.memReaderPresent = true) (h1 : 1 ≤ s.dmc.bitsRemain)
    (h8 : s.dmc.bitsRemain ≤ 8) (ready : 0 < s.dmc.base.lengthCounter → s.dmc.bufFull = true) :
    let t := (dmcEdges p n first s).state
    let q := reloads s.dmc.bitsRemain n
    t.dmc.bitsRemain = (s.dmc.bitsRemain + 7 - n % 8) % 8 + 1 ∧ (0 < t.dmc.base.lengthCounter → t.dmc.bufFull = true) ∧
    (dmcLoop s.dmc.base.regs.r0 = true → 0 < s.dmc.base.lengthCounter →
      0 < t.dmc.base.lengthCounter ∧ t.memReads.length = s.memReads.length + q ∧ t.dmc.irqFlag = s.dmc.irqFlag ∧
      t.dmc.nextIrq = s.dmc.nextIrq ∧ t.notifications = s.notifications) ∧
    (dmcLoop s.dmc.base.regs.r0 = false ∨ s.dmc.base.lengthCounter = 0 →
      t.dmc.base.lengthCounter = s.dmc.base.lengthCounter - q ∧
      t.memReads.length = s.memReads.length + min q s.dmc.base.lengthCounter ∧
      (q < s.dmc.base.lengthCounter ∨ s.dmc.base.lengthCounter = 0 →
        t.dmc.irqFlag = s.dmc.irqFlag ∧ t.dmc.nextIrq = s.dmc.nextIrq ∧ t.notifications = s.notifications) ∧
      (0 < s.dmc.base.lengthCounter → s.dmc.base.lengthCounter ≤ q →
        t.dmc.irqFlag = (s.dmc.irqFlag || s.dmc.irqEnabled) ∧ t.dmc.nextIrq = none ∧
        t.notifications = s.notifications ++ .dmcDisabled :: (if s.dmc.irqEnabled then [.irqChanged] else []))) := by
  induction n with
  | zero =>
    have hq : reloads s.dmc.bitsRemain 0 = 0 := by unfold reloads; omega
    simp only [hq, dmcEdges, Flow.state_goOn]
    refine ⟨by omega, ready, fun _ h => ⟨h, by simp⟩, fun _ => ⟨by simp, by simp, fun _ => by simp, fun h1 h2 => by omega⟩⟩
  | succ n ih =>
    obtain ⟨i1, i2, i3, i4⟩ := ih
    have hgo := dmcEdges_goOn hr p n first
    have hfr := dmcEdges_frame p n first s
    rw [dmcEdges_succ_right, hgo, Flow.bind_goOn]
    generalize (dmcEdges p n first s).state = m at *
    have hpm := dmcRunFrame_params hfr
    obtain ⟨-, hregs, -, -, -, hen, -⟩ := hfr
    have hv := dmcEdge_view (s := m) (first + n * p) (by rw [hpm]; exact hr) i2
    generalize (dmcEdge (first + n * p) m).state = t at *
    rw [hregs, hen] at hv
    by_cases hb : m.dmc.bitsRemain - 1 = 0
    · have hq : reloads s.dmc.bitsRemain (n + 1) = reloads s.dmc.bitsRemain n + 1 := by unfold reloads; omega
      have hbits : (s.dmc.bitsRemain + 7 - (n + 1) % 8) % 8 + 1 = 8 := by omega
      simp only [hq, hbits]
      generalize reloads s.dmc.bitsRemain n = q at *
      by_cases h0 : m.dmc.base.lengthCounter = 0
      · simp [State.readerView, hb, h0] at hv
        obtain ⟨v1, v2, v3, v4, v5, v6, v7⟩ := hv
        simp only [v1, v2, v4, v5, v6, v7]
        refine ⟨trivial, by simp, fun hl hpos => absurd h0 (Nat.pos_iff_ne_zero.mp (i3 hl hpos).1), fun hl => ?_⟩
        obtain ⟨j1, j2, j3, j4⟩ := i4 hl
        refine ⟨by omega, by omega, fun hx => j3 (by omega), fun hx hy => j4 hx (by omega)⟩
      · by_cases h1 : 1 < m.dmc.base.lengthCounter
        · simp [State.readerView, hb, h0, h1] at hv
          obtain ⟨v1, v2, v3, v4, v5, v6, v7⟩ := hv
          simp only [v1, v2, v3, v4, v5, v6, v7]
          refine ⟨trivial, fun _ => i2 (by omega), fun hl hpos => ?_, fun hl => ?_⟩
          · obtain ⟨j1, j2, j3⟩ := i3 hl hpos
            exact ⟨by omega, by omega, j3⟩
          · obtain ⟨j1, j2, j3, j4⟩ := i4 hl
            exact ⟨by omega, by omega, fun hx => j3 (by omega), fun hx hy => by omega⟩
        · have h1' : m.dmc.base.lengthCounter = 1 := by omega
          cases hl : dmcLoop s.dmc.base.regs.r0
          · simp [State.readerView, hb, h1', hl] at hv
            obtain ⟨v1, v2, v3, v4, v5, v6, v7⟩ := hv
            obtain ⟨j1, j2, j3, j4⟩ := i4 (.inl hl)
            obtain ⟨k1, k2, k3⟩ := j3 (by omega)
            simp only [v1, v2, v4, v5, v6, v7, k1, k3]
            refine ⟨trivial, by simp, by simp, fun _ => ⟨by omega, by omega, fun hx => by omega, fun hx hy => ?_⟩⟩
            simp
          · simp [State.readerView, hb, h1', hl] at hv
            obtain ⟨v1, v2, v3, v4, v5, v6, v7⟩ := hv
            simp only [v1, v2, v3, v4, v5, v6, v7]
            refine ⟨trivial, fun _ => i2 (by omega), fun _ hpos => ?_, fun hx => ?_⟩
            · obtain ⟨j1, j2, j3⟩ := i3 hl hpos
              exact ⟨by simp [Regs.sampleLength], by omega, j3⟩
            · have hz : s.dmc.base.lengthCounter = 0 := by
                rcases hx with hx | hx
                · cases hx
                · exact hx
              have := (i4 (.inr hz)).1
              omega
    · have hq : reloads s.dmc.bitsRemain (n + 1) = reloads s.dmc.bitsRemain n := by unfold reloads; omega
      have hbits : (s.dmc.bitsRemain + 7 - (n + 1) % 8) % 8 + 1 = m.dmc.bitsRemain - 1 := by omega
      simp [State.readerView, hb] at hv
      obtain ⟨v1, v2, v3, v4, v5, v6, v7⟩ := hv
      simp only [v1, v2, v3, v4, v5, v6, v7, hq, hbits]
      exact ⟨trivial, i2, i3, i4⟩

/-! ### What a run adds: reads, and at most one end of sample (R220, R287, R288) -/

/-- The end of a sample seen from outside: neither happened, or it happened once and for all. -/
def sampleEnd (s t : State) : Prop :=
  (t.notifications = s.notifications ∧ t.dmc.irqFlag = s.dmc.irqFlag ∧ t.dmc.nextIrq = s.dmc.nextIrq ∧
    (s.dmc.base.lengthCounter = 0 → t.dmc.base.lengthCounter = 0)) ∨
  (s.dmc.base.lengthCounter ≠ 0 ∧ t.dmc.base.lengthCounter = 0 ∧ dmcLoop s.dmc.base.regs.r0 = false ∧
    t.dmc.irqFlag = (s.dmc.irqFlag || s.dmc.irqEnabled) ∧ t.dmc.nextIrq = none ∧
    t.notifications = s.notifications ++ .dmcDisabled :: (if s.dmc.irqEnabled then [.irqChanged] else []))

theorem sampleEnd_refl (s : State) : sampleEnd s s := .inl ⟨rfl, rfl, rfl, id⟩

theorem sampleEnd_trans {s m t : State} (hf : dmcRunFrame s m) (h : sampleEnd s m) (k : sampleEnd m t) : sampleEnd s t := by
  obtain ⟨-, hregs, -, -, -, hen, -⟩ := hf
  rcases h with ⟨h1, h2, h3, h4⟩ | ⟨h1, h2, h3, h4, h5, h6⟩
  · rcases k with ⟨k1, k2, k3, k4⟩ | ⟨k1, k2, k3, k4, k5, k6⟩
    · exact .inl ⟨k1.trans h1, k2.trans h2, k3.trans h3, fun h => k4 (h4 h)⟩
    · rw [hregs] at k3
      rw [hen, h2] at k4
      rw [hen, h1] at k6
      exact .inr ⟨fun h => k1 (h4 h), k2, k3, k4, k5, k6⟩
  · rcases k with ⟨k1, k2, k3, k4⟩ | ⟨k1, -⟩
    · exact .inr ⟨h1, k4 h2, h3, k2.trans h4, k3.trans h5, k1.trans h6⟩
    · exact absurd h2 k1

theorem fillBuffer_sampleEnd (s : State) : sampleEnd s (fillBuffer s).state := by
  rcases fillBuffer_cases s with h | h | h | h | h
  · rw [h.2]; exact sampleEnd_refl s
  · rw [h.2.2.2]; exact sampleEnd_refl s
  · rw [h.2.2.2]; exact .inl ⟨rfl, rfl, rfl, fun h0 => by omega⟩
  · rw [h.2.2.2.2]; exact .inl ⟨rfl, rfl, rfl, fun h0 => by omega⟩
  · rw [h.2.2.2.2, endSample_eq]
    refine .inr ⟨by omega, ?_, h.2.2.2.1, rfl, rfl, rfl⟩
    show s.dmc.base.lengthCounter - 1 = 0
    omega

theorem fillBuffer_reads (s : State) : ∃ new, (fillBuffer s).state.memReads = s.memReads ++ new := by
  rcases fillBuffer_cases s with h | h | h | h | h
  · exact ⟨[], by rw [h.2]; simp⟩
  · exact ⟨[], by rw [h.2.2.2]; simp⟩
  · exact ⟨_, by rw [h.2.2.2]; rfl⟩
  · exact ⟨_, by rw [h.2.2.2.2]; rfl⟩
  · exact ⟨_, by rw [h.2.2.2.2, endSample_eq]; rfl⟩

theorem dmcCount_adds (s : State) :
    sampleEnd s (dmcCount s).state ∧ ∃ new, (dmcCount s).state.memReads = s.memReads ++ new := by
  by_cases h : s.dmc.bitsRemain - 1 = 0
  · cases hb : s.dmc.bufFull
    · rw [dmcCount_empty h hb]; exact ⟨.inl ⟨rfl, rfl, rfl, id⟩, [], by simp⟩
    · rw [dmcCount_full h hb]; exact ⟨fillBuffer_sampleEnd s.reloaded, fillBuffer_reads s.reloaded⟩
  · rw [dmcCount_tick h]; exact ⟨.inl ⟨rfl, rfl, rfl, id⟩, [], by simp⟩

theorem dmcEdge_adds (t : Nat) (s : State) :
    sampleEnd s (dmcEdge t s).state ∧ ∃ new, (dmcEdge t s).state.memReads = s.memReads ++ new := by
  obtain ⟨-, h2, -, -, -, -, h7, h8, h9, h10, -, -⟩ := dmcShift_reader t s
  have hf := dmcShift_frame t s
  obtain ⟨k1, k2⟩ := dmcCount_adds (dmcShift t s)
  rw [h10] at k2
  exact ⟨sampleEnd_trans hf (.inl ⟨h9, h7, h8, fun h => h2.trans h⟩) k1, k2⟩

theorem dmcEdges_adds (p n t : Nat) (s : State) :
    sampleEnd s (dmcEdges p n t s).state ∧ ∃ new, (dmcEdges p n t s).state.memReads = s.memReads ++ new := by
  induction n generalizing t s with
  | zero => exact ⟨sampleEnd_refl s, [], by simp [dmcEdges]⟩
  | succ n ih =>
    have h1 := dmcEdge_adds t s
    have hf := dmcEdge_frame t s
    simp only [dmcEdges]
    cases h : dmcEdge t s with
    | fatal m => rw [h] at h1; exact h1
    | goOn m =>
      rw [h] at h1 hf
      obtain ⟨k1, new, k2⟩ := h1
      obtain ⟨j1, new', j2⟩ := ih (t + p) m
      refine ⟨sampleEnd_trans hf k1 j1, new ++ new', ?_⟩
      rw [Flow.bind_goOn, j2]
      show m.memReads ++ new' = _
      rw [show m.memReads = s.memReads ++ new from k2, List.append_assoc]

theorem runDmc_adds (time endTime : Nat) (s : State) :
    sampleEnd s (runDmc time endTime s).state ∧ ∃ new, (runDmc time endTime s).state.memReads = s.memReads ++ new := by
  have h := dmcEdges_adds s.dmc.period (edges time endTime s.dmc.base.delay s.dmc.period).count (time + s.dmc.base.delay) (dmcSync
      time s)
  have hs := dmcSync_eq time s
  have h0 : sampleEnd s (dmcSync time s) ∧ (dmcSync time
      s).memReads = s.memReads := by rw [hs]; exact ⟨.inl ⟨rfl, rfl, rfl, id⟩, rfl⟩
  have h1 := sampleEnd_trans (dmcSync_frame time s) h0.1 h.1
  rw [h0.2] at h
  simp only [runDmc, edges_period, edges_first]
  cases hg : dmcEdges s.dmc.period (edges time endTime s.dmc.base.delay s.dmc.period).count (time + s.dmc.base.delay) (dmcSync time
      s) with
  | fatal m => rw [hg] at h h1; exact ⟨h1, h.2⟩
  | goOn m => rw [hg] at h h1; exact ⟨h1, h.2⟩

/-! ### A run that needs no reader is the run with one (R228) -/

/-- The copy of a state that has a reader. -/
def State.withReader (s : State) : State := { s with params := { s.params with memReaderPresent := true } }

theorem State.withReader_of_present {s : State} (h : s.params.memReaderPresent = true) : s.withReader = s := by
  simp only [State.withReader, ← h]

theorem fillBuffer_withReader {s v : State} (h : fillBuffer s = .goOn v) : fillBuffer s.withReader = .goOn v.withReader := by
  rcases fillBuffer_cases s with k | k | k | k | k
  · rw [k.2] at h
    cases h
    exact fillBuffer_idle (s := s.withReader) k.1
  · rw [k.2.2.2] at h
    cases h
  all_goals
    have hv := dmcRunFrame_params (fillBuffer_frame s)
    rw [h] at hv
    have hr : v.params.memReaderPresent = true := by rw [show v.params = s.params from hv]; exact k.2.2.1
    rw [State.withReader_of_present k.2.2.1, State.withReader_of_present hr, h]

theorem dmcEdge_withReader {t : Nat} {s v : State} (h : dmcEdge t s = .goOn v) : dmcEdge t s.withReader = .goOn v.withReader := by
  have hshift : dmcShift t s.withReader = (dmcShift t s).withReader := by
    by_cases hs : s.dmc.silence = true
    · simp [dmcShift, State.withReader, hs]
    · by_cases hr : 0 ≤ dacTarget s.dmc.dac (s.dmc.bits.getLsbD 0) ∧ dacTarget s.dmc.dac (s.dmc.bits.getLsbD 0) ≤ 127
      · simp only [dmcShift, State.withReader, hs, if_false, if_pos hr, Bool.false_eq_true]
        rfl
      · simp only [dmcShift, State.withReader, hs, if_false, if_neg hr, Bool.false_eq_true]
        rfl
  rw [dmcEdge] at h ⊢
  rw [hshift]
  generalize dmcShift t s = m at *
  by_cases hb : m.dmc.bitsRemain - 1 = 0
  · cases hbuf : m.dmc.bufFull
    · rw [dmcCount_empty hb hbuf] at h
      rw [dmcCount_empty (s := m.withReader) hb hbuf]
      cases h
      rfl
    · rw [dmcCount_full hb hbuf] at h
      rw [dmcCount_full (s := m.withReader) hb hbuf]
      exact fillBuffer_withReader h
  · rw [dmcCount_tick hb] at h
    rw [dmcCount_tick (s := m.withReader) hb]
    cases h
    rfl

theorem dmcEdges_withReader {p n t : Nat} {s v : State} (h : dmcEdges p n t s = .goOn v) :
    dmcEdges p n t s.withReader = .goOn v.withReader := by
  induction n generalizing t s with
  | zero => cases h; rfl
  | succ n ih =>
    obtain ⟨m, hm, hv⟩ := Flow.bind_eq_goOn h
    simp only [dmcEdges, dmcEdge_withReader hm, Flow.bind_goOn]
    exact ih hv

end Sys2Proof.Machine
end

