-- ==== Sys2Proof/Laws/DmcExec.lean ====
section
/-! SUPPORT. The commands of the sample player as `exec` answers them, the way a run depends on the state, and what its edges keep. -/

namespace Sys2Proof.Machine

open Sys2Proof.Claims

/-! ### RUN DMC (R227) -/

/-- RUN DMC over a non-empty window. -/
theorem exec_runDmc {time endTime : Nat} {s : State} (h : time < endTime) :
   exec (.runDmc time endTime) s = (runDmc time endTime (s.clearTrigger .dmc)).toResult := by
  have h1 : ¬ time > endTime := by omega
  have h2 : ¬ time = endTime := by omega
  simp [exec, execRunDmc, runWindow, h1, h2]

/-- The next state of a RUN DMC that completes. -/
theorem exec_runDmc_eq {time endTime : Nat} {s v : State} (h : time < endTime)
   (hv : dmcEdges s.dmc.period (edges time endTime s.dmc.base.delay s.dmc.period).count (time + s.dmc.base.delay) s.unbind = .goOn
       v) :
   exec (.runDmc time endTime) s = .next (
      let e := edges time endTime s.dmc.base.delay s.dmc.period
      let level := dmcLevel s.dmc.period e.first s.unbind
      let w := v.withWave { s.dmc.base with
          lastAmp := if s.dmc.base.outEn = true then level e.count else s.dmc.base.lastAmp
          trigger := s.dmc.base.outEn && waveRises e.count level } (if s.dmc.base.outEn = true then waveAcc s.acc .dmc time e.first e.period e.count s.dmc.base.lastAmp level else s.acc)
      { w with dmc := { w.dmc with base := { w.dmc.base with delay := e.carry }, lastTime := endTime } }) := by
  rw [exec_runDmc h, runDmc_eq (s := s.clearTrigger .dmc) hv]
  rfl

/-- The next state of a RUN DMC that completes, with the waveform in the words of the statements. -/
theorem exec_runDmc_wave {time endTime : Nat} {s v : State} (h : time < endTime)
   (hv : dmcEdges s.dmc.period (edges time endTime s.dmc.base.delay s.dmc.period).count (time + s.dmc.base.delay) s.unbind = .goOn
       v) :
   exec (.runDmc time endTime) s = .next (
      let e := edges time endTime s.dmc.base.delay s.dmc.period
      let level := dmcLevel s.dmc.period e.first s.unbind
      { v with acc := if s.dmc.base.outEn = true then waveAcc s.acc .dmc time e.first e.period e.count s.dmc.base.lastAmp level else s.acc
               dmc := { v.dmc with
                 lastTime := endTime
                 base := waveBase { v.dmc.base with lastAmp := s.dmc.base.lastAmp, outEn := s.dmc.base.outEn } e.carry e.count level } }) := by
  rw [exec_runDmc_eq h hv]; rfl

theorem unbound_edges_frame {p n first : Nat} {s v : State} (hv : dmcEdges p n first s.unbind = .goOn v) :
    dmcRunFrame s.unbind v := by
  have := dmcEdges_frame p n first s.unbind
  rw [hv] at this; exact this

/-- The fields of that next state. -/
theorem exec_runDmc_fields {time endTime n first : Nat} {s v : State} (h : time < endTime)
    (hn : (edges time endTime s.dmc.base.delay s.dmc.period).count = n) (hfirst : time + s.dmc.base.delay = first)
    (hv : dmcEdges s.dmc.period n first s.unbind = .goOn v) :
    ∃ t, exec (.runDmc time endTime) s = .next t ∧ dmcRunFrame s t ∧
      t.dmc.base.delay = (edges time endTime s.dmc.base.delay s.dmc.period).carry ∧ t.dmc.lastTime = endTime ∧
      t.dmc.dac = v.dmc.dac ∧ t.dmc.bits = v.dmc.bits ∧ t.dmc.buf = v.dmc.buf ∧ t.dmc.bufFull = v.dmc.bufFull ∧ t.dmc.silence = v.dmc.silence ∧
      t.dmc.address = v.dmc.address ∧ t.dmc.bitsRemain = v.dmc.bitsRemain ∧ t.dmc.irqFlag = v.dmc.irqFlag ∧ t.dmc.nextIrq = v.dmc.nextIrq ∧
      t.dmc.base.lengthCounter = v.dmc.base.lengthCounter ∧ t.memReads = v.memReads ∧ t.notifications = v.notifications ∧
      t.dmc.base.lastAmp = (if s.dmc.base.outEn = true then dmcLevel s.dmc.period first s.unbind n else s.dmc.base.lastAmp) ∧
      t.dmc.base.trigger = (s.dmc.base.outEn && waveRises n (dmcLevel s.dmc.period first s.unbind)) ∧
      t.acc = (if s.dmc.base.outEn = true then waveAcc s.acc .dmc time first s.dmc.period n s.dmc.base.lastAmp (dmcLevel
          s.dmc.period first s.unbind) else s.acc) := by
  subst hn hfirst
  have hf := unbound_edges_frame hv
  refine ⟨_, exec_runDmc_eq h hv, ?_, rfl, rfl, rfl, rfl, rfl, rfl, rfl, rfl, rfl, rfl, rfl, rfl, rfl, rfl, rfl, rfl, rfl⟩
  obtain ⟨h0, h1⟩ := hf
  refine ⟨?_, h1.1, h1.2.1, rfl, h1.2.2.2⟩
  rw [h0]; rfl

/-- The state with another `delay` and `last_time`. -/
def State.withClock (u : State) (d l : Nat) : State :=
  { u with dmc := { u.dmc with base := { u.dmc.base with delay := d }, lastTime := l } }

theorem fillBuffer_withClock (u : State) (d l : Nat) : fillBuffer (State.withClock u d l) = (fillBuffer u).map
    (State.withClock · d l) := by
  rcases fillBuffer_cases u with h | h | h | h | h
  · rw [h.2, fillBuffer_idle (s := State.withClock u d l) h.1]; rfl
  · rw [h.2.2.2, fillBuffer_fatal (s := State.withClock u d l) h.1 h.2.1 h.2.2.1]; rfl
  · rw [h.2.2.2, fillBuffer_more (s := State.withClock u d l) h.1 h.2.1 h.2.2.1]; rfl
  · rw [h.2.2.2.2, fillBuffer_loop (s := State.withClock u d l) h.1 h.2.1 h.2.2.1 h.2.2.2.1]; rfl
  · rw [h.2.2.2.2, fillBuffer_end (s := State.withClock u d l) h.1 h.2.1 h.2.2.1 h.2.2.2.1, endSample_eq, endSample_eq]; rfl

theorem dmcCount_withClock (u : State) (d l : Nat) : dmcCount (State.withClock u d l) = (dmcCount u).map (State.withClock · d l) :=
    by
  by_cases h : u.dmc.bitsRemain - 1 = 0
  · cases hb : u.dmc.bufFull
    · rw [dmcCount_empty (s := State.withClock u d l) h hb, dmcCount_empty h hb]; rfl
    · rw [dmcCount_full (s := State.withClock u d l) h hb, dmcCount_full h hb]
      exact fillBuffer_withClock u.reloaded d l
  · rw [dmcCount_tick (s := State.withClock u d l) h, dmcCount_tick h]; rfl

theorem dmcEdge_withClock (t : Nat) (u : State) (d l : Nat) (hu : u.dmc.base.outEn = false) :
    dmcEdge t (State.withClock u d l) = (dmcEdge t u).map (State.withClock · d l) := by
  rw [dmcEdge, dmcEdge, dmcShift_eq t (State.withClock u d l) (by
      intro h; rw [show (State.withClock u d l).dmc.base.outEn = u.dmc.base.outEn from rfl, hu] at h; cases h),
      dmcShift_eq t u (by simp [hu]), ← dmcCount_withClock]
  rfl

/-- The edges read neither `delay` nor `last_time`. -/
theorem dmcEdges_withClock (p n first : Nat) (u : State) (d l : Nat) (hu : u.dmc.base.outEn = false) :
    dmcEdges p n first (State.withClock u d l) = (dmcEdges p n first u).map (State.withClock · d l) := by
  induction n generalizing first u with
  | zero => rfl
  | succ n ih =>
    simp only [dmcEdges]
    rw [dmcEdge_withClock _ _ _ _ hu]
    have hf := dmcEdge_frame first u
    cases h : dmcEdge first u with
    | fatal m => rfl
    | goOn m =>
      rw [h] at hf
      exact ih _ m (hf.2.2.2.1.trans hu)

theorem unbound_edges_unbind {p n first : Nat} {s v : State} (h : dmcEdges p n first s.unbind = .goOn v) : v.unbind = v := by
  have k := dmcEdges_withWave (u := s.unbind) (v := v) (p := p) (n := n) (first := first) s.unbind.dmc.base ⟨[], 0⟩ rfl (by
      intro h; cases h) h
  have e : s.unbind.withWave s.unbind.dmc.base ⟨[], 0⟩ = s.unbind := rfl
  rw [e, h] at k
  injection k with k
  rw [k]; rfl

/-! ### The edges before the reload step (R227) -/

theorem dacAfter_le (c : Dmc) (k : Nat) : dacAfter c k ≤ 127 := by
  induction k with
  | zero => have := c.dac.isLt; simp only [dacAfter]; omega
  | succ k ih => simp only [dacAfter, dacStep]; split <;> (try split) <;> (try split) <;> omega

@[simp] theorem dacAfter_unbind (s : State) (k : Nat) : dacAfter s.unbind.dmc k = dacAfter s.dmc k := by
  induction k with
  | zero => rfl
  | succ k ih => rw [dacAfter, ih]; rfl

@[simp] theorem dmcLevels_unbind (s : State) : dmcLevels s.unbind.dmc = dmcLevels s.dmc := by
  funext k; rw [dmcLevels, dacAfter_unbind]; rfl

/-- The unbound state after `n` edges that do not reach the reload step. -/
def State.shifted (u : State) (n : Nat) : State := { u with dmc := { u.dmc with
  dac := BitVec.ofNat 7 (dacAfter u.dmc n)
  bits := if u.dmc.silence = true then u.dmc.bits else u.dmc.bits >>> n
  bitsRemain := u.dmc.bitsRemain - n } }

theorem State.shifted_zero (u : State) : u.shifted 0 = u := by
  have : BitVec.ofNat 7 u.dmc.dac.toNat = u.dmc.dac := by simp
  simp [State.shifted, dacAfter, this]

/-- The level after the shift of the edge that follows `n` edges. -/
theorem shifted_shiftedDac (u : State) (n : Nat) : (u.shifted n).dmc.shiftedDac.toNat = dacAfter u.dmc (n + 1) := by
  have h : (u.shifted n).dmc.dac.toNat = dacAfter u.dmc n := by
    have := dacAfter_le u.dmc n
    simp [State.shifted]; omega
  rw [Dmc.shiftedDac_toNat, h]
  cases hs : u.dmc.silence <;> simp [State.shifted, hs, dacAfter, dacStep, bit_eq]

/-- The shift of the edge that follows `n` edges, on an unbound channel. -/
theorem shifted_dmcShift {u : State} (hu : u.dmc.base.outEn = false) (t n : Nat) : dmcShift t (u.shifted n) =
    { u.shifted (n + 1) with dmc := { (u.shifted (n + 1)).dmc with bitsRemain := u.dmc.bitsRemain - n } } := by
  have hd : (u.shifted n).dmc.shiftedDac = BitVec.ofNat 7 (dacAfter u.dmc (n + 1)) := by
    apply BitVec.eq_of_toNat_eq
    have := dacAfter_le u.dmc (n + 1)
    rw [shifted_shiftedDac]; simp; omega
  rw [dmcShift_eq t (u.shifted n) (by intro h; rw [show (u.shifted n).dmc.base.outEn = u.dmc.base.outEn from rfl, hu] at h; cases h), hd]
  cases hs : u.dmc.silence <;> simp [State.shifted, hu, hs, BitVec.shiftRight_add] <;> rw [← hu]

/-- The edges of an unbound channel before its reload step, whole; they need no reader. -/
theorem dmcEdges_beforeReload {u : State} (hu : u.dmc.base.outEn = false) (p first : Nat) {n : Nat} (h : n < u.dmc.bitsRemain) :
    dmcEdges p n first u = .goOn (u.shifted n) := by
  induction n with
  | zero => rw [State.shifted_zero]; rfl
  | succ n ih =>
    rw [dmcEdges_succ_right, ih (by omega), Flow.bind_goOn, dmcEdge, shifted_dmcShift hu, dmcCount_tick (by
      show u.dmc.bitsRemain - n - 1 ≠ 0; omega)]
    rfl

theorem dmcLevel_beforeReload {u : State} (hu : u.dmc.base.outEn = false) (p first : Nat) {n : Nat} (h : n ≤ u.dmc.bitsRemain) :
    dmcLevel p first u n = dmcLevels u.dmc n := by
  cases n with
  | zero => rfl
  | succ n =>
    rw [dmcLevel, dmcEdges_succ_right, dmcEdges_beforeReload hu p first (by omega), Flow.bind_goOn,
      dmcEdge_dac _ _ (by intro ho; rw [show (u.shifted n).dmc.base.outEn = u.dmc.base.outEn from rfl, hu] at ho; cases ho),
      shifted_shiftedDac]
    rfl

/-- Without a reader, with bytes left and the buffer full, the edge of the reload step stops the edges (R281). -/
theorem dmcEdges_noReader {u : State} (hu : u.dmc.base.outEn = false) (p first : Nat) (h1 : 1 ≤ u.dmc.bitsRemain)
    (hr : u.params.memReaderPresent = false) (hb : u.dmc.bufFull = true) (hl : 0 < u.dmc.base.lengthCounter) :
    dmcEdges p u.dmc.bitsRemain first u = .fatal (u.shifted u.dmc.bitsRemain).reloaded := by
  obtain ⟨r, e⟩ : ∃ r, u.dmc.bitsRemain = r + 1 := ⟨u.dmc.bitsRemain - 1, by omega⟩
  rw [e, dmcEdges_succ_right, dmcEdges_beforeReload hu p first (by omega), Flow.bind_goOn, dmcEdge, shifted_dmcShift hu,
    dmcCount_full (by show u.dmc.bitsRemain - r - 1 = 0; omega) (by exact hb)]
  exact fillBuffer_fatal rfl hl hr

/-! ### Stops (R281) -/

theorem toResult_cases (f : Flow) : (∃ t, f = .goOn t ∧ f.toResult = .next t) ∨ (∃ m, f = .fatal m ∧ f.toResult =
    .fault (.noMemReader { m with faulted := true })) := by
  cases f with
  | goOn s => exact .inl ⟨s, rfl, rfl⟩
  | fatal s => exact .inr ⟨s, rfl, rfl⟩

theorem frame_othersSame {s t : State} (h : dmcRunFrame s t) : othersSame .dmc s t ∧ t.params = s.params ∧ t.faulted = s.faulted :=
    by
  rw [h.1]; simp [othersSame]

/-- Only a missing reader stops the edges, before any read. -/
theorem dmcEdges_fatal {p n t : Nat} {s m : State} (h : dmcEdges p n t s = .fatal m) : s.params.memReaderPresent = false ∧
    m.memReads = s.memReads := by
  have hr : s.params.memReaderPresent = false := by
    cases hp : s.params.memReaderPresent
    · rfl
    · rw [dmcEdges_goOn hp] at h; cases h
  refine ⟨hr, ?_⟩
  have keep : ∀ u : State, u.params.memReaderPresent = false → (fillBuffer u).state.memReads = u.memReads := by
    intro u hu
    rcases fillBuffer_cases u with h | h | h | h | h
    · rw [h.2]; rfl
    · rw [h.2.2.2]; rfl
    all_goals exact absurd h.2.2.1 (by simp [hu])
  have keepE : ∀ (t : Nat) (u : State), u.params.memReaderPresent = false → (dmcEdge t u).state.memReads = u.memReads := by
    intro t u hu
    have hs := dmcShift_reader t u
    have hf := dmcRunFrame_params (dmcShift_frame t u)
    rw [dmcEdge]
    generalize dmcShift t u = w at *
    rw [← hs.2.2.2.2.2.2.2.2.2.1]
    by_cases hb : w.dmc.bitsRemain - 1 = 0
    · cases hbuf : w.dmc.bufFull
      · rw [dmcCount_empty hb hbuf]; rfl
      · rw [dmcCount_full hb hbuf]; exact keep w.reloaded (by rw [show w.reloaded.params = w.params from rfl, hf]; exact hu)
    · rw [dmcCount_tick hb]; rfl
  have all : ∀ n t (u : State), u.params.memReaderPresent = false → (dmcEdges p n t u).state.memReads = u.memReads := by
    intro n
    induction n with
    | zero => intro t u _; rfl
    | succ n ih =>
      intro t u hu
      have h1 := keepE t u hu
      have hf := dmcRunFrame_params (dmcEdge_frame t u)
      simp only [dmcEdges]
      cases he : dmcEdge t u with
      | fatal m => rw [he] at h1; exact h1
      | goOn m =>
        rw [he] at h1 hf
        rw [Flow.bind_goOn, ih _ m (by rw [show m.params = u.params from hf]; exact hu)]; exact h1
  have := all n t s hr
  rw [h] at this; exact this

/-! ### What decides a run -/

/-- Two states with the same DMC, parameters, memory and reads. -/
def sameDmc (u u' : State) : Prop := u'.dmc = u.dmc ∧ u'.params = u.params ∧ u'.mem = u.mem ∧ u'.memReads = u.memReads

theorem fillBuffer_sameDmc {u u' v : State} (h : sameDmc u u') (hv : fillBuffer u = .goOn v) : ∃ v', fillBuffer u' = .goOn v' ∧
    sameDmc v v' := by
  obtain ⟨h1, h2, h3, h4⟩ := h
  have fetch : sameDmc (fetchSample u) (fetchSample u') := by
    simp [sameDmc, fetchSample, State.memRead, State.readerAnswer, h1, h2, h3, h4]
  rcases fillBuffer_cases u with k | k | k | k | k
  · rw [k.2] at hv; cases hv
    exact ⟨u', fillBuffer_idle (by rw [h1]; exact k.1), h1, h2, h3, h4⟩
  · rw [k.2.2.2] at hv; cases hv
  · rw [k.2.2.2] at hv; cases hv
    exact ⟨_, fillBuffer_more (by rw [h1]; exact k.1) (by rw [h1]; exact k.2.1) (by rw [h2]; exact k.2.2.1), fetch⟩
  · rw [k.2.2.2.2] at hv; cases hv
    refine ⟨_, fillBuffer_loop (by rw [h1]; exact k.1) (by rw [h1]; exact k.2.1) (by rw [h2]; exact k.2.2.1) (by rw [h1]; exact k.2.2.2.1), ?_⟩
    obtain ⟨f1, f2, f3, f4⟩ := fetch
    simp [sameDmc, reloadSample, f1, f2, f3, f4]
  · rw [k.2.2.2.2] at hv; cases hv
    refine ⟨_, fillBuffer_end (by rw [h1]; exact k.1) (by rw [h1]; exact k.2.1) (by rw [h2]; exact k.2.2.1) (by rw [h1]; exact k.2.2.2.1), ?_⟩
    obtain ⟨f1, f2, f3, f4⟩ := fetch
    rw [endSample_eq, endSample_eq]
    simp [sameDmc, f1, f2, f3, f4]

theorem dmcEdge_sameDmc {t : Nat} {u u' v : State} (hu : u.dmc.base.outEn = false) (h : sameDmc u u') (hv : dmcEdge t u =
    .goOn v) : ∃ v', dmcEdge t u' = .goOn v' ∧ sameDmc v v' := by
  obtain ⟨h1, h2, h3, h4⟩ := h
  have hs : sameDmc (dmcShift t u) (dmcShift t u') := by
    rw [dmcShift_eq t u (by simp [hu]), dmcShift_eq t u' (by simp [h1, hu])]
    simp [sameDmc, h1, h2, h3, h4]
  rw [dmcEdge] at hv ⊢
  generalize dmcShift t u = w at *
  generalize dmcShift t u' = w' at *
  obtain ⟨h1, h2, h3, h4⟩ := hs
  by_cases hb : w.dmc.bitsRemain - 1 = 0
  · cases hbuf : w.dmc.bufFull
    · rw [dmcCount_empty hb hbuf] at hv
      rw [dmcCount_empty (s := w') (by rw [h1]; exact hb) (by rw [h1]; exact hbuf)]
      cases hv
      refine ⟨_, rfl, ?_⟩
      simp [sameDmc, h1, h2, h3, h4]
    · rw [dmcCount_full hb hbuf] at hv
      rw [dmcCount_full (s := w') (by rw [h1]; exact hb) (by rw [h1]; exact hbuf)]
      refine fillBuffer_sameDmc ?_ hv
      simp [sameDmc, State.reloaded, h1, h2, h3, h4]
  · rw [dmcCount_tick hb] at hv
    rw [dmcCount_tick (s := w') (by rw [h1]; exact hb)]
    cases hv
    refine ⟨_, rfl, ?_⟩
    simp [sameDmc, h1, h2, h3, h4]

/-- The edges of an unbound DMC depend on the DMC, the parameters and the memory alone. -/
theorem dmcEdges_sameDmc {p n t : Nat} {u u' v : State} (hu : u.dmc.base.outEn = false) (h : sameDmc u u') (hv : dmcEdges p n t u =
    .goOn v) : ∃ v', dmcEdges p n t u' = .goOn v' ∧ sameDmc v v' := by
  induction n generalizing t u u' with
  | zero => cases hv; exact ⟨u', rfl, h⟩
  | succ n ih =>
    obtain ⟨m, hm, hv⟩ := Flow.bind_eq_goOn hv
    obtain ⟨m', hm', hs⟩ := dmcEdge_sameDmc hu h hm
    have hmu : m.dmc.base.outEn = false := by
      have := (dmcEdge_frame t u).2.2.2.1
      rw [hm] at this; exact this.trans hu
    simp only [dmcEdges, hm', Flow.bind_goOn]
    exact ih hmu hs hv

/-! ### Reads and the schedule (R222, R228) -/

theorem dmcSync_withReader (t : Nat) (s : State) : dmcSync t s.withReader = (dmcSync t s).withReader := by
  rw [dmcSync_eq, dmcSync_eq]; rfl

theorem runDmc_memReads {a b : Nat} {s : State} (hr : s.params.memReaderPresent = true) :
   (runDmc a b s).state.memReads = (dmcEdges s.dmc.period (edges a b s.dmc.base.delay s.dmc.period).count (a + s.dmc.base.delay)
       s.unbind).state.memReads := by
  have hv := dmcEdges_goOn (s := s.unbind) hr s.dmc.period (edges a b s.dmc.base.delay s.dmc.period).count (a + s.dmc.base.delay)
  rw [runDmc_eq hv]
  rfl

/-- The count CNTRD answers (R228). -/
theorem readsBy_eq (t : Nat) (s : State) : readsBy t s = if t ≤ s.dmc.lastTime then 0 else
    (dmcEdges s.dmc.period (edges s.dmc.lastTime t s.dmc.base.delay s.dmc.period).count (s.dmc.lastTime + s.dmc.base.delay)
        s.withReader.unbind).state.memReads.length - s.memReads.length := by
  have h : readsBy t s = if t ≤ s.dmc.lastTime then 0 else (runDmc s.dmc.lastTime t
      s.withReader).state.memReads.length - s.memReads.length := rfl
  rw [h, runDmc_memReads (s := s.withReader) rfl]
  rfl

theorem reloads_iff (r n L : Nat) (hL : 0 < L) : L ≤ reloads r n ↔ 8 * (L - 1) + r ≤ n := by
  unfold reloads; omega

theorem exec_runDmc_adds {time endTime : Nat} {s t : State} (h : exec (.runDmc time endTime) s = .next t) : sampleEnd s t := by
  rcases window_cases time endTime with hc | hc | hc
  · have := exec_runOf_reversed (ch := .dmc) (s := s) hc; simp only [runOf] at this; rw [this] at h; cases h; exact .inl ⟨rfl, rfl,
      rfl, id⟩
  · subst hc; have := exec_runOf_empty (ch := .dmc) (time := time) (s :=
      s); simp only [runOf] at this; rw [this] at h; cases h; exact .inl ⟨rfl, rfl, rfl, id⟩
  · rw [exec_runDmc hc] at h
    have := (runDmc_adds time endTime (s.clearTrigger .dmc)).1
    rw [Flow.toResult_eq_next h] at this
    exact this

theorem exec_dmcStart_adds {s t : State} (h : exec .dmcStart s = .next t) : ∃ m, sampleEnd (reloadSample s) m ∧ t = recalcIrq m ∧
    dmcRunFrame (reloadSample s) m := by
    have hg := Flow.toResult_eq_next h
    obtain ⟨m, hm, hr⟩ := Flow.bind_eq_goOn hg
    have hf := fillBuffer_frame (reloadSample s)
    have he := fillBuffer_sampleEnd (reloadSample s)
    rw [hm] at he hf
    cases hr
    exact ⟨m, he, rfl, hf⟩

/-- A RUN DMC while unbound keeps the parked level, `last_amp` and the accumulator (R231). -/
theorem runDmc_unbound_keeps {a b : Nat} {s t : State} (ho : s.dmc.base.outEn = false) (h : exec (.runDmc a b) s = .next t) :
    t.dmc.pausedDac = s.dmc.pausedDac ∧ t.dmc.base.lastAmp = s.dmc.base.lastAmp ∧ t.dmc.base.outEn = false ∧ t.acc = s.acc := by
  rcases window_cases a b with hc | hc | hc
  · have := exec_runOf_reversed (ch := .dmc) (s := s) hc; simp only [runOf] at this; rw [this] at h; cases h; exact ⟨rfl, rfl, ho,
      rfl⟩
  · subst hc; have := exec_runOf_empty (ch := .dmc) (time := a) (s :=
      s); simp only [runOf] at this; rw [this] at h; cases h; exact ⟨rfl, rfl, ho, rfl⟩
  · have h' := h
    rw [exec_runDmc hc] at h
    obtain ⟨v, hv⟩ := runDmc_goOn_unbind (Flow.toResult_eq_next h)
    obtain ⟨t', t1, t2, t3, t4, t5, t6, t7, t8, t9, t10, t11, t12, t13, t14, t15, t16, t17, t18, t19⟩ := exec_runDmc_fields (s :=
        s) hc rfl rfl hv
    rw [h'] at t1; cases t1
    exact ⟨t2.2.2.2.2.2.2, by simpa [ho] using t17, t2.2.2.2.1.trans ho, by simpa [ho] using t19⟩

/-! ### What the edges keep (R25, R37, R230, R288) -/

/-- The byte count in its range, a flag only while enabled. -/
def dmcCountOk (s : State) : Prop := s.dmc.base.lengthCounter ≤ 4081 ∧ (s.dmc.irqFlag = true → s.dmc.irqEnabled = true)

/-- A prediction exactly while an interrupt is due (R288). -/
def dmcScheduleOk (s : State) : Prop := s.dmc.nextIrq.isSome = true ↔ (s.dmc.irqEnabled = true ∧ s.dmc.base.lengthCounter > 0)

theorem Regs.sampleLength_le (r : Regs) : r.sampleLength ≤ 4081 := by
  unfold Regs.sampleLength; have := r.r3.isLt; omega

theorem fillBuffer_keepsOk {s t : State} (hq : dmcCountOk s) (h : fillBuffer s = .goOn t) : dmcCountOk t ∧
    (t.dmc.base.lengthCounter > 0 → t.dmc.bufFull = true) ∧ (dmcScheduleOk s → dmcScheduleOk t) ∧ t.dmc.bitsRemain =
    s.dmc.bitsRemain := by
  obtain ⟨q1, q2⟩ := hq
  rcases fillBuffer_cases s with k | k | k | k | k
  · rw [k.2] at h; cases h
    refine ⟨⟨q1, q2⟩, fun hl => ?_, id, rfl⟩
    rcases k.1 with k | k
    · exact k
    · omega
  · rw [k.2.2.2] at h; cases h
  · rw [k.2.2.2] at h; cases h
    refine ⟨⟨?_, q2⟩, fun _ => rfl, fun hd => ?_, rfl⟩
    · show s.dmc.base.lengthCounter - 1 ≤ _; omega
    · have : s.dmc.nextIrq.isSome = true ↔ (s.dmc.irqEnabled = true ∧ s.dmc.base.lengthCounter > 0) := hd
      show s.dmc.nextIrq.isSome = true ↔ (s.dmc.irqEnabled = true ∧ s.dmc.base.lengthCounter - 1 > 0)
      rw [this]; have := k.2.1; constructor <;> (rintro ⟨h1, h2⟩; exact ⟨h1, by omega⟩)
  · rw [k.2.2.2.2] at h; cases h
    refine ⟨⟨Regs.sampleLength_le _, q2⟩, fun _ => rfl, fun hd => ?_, rfl⟩
    have : s.dmc.nextIrq.isSome = true ↔ (s.dmc.irqEnabled = true ∧ s.dmc.base.lengthCounter > 0) := hd
    show s.dmc.nextIrq.isSome = true ↔ (s.dmc.irqEnabled = true ∧ s.dmc.base.regs.sampleLength > 0)
    rw [this]; have := k.2.1; constructor <;> (rintro ⟨h1, h2⟩; exact ⟨h1, by unfold Regs.sampleLength at *; omega⟩)
  · rw [k.2.2.2.2] at h; cases h
    have hl : (endSample (fetchSample s)).dmc.base.lengthCounter = 0 := by rw [endSample_eq]; show s.dmc.base.lengthCounter - 1 = 0; omega
    refine ⟨⟨by omega, ?_⟩, fun h => by omega, fun hd => ?_, ?_⟩
    · rw [endSample_eq]
      show (s.dmc.irqFlag || s.dmc.irqEnabled) = true → s.dmc.irqEnabled = true
      intro h; rcases Bool.or_eq_true _ _ ▸ h with h | h
      · exact q2 h
      · exact h
    · unfold dmcScheduleOk; rw [hl]; rw [endSample_eq]; simp
    · rw [endSample_eq]; rfl

/-- What every edge keeps. -/
def dmcReaderInv (s : State) : Prop := dmcCountOk s ∧ dmcScheduleOk s ∧ (s.dmc.base.lengthCounter > 0 → s.dmc.bufFull = true) ∧
    1 ≤ s.dmc.bitsRemain ∧ s.dmc.bitsRemain ≤ 8

theorem dmcEdge_readerInv {x : Nat} {s t : State} (hs : dmcReaderInv s) (h : dmcEdge x s = .goOn t) : dmcReaderInv t := by
  have hr := dmcShift_reader x s
  have hf := dmcShift_frame x s
  rw [dmcEdge] at h
  have hs' : dmcReaderInv (dmcShift x s) := by
    obtain ⟨r1, r2, r3, r4, r5, r6, r7, r8, -⟩ := hr
    have e := hf.2.2.2.2.2.1
    simp only [dmcReaderInv, dmcCountOk, dmcScheduleOk, r1, r2, r3, r7, r8, e]
    exact hs
  clear hs hr hf
  generalize dmcShift x s = s at *
  obtain ⟨q, n, r, b1, b2⟩ := hs'
  by_cases hb : s.dmc.bitsRemain - 1 = 0
  · cases hbuf : s.dmc.bufFull
    · rw [dmcCount_empty hb hbuf] at h; cases h
      exact ⟨q, n, r, (by show 1 ≤ 8; omega), (by show 8 ≤ 8; omega)⟩
    · rw [dmcCount_full hb hbuf] at h
      obtain ⟨k1, k2, k3, k4⟩ := fillBuffer_keepsOk (s := s.reloaded) q h
      have k4 : t.dmc.bitsRemain = 8 := k4
      exact ⟨k1, k3 n, k2, by omega, by omega⟩
  · rw [dmcCount_tick hb] at h; cases h
    exact ⟨q, n, r, (by show 1 ≤ s.dmc.bitsRemain - 1; omega), (by show s.dmc.bitsRemain - 1 ≤ 8; omega)⟩

theorem dmcEdges_readerInv {p n x : Nat} {s t : State} (hs : dmcReaderInv s) (h : dmcEdges p n x s = .goOn t) : dmcReaderInv t := by
  induction n generalizing s x with
  | zero => cases h; exact hs
  | succ n ih =>
    obtain ⟨m, hm, hv⟩ := Flow.bind_eq_goOn h
    exact ih (dmcEdge_readerInv hs hm) hv

theorem recalcIrq_scheduleOk (s : State) : dmcScheduleOk (recalcIrq s) := by
  unfold dmcScheduleOk; rw [recalcIrq_eq]
  show (predictIrq s.dmc).isSome = true ↔ (s.dmc.irqEnabled = true ∧ s.dmc.base.lengthCounter > 0)
  unfold predictIrq; split
  · rename_i h; simp [h]
  · rename_i h; simp; intro h1; by_contra h2; exact h ⟨h1, by omega⟩

end Sys2Proof.Machine
end

