-- ==== Sys2Proof/Laws/Units.lean ====
section
/-! SUPPORT. The channel units in closed form: envelope, sweep, and the RUN rules of the square, triangle and noise channels. -/

namespace Sys2Proof.Machine

open Sys2Proof.Claims

/-! ### Envelope and length counter (R145, R171, R172) -/

/-- One tick in the words of the statements. -/
theorem envelope_clock_tick (e : Envelope) (r : Regs) (l : Bool) : envelopeTick r l e (e.clock r l) := by
  have hv : r.volPeriod.toNat = field r.r0 3 0 := by rw [field_eq]; rfl
  have hb : r.loopHalt = decide (bit r.r0 5 = 1) := by rw [bit_eq, Regs.loopHalt]; cases r.r0.getLsbD 5 <;> rfl
  refine ⟨?_, ?_, ?_⟩
  · rintro rfl; simp [Envelope.clock, hv]
  · rintro rfl h
    have : e.envDelay ≠ 0#4 := by intro h0; simp [h0] at h
    simp [Envelope.clock, this]; bv_omega
  · rintro rfl h
    have : e.envDelay = 0#4 := BitVec.eq_of_toNat_eq h
    simp [Envelope.clock, this, hv, decayStep, hb]
    have := Nat.mod_two_eq_zero_or_one (r.r0.toNat / 2^5)
    rcases this with h | h <;> simp only [bit, h] <;> simp
    · by_cases h0 : e.envelope = 0#4
      · simp [h0]
      · have : e.envelope.toNat ≠ 0 := fun h => h0 (BitVec.eq_of_toNat_eq h)
        simp [h0, this]; bv_omega
    · bv_omega

/-- VOLUME is 0..15 (R172). -/
theorem volume_le (b : Base) (e : Envelope) : volume b e ≤ 15 := by
  unfold volume
  have h1 := e.envelope.isLt
  have h2 := b.regs.volPeriod.isLt
  split_ifs <;> omega

/-- Ticks of an envelope unit whose latch is clear. -/
def envelopeTicks (r : Regs) : Nat → Envelope → Envelope
  | 0, e => e
  | n + 1, e => envelopeTicks r n (e.clock r false)

theorem envelopeTicks_add (r : Regs) (m n : Nat) (e : Envelope) : envelopeTicks r (m + n) e = envelopeTicks r n
    (envelopeTicks r m e) := by
  induction m generalizing e with
  | zero => rw [Nat.zero_add]; rfl
  | succ m ih => rw [Nat.succ_add]; exact ih _

theorem envelopeTicks_count (r : Regs) (n : Nat) (e : Envelope) (h : n ≤ e.envDelay.toNat) : envelopeTicks r n e =
    ⟨e.envelope, BitVec.ofNat 4 (e.envDelay.toNat - n)⟩ := by
  induction n generalizing e with
  | zero => simp [envelopeTicks]
  | succ n ih =>
    obtain ⟨h1, h2⟩ := (envelope_clock_tick e r false).2.1 rfl (by omega)
    rw [envelopeTicks, ih _ (by omega), h1, h2]
    congr 2; omega

theorem envelopeTicks_period (r : Regs) (e : Envelope) (h : e.envDelay = r.volPeriod) :
    envelopeTicks r (r.volPeriod.toNat + 1) e = ⟨decayStep e.envelope r.loopHalt, r.volPeriod⟩ := by
  rw [envelopeTicks_add, envelopeTicks_count r r.volPeriod.toNat e (by rw [h])]
  simp [h, envelopeTicks, Envelope.clock]

/-- `k` expiries of the divider (R173). -/
theorem envelopeTicks_periods (r : Regs) (k : Nat) (e : Envelope) (h : e.envDelay = r.volPeriod) :
    ∃ f, envelopeTicks r (k * (r.volPeriod.toNat + 1)) e = ⟨f, r.volPeriod⟩ ∧ (e.envelope.toNat = 15 → f.toNat = if bit r.r0 5 = 1
        then 15 - k % 16 else 15 - k) := by
  induction k generalizing e with
  | zero => refine ⟨e.envelope, ?_, ?_⟩
            · simp [envelopeTicks, ← h]
            · intro h; simp [h]
  | succ k ih =>
    obtain ⟨f, hf, hv⟩ := ih e h
    rw [Nat.succ_mul, envelopeTicks_add, hf, envelopeTicks_period _ _ rfl]
    refine ⟨_, rfl, fun h15 => ?_⟩
    have hv := hv h15
    have hb : r.loopHalt = decide (bit r.r0 5 = 1) := by rw [bit_eq, Regs.loopHalt]; cases r.r0.getLsbD 5 <;> rfl
    simp [decayStep, hb]
    by_cases h5 : bit r.r0 5 = 1
    · simp [h5] at hv ⊢
      bv_omega
    · simp [h5] at hv ⊢
      by_cases h0 : f = 0#4
      · simp [h0] at hv ⊢; omega
      · have : f.toNat ≠ 0 := fun h => h0 (BitVec.eq_of_toNat_eq h)
        simp [h0]; bv_omega

theorem clockLength_keeps (b : Base) (m : Byte) : (b.clockLength m).regs = b.regs ∧ (b.clockLength m).written = b.written ∧
    (b.clockLength m).outEn = b.outEn := by
  simp only [Base.clockLength]; split <;> exact ⟨rfl, rfl, rfl⟩

/-! ### Sweep (R181) -/

theorem sweepCandidate_eq (r : Regs) (n : Int) : sweepCandidate r.period r.r1 n = sweepCand r n := by
  simp [sweepCandidate, sweepCand, ← period_eq, sweepNegate_bit, sweepShift_field, Nat.shiftRight_eq_div_pow]

theorem sweepCommits_iff (r : Regs) (n : Int) : sweepCommits r.period r.r1 n = true ↔ sweepCommitted r n := by
  simp [sweepCommits, sweepCommitted, sweepCandidate_eq, ← sweepShift_field, sweepEn, bit_eq, period_eq, sqMinPeriod, periodCeil,
      and_assoc]

theorem setPeriod_period (r : Regs) (p : BitVec 11) : (r.setPeriod p).period = p.toNat := by
  have h : ∀ (a : Byte) (b : BitVec 3), ((a &&& 0xF8#8 ||| b.setWidth 8).extractLsb' 0 3) = b := by decide
  simp [Regs.period, Regs.setPeriod, byteField, h]
  simp [Nat.shiftRight_eq_div_pow]
  have := p.isLt
  omega

theorem setPeriod_high_bits (r : Regs) (p : BitVec 11) : field (r.setPeriod p).r3 7 3 = field r.r3 7 3 := by
  have h : ∀ (a : Byte) (b : BitVec 3), ((a &&& 0xF8#8 ||| b.setWidth 8).extractLsb' 3 5) = a.extractLsb' 3 5 := by decide
  simp [field_eq, Regs.setPeriod, h]

/-! ### Square (R183, R184) -/

theorem squareSilent_iff (r : Regs) (v : Nat) : r.squareSilent v = true ↔ squareIsSilent r v := by
  have hn := sweepNegate_bit r.r1
  have h0 : bit r.r1 3 = 0 ↔ ¬ (bit r.r1 3 = 1) := by
    have := Nat.mod_two_eq_zero_or_one (r.r1.toNat / 2^3); simp only [bit]; omega
  simp only [Regs.squareSilent, squareIsSilent, Regs.sweepOverflow, Bool.or_eq_true, decide_eq_true_eq, period_eq, ←
      sweepShift_field, h0, ← hn]
  cases sweepNegate r.r1 <;> simp [Nat.shiftRight_eq_div_pow, or_assoc, sqMinPeriod, periodCeil]

theorem squareAmp_level (ph : BitVec 3) (ds : BitVec 2) (vol : Nat) : squareAmp ph ds vol = squareLevel ds.toNat vol ph.toNat := by
  have : ∀ (ph : BitVec 3) (ds : BitVec 2), (squareHigh ph ds = true) ↔ ((ph.toNat < (if ds.toNat = 0 then 1 else if ds.toNat = 2
      then 4 else 2)) ≠ (ds.toNat = 3)) := by decide
  simp only [squareAmp, squareLevel, this]

theorem advancePhase_toNat (p : BitVec 3) (k) : (advancePhase p k).toNat = (p.toNat + k) % 8 := by simp [advancePhase]

theorem advancePhase_succ (p : BitVec 3) (k) : advancePhase (advancePhase p k) 1 = advancePhase p (k+1) := by
  apply BitVec.eq_of_toNat_eq; simp only [advancePhase_toNat]; omega

theorem advancePhase_zero (p : BitVec 3) : advancePhase p 0 = p := by
  apply BitVec.eq_of_toNat_eq; simp only [advancePhase_toNat]; have := p.isLt; omega

/-- RUN on a square channel, whole (R184). -/
theorem runSquare_eq (ch : Channel) (time endTime : Nat) (c : Square) (a : Accum) (ht : c.base.trigger = false) :
   runSquare ch time endTime c a =
    let e := edges time endTime c.base.delay c.base.regs.squareTimer
    ({c with phase := advancePhase c.phase e.count, base := waveBase c.base e.carry e.count (squareLevels c)},
      if c.base.outEn then waveAcc a ch time e.first e.period e.count c.base.lastAmp (squareLevels c) else a) := by
  simp only [runSquare, squareEdges]
  generalize edges time endTime c.base.delay c.base.regs.squareTimer = e
  by_cases ho : c.base.outEn = true
  · by_cases hs : squareIsSilent c.base.regs (volume c.base c.env)
    · have hl : squareLevels c = fun _ => 0 := by funext k; simp only [squareLevels, hs, if_true]
      simp only [ho, (squareSilent_iff _ _).mpr hs, hl, track_deltaAt, waveBase, waveAcc, (wave_const_zero ch e.first e.period
          e.count).1, (wave_const_zero ch e.first e.period e.count).2, ht]
      simp
    · have hs' : ¬ c.base.regs.squareSilent (volume c.base c.env) = true := fun h => hs ((squareSilent_iff _ _).mp h)
      have hl : squareLevels c = fun k => squareAmp (advancePhase c.phase k) c.base.regs.dutySelect (volume c.base c.env) := by
        funext k
        simp only [squareLevels, hs, if_false, squareAmp_level, advancePhase_toNat, Regs.dutySelect, field_eq]
      have := atEdges_syncWave (f := squareEdge ch c.base.regs.dutySelect (volume c.base c.env)) (mk := fun k b =>
          {c with base := b, phase := advancePhase c.phase k})
        (ch := ch) (level := squareLevels c) ?_ e.period e.count e.first time c.base a ho
      · simp only [hl, advancePhase_zero] at this ⊢
        simp only [ho, hs', EdgeSet.run]
        simp [this, waveBase, ho, ht]
      · intro k t b a _
        simp only [squareEdge, advancePhase_succ, hl]
  · simp at ho
    simp [ho, waveBase, ht]

theorem squareLevels_within (c : Square) (k : Nat) : levelWithin (squareLevels c k) 15 := by
  have := volume_le c.base c.env
  unfold levelWithin squareLevels squareLevel
  split
  · omega
  · split <;> omega

/-! ### Triangle (R202 to R204) -/

theorem linearCounter_eq_zero_iff (l : BitVec 7) : l = 0#7 ↔ l.toNat = 0 := by rw [← BitVec.toNat_inj]; rfl

theorem active_iff_triActive (c : Triangle) : c.active = true ↔ triActive c := by
  simp [Triangle.active, triActive, Regs.triangleTimer, period_eq, triMinTimer, linearCounter_eq_zero_iff, and_assoc]

theorem triStep_after (p k : Nat) (h1 : 1 ≤ p) (h2 : p ≤ 32) : triStep (triPhaseAfter p k) = triPhaseAfter p (k+1) := by
  unfold triStep triPhaseAfter
  split <;> omega

theorem triPhaseAfter_zero (p : Nat) (h1 : 1 ≤ p) (h2 : p ≤ 32) : triPhaseAfter p 0 = p := by
  unfold triPhaseAfter; omega

theorem triStep_iterate (p : Nat) (h1 : 1 ≤ p) (h2 : p ≤ 32) (k : Nat) : triStep^[k] p = triPhaseAfter p k := by
  induction k with
  | zero => exact (triPhaseAfter_zero p h1 h2).symm
  | succ k ih => rw [Function.iterate_succ_apply', ih, triStep_after p k h1 h2]

/-- RUN on the triangle, whole, by the iterated step (R204). -/
theorem runTriangle_iter (time endTime : Nat) (c : Triangle) (a : Accum) (ht : c.base.trigger = false) :
   runTriangle time endTime c a =
    let e := edges time endTime c.base.delay (Claims.period c.base.regs + 1)
    let n := if triActive c then e.count else 0
    let carry := if triActive c then e.carry else 0
    let level := fun k => triLevel (triStep^[k] c.phase)
    ({c with phase := triStep^[n] c.phase, base := waveBase c.base carry n level},
      if c.base.outEn then waveAcc a .tri time e.first e.period n c.base.lastAmp level else a) := by
  simp only [runTriangle, period_eq, show triLevel = triAmp from rfl]
  have hT : c.base.regs.period + 1 = c.base.regs.triangleTimer := rfl
  rw [hT]
  generalize edges time endTime c.base.delay c.base.regs.triangleTimer = e
  by_cases ho : c.base.outEn = true
  · have := fun n => atEdges_syncWave (f := triangleEdge) (mk := fun k b => {c with base := b, phase := triStep^[k] c.phase})
        (ch := .tri) (level := fun k => triAmp (triStep^[k] c.phase)) ?_ e.period n e.first time c.base a ho
    · simp only [Function.iterate_zero, id] at this
      by_cases hs : triActive c
      · have hs' := (active_iff_triActive c).mpr hs
        simp only [ho, if_true, hs', trackBound_of_bound, if_pos hs, EdgeSet.run]
        have := this e.count
        rw [this]
        simp [waveBase, ht, ho]
      · have hs' : ¬ c.active = true := fun h => hs ((active_iff_triActive c).mp h)
        have := this 0
        simp only [ho, if_true, hs', trackBound_of_bound, if_neg hs]
        simp [track_deltaAt, waveBase, waveAcc, waveLog, waveRises, ho, ht]
    · intro k t b a hb
      simp only [triangleEdge, trackEdgeBound_of_bound hb, Function.iterate_succ_apply']
  · simp at ho
    have := fun n => atEdges_unbound (f := triangleEdge) (mk := fun k b =>
        {c with base := b, phase := triStep^[k] c.phase}) ?_ e.period n e.first c.base a ho
    · simp only [Function.iterate_zero, id] at this
      by_cases hs : triActive c
      · have hs' := (active_iff_triActive c).mpr hs
        simp only [hs', trackBound_of_unbound ho, if_pos hs, EdgeSet.run, if_true]
        rw [this]
        simp [waveBase, ht, ho]
      · have hs' : ¬ c.active = true := fun h => hs ((active_iff_triActive c).mp h)
        simp only [hs', trackBound_of_unbound ho, if_neg hs]
        simp [waveBase, ho, ht]
    · intro k t b a hb
      simp only [triangleEdge, trackEdgeBound_of_unbound hb, Function.iterate_succ_apply']

/-- RUN on the triangle, whole, with `phase` in its range (R204). -/
theorem runTriangle_eq (time endTime : Nat) (c : Triangle) (a : Accum) (ht : c.base.trigger = false) (h1 : 1 ≤ c.phase) (h2 :
    c.phase ≤ 32) :
   runTriangle time endTime c a =
    let e := edges time endTime c.base.delay (Claims.period c.base.regs + 1)
    let n := if triActive c then e.count else 0
    let carry := if triActive c then e.carry else 0
    let level := fun k => triLevel (triPhaseAfter c.phase k)
    ({c with phase := triPhaseAfter c.phase n, base := waveBase c.base carry n level},
      if c.base.outEn then waveAcc a .tri time e.first e.period n c.base.lastAmp level else a) := by
  rw [runTriangle_iter _ _ _ _ ht]
  simp only [triStep_iterate _ h1 h2]

theorem triLevel_within {p : Nat} (h1 : 1 ≤ p) (h2 : p ≤ 32) : levelWithin (triLevel p) 15 := by
  unfold levelWithin triLevel; split <;> omega

theorem triPhaseAfter_range (p k : Nat) : 1 ≤ triPhaseAfter p k ∧ triPhaseAfter p k ≤ 32 := by unfold triPhaseAfter; omega

/-! ### Noise (R251 to R254) -/

/-- A shift of the noise register with a given feedback bit, on numbers (R251). -/
theorem noise_shift_in (n : BitVec 15) (b : Bool) :
    ((n >>> 1) ||| ((BitVec.ofBool b).setWidth 15 <<< 14)).toNat = n.toNat / 2 + 2 ^ 14 * b.toNat := by
  have hs : (n >>> 1).toNat = n.toNat / 2 := by simp [Nat.shiftRight_eq_div_pow]
  have hlt : n.toNat / 2 < 2 ^ 14 := by have := n.isLt; omega
  rw [BitVec.toNat_or, hs]
  have : ((BitVec.ofBool b).setWidth 15 <<< 14).toNat = b.toNat <<< 14 := by cases b <;> rfl
  rw [this, Nat.or_comm, ← Nat.shiftLeft_add_eq_or_of_lt hlt, Nat.shiftLeft_eq]
  ring

/-- The noise register never reaches 0 (R255). -/
theorem lfsrStep_ne_zero {n : BitVec 15} (m : Bool) (h : n ≠ 0#15) : lfsrStep n m ≠ 0#15 := by
  intro h0
  have hn : n.toNat ≠ 0 := fun e => h (BitVec.eq_of_toNat_eq e)
  have k := congrArg BitVec.toNat h0
  simp only [lfsrStep, noise_shift_in, BitVec.toNat_ofNat] at k
  have h1 : n = 1#15 := BitVec.eq_of_toNat_eq (by simp; omega)
  subst h1
  cases m <;> simp at k

/-- The noise register after `k` edges (R253). -/
def noiseAfter (n : BitVec 15) (m : Bool) : Nat → BitVec 15
  | 0 => n
  | k+1 => lfsrStep (noiseAfter n m k) m

theorem noiseAfter_ne_zero {n : BitVec 15} (m : Bool) (h : n ≠ 0#15) (k : Nat) : noiseAfter n m k ≠ 0#15 := by
  induction k with
  | zero => exact h
  | succ k ih => exact lfsrStep_ne_zero m ih

/-- RUN on the noise channel, whole (R253). -/
theorem runNoise_eq (pal) (time endTime : Nat) (c : Noise) (a : Accum) (ht : c.base.trigger = false) :
   runNoise pal time endTime c a =
    let e := edges time endTime c.base.delay (c.base.regs.noiseTimer pal)
    let reg := noiseAfter c.noise c.base.regs.noiseMode
    let level := fun k => noiseAmp (reg k) (volume c.base c.env)
    ({c with noise := reg e.count, base := waveBase c.base e.carry e.count level},
      if c.base.outEn then waveAcc a .noi time e.first e.period e.count c.base.lastAmp level else a) := by
  simp only [runNoise]
  generalize edges time endTime c.base.delay (c.base.regs.noiseTimer pal) = e
  by_cases ho : c.base.outEn = true
  · have := atEdges_syncWave (f := noiseEdge c.base.regs.noiseMode (volume c.base c.env)) (mk := fun k b =>
      {c with base := b, noise := noiseAfter c.noise c.base.regs.noiseMode k})
        (ch := .noi) (level := fun k => noiseAmp (noiseAfter c.noise c.base.regs.noiseMode k) (volume c.base
            c.env)) ?_ e.period e.count e.first time c.base a ho
    · simp only [trackBound_of_bound ho, EdgeSet.run, ho, if_true]
      simp only [noiseAfter] at this
      rw [this]
      simp [waveBase, ht, ho]
    · intro k t b a hb
      simp only [noiseEdge, trackEdgeBound_of_bound hb, noiseAfter]
  · simp at ho
    have := atEdges_unbound (f := noiseEdge c.base.regs.noiseMode (volume c.base c.env)) (mk := fun k b =>
        {c with base := b, noise := noiseAfter c.noise c.base.regs.noiseMode k}) ?_ e.period e.count e.first c.base a ho
    · simp only [noiseAfter] at this
      simp only [trackBound_of_unbound ho, EdgeSet.run]
      rw [this]
      simp [waveBase, ht, ho]
    · intro k t b a hb
      simp only [noiseEdge, trackEdgeBound_of_unbound hb, noiseAfter]

theorem noiseAmp_within (n : BitVec 15) (b : Base) (e : Envelope) : levelWithin (noiseAmp n (volume b e)) 15 := by
  have := volume_le b e
  unfold levelWithin noiseAmp; split <;> omega

/-! ### Base states after a RUN -/

theorem waveBase_inRange {b : Base} {m : Nat} (hb : b.inRange m) {c n lv} (hc : c < 4096) : (waveBase b c n lv).inRange m :=
    ⟨hb.1, hc⟩

theorem waveBase_levelWithin {b : Base} {c n lv} {top : Int} (hb : levelWithin b.lastAmp top) (hl : ∀ k, levelWithin (lv k) top) :
    levelWithin (waveBase b c n lv).lastAmp top := by
  unfold waveBase; cases b.outEn
  · exact hb
  · exact hl n

end Sys2Proof.Machine
end

