-- ==== Sys2Proof/Laws/Frames.lean ====
section
/-! SUPPORT. What each command may touch: frames, what it emits, and which registers, latches and levels it leaves. -/

namespace Sys2Proof.Machine

open Sys2Proof.Claims

theorem exec_runSq_next {ch : SqChannel} {time endTime : Nat} {s : State} (h : time < endTime) :
   exec (.runSq ch time endTime) s = .next ((((s.clearTrigger ch.toChannel)).setSquare ch (runSquare ch.toChannel time endTime
       ((s.clearTrigger ch.toChannel).square ch) s.acc).1).setAcc (runSquare ch.toChannel time endTime ((s.clearTrigger
       ch.toChannel).square ch) s.acc).2) := by
  have h1 : ¬ time > endTime := by omega
  have h2 : ¬ time = endTime := by omega
  cases ch <;> simp [exec, execRunSq, runWindow, h1, h2] <;> rfl

theorem exec_runTri_next {time endTime : Nat} {s : State} (h : time < endTime) :
   exec (.runTri time endTime) s = .next (((s.clearTrigger .tri).setTri (runTriangle time endTime (s.clearTrigger .tri).tri
       s.acc).1).setAcc (runTriangle time endTime (s.clearTrigger .tri).tri s.acc).2) := by
  have h1 : ¬ time > endTime := by omega
  have h2 : ¬ time = endTime := by omega
  simp [exec, execRunTri, runWindow, h1, h2]; rfl

theorem exec_runNoi_next {time endTime : Nat} {s : State} (h : time < endTime) :
   exec (.runNoi time endTime) s = .next (((s.clearTrigger .noi).setNoi (runNoise s.params.palNoi time endTime (s.clearTrigger
       .noi).noi s.acc).1).setAcc (runNoise s.params.palNoi time endTime (s.clearTrigger .noi).noi s.acc).2) := by
  have h1 : ¬ time > endTime := by omega
  have h2 : ¬ time = endTime := by omega
  simp [exec, execRunNoi, runWindow, h1, h2]; rfl

/-- RUN completes over every forward window. -/
theorem exec_runOf_total {ch a b} (s : State) (h : a ≤ b) (hr : ch = .dmc → s.params.memReaderPresent = true) : ∃ t, exec
    (runOf ch a b) s = .next t := by
  rcases Nat.eq_or_lt_of_le h with rfl | h
  · exact ⟨_, exec_runOf_empty⟩
  cases ch with
  | sq1 => exact ⟨_, exec_runSq_next h⟩
  | sq2 => exact ⟨_, exec_runSq_next h⟩
  | tri => exact ⟨_, exec_runTri_next h⟩
  | noi => exact ⟨_, exec_runNoi_next h⟩
  | dmc =>
    have hg := dmcEdges_goOn (s := s.unbind) (hr rfl) s.dmc.period (edges a b s.dmc.base.delay s.dmc.period).count (a +
        s.dmc.base.delay)
    exact ⟨_, exec_runDmc_eq h hg⟩

/-- Every other command completes. -/
theorem exec_total (i : Instr) (s : State) (h1 : i ≠ .dmcStart) (h2 : ∀ a b, i ≠ .runDmc a b) : ∃ t, exec i s = .next t := by
  cases i with
  | runSq ch a b =>
    rcases window_cases a b with hc | hc | hc
    · exact ⟨_, by have := exec_runOf_reversed (ch := ch.toChannel) (s := s) hc; cases ch <;> exact this⟩
    · subst hc; exact ⟨_, by have := exec_runOf_empty (ch := ch.toChannel) (s := s) (time := a); cases ch <;> exact this⟩
    · exact ⟨_, exec_runSq_next hc⟩
  | runTri a b =>
    rcases window_cases a b with hc | hc | hc
    · exact ⟨_, exec_runOf_reversed (ch := .tri) (s := s) hc⟩
    · subst hc; exact ⟨_, exec_runOf_empty (ch := .tri) (s := s) (time := a)⟩
    · exact ⟨_, exec_runTri_next hc⟩
  | runNoi a b =>
    rcases window_cases a b with hc | hc | hc
    · exact ⟨_, exec_runOf_reversed (ch := .noi) (s := s) hc⟩
    · subst hc; exact ⟨_, exec_runOf_empty (ch := .noi) (s := s) (time := a)⟩
    · exact ⟨_, exec_runNoi_next hc⟩
  | runDmc a b => exact absurd rfl (h2 a b)
  | dmcStart => exact absurd rfl h1
  | clkSwp ch m => simp only [exec, execClkSwp]; split <;> exact ⟨_, rfl⟩
  | _ => exact ⟨_, rfl⟩

/-- What a command of a channel may touch. -/
def frameOf (ch : Channel) (s t : State) : Prop :=
  match ch with
  | .sq1 => t = { s with sq1 := t.sq1, acc := t.acc, cmdFault := t.cmdFault }
  | .sq2 => t = { s with sq2 := t.sq2, acc := t.acc, cmdFault := t.cmdFault }
  | .tri => t = { s with tri := t.tri, acc := t.acc, cmdFault := t.cmdFault }
  | .noi => t = { s with noi := t.noi, acc := t.acc, cmdFault := t.cmdFault }
  | .dmc => t = { s with dmc := t.dmc, acc := t.acc, cmdFault := t.cmdFault, respCount := t.respCount, memReads := t.memReads, notifications := t.notifications }

/-- Every command keeps the frame of its channel, and the fault bit once set. -/
theorem exec_frame {i : Instr} {s t : State} (h : exec i s = .next t) : frameOf i.channel s t ∧ (s.cmdFault = true → t.cmdFault =
    true) := by
  have hcf : ∀ ch, frameOf ch s { s with cmdFault := true } := by intro ch; cases ch <;> rfl
  have hself : ∀ ch, frameOf ch s s := by intro ch; cases ch <;> rfl
  have run : ∀ ch time endTime, exec (runOf ch time endTime) s = .next t → (time < endTime → frameOf ch s t ∧ (s.cmdFault = true →
      t.cmdFault = true)) → frameOf ch s t ∧ (s.cmdFault = true → t.cmdFault = true) := by
    intro ch time endTime h k
    rcases window_cases time endTime with hc | hc | hc
    · rw [exec_runOf_reversed hc] at h; cases h; exact ⟨hcf ch, fun _ => rfl⟩
    · subst hc; rw [exec_runOf_empty] at h; cases h; exact ⟨hself ch, id⟩
    · exact k hc
  cases i with
  | reset ch => cases h; cases ch <;> exact ⟨rfl, id⟩
  | resetDmc => cases h; exact ⟨rfl, id⟩
  | wr ch a d => cases h; cases ch <;> exact ⟨rfl, id⟩
  | wrDmc0 d => cases h; rw [dmcWrite0, recalcIrq_eq]; exact ⟨rfl, id⟩
  | wrDmc1 d =>
    cases h
    cases hn : s.params.nonlinear <;> simp [dmcWrite1, dmcWriteReg, hn, frameOf, Instr.channel, State.setDmc]
  | wrDmc2 d => cases h; exact ⟨rfl, id⟩
  | wrDmc3 d => cases h; exact ⟨rfl, id⟩
  | runSq ch time endTime =>
    refine run ch.toChannel time endTime (by cases ch <;> exact h) (fun hlt => ?_)
    rw [exec_runSq_next hlt] at h
    cases h
    cases ch <;> exact ⟨rfl, id⟩
  | runTri time endTime =>
    refine run .tri time endTime h (fun hlt => ?_)
    rw [exec_runTri_next hlt] at h
    cases h; exact ⟨rfl, id⟩
  | runNoi time endTime =>
    refine run .noi time endTime h (fun hlt => ?_)
    rw [exec_runNoi_next hlt] at h
    cases h; exact ⟨rfl, id⟩
  | runDmc time endTime =>
    refine run .dmc time endTime h (fun hlt => ?_)
    rw [exec_runDmc hlt] at h
    have hf := runDmc_frame time endTime (s.clearTrigger .dmc)
    rw [Flow.toResult_eq_next h] at hf
    have h0 := hf.1
    simp only [Flow.state_goOn] at h0
    refine ⟨?_, ?_⟩
    · show t = _
      rw [h0]; rfl
    · rw [h0]; exact id
  | clkLen ch m => cases h; cases ch <;> exact ⟨rfl, id⟩
  | clkEnvSq ch => cases h; cases ch <;> exact ⟨rfl, id⟩
  | clkEnvNoi => cases h; exact ⟨rfl, id⟩
  | clkSwp ch m =>
    simp only [exec, execClkSwp] at h
    split at h
    · cases h; cases ch <;> exact ⟨rfl, id⟩
    · cases h; cases ch <;> exact ⟨rfl, fun _ => rfl⟩
  | clkLin => cases h; exact ⟨rfl, id⟩
  | setOut ch en => cases h; cases ch <;> exact ⟨rfl, id⟩
  | setOutDmc en => cases h; exact ⟨rfl, id⟩
  | setLen ch n => cases h; cases ch <;> exact ⟨rfl, id⟩
  | dmcStart =>
    have hg := Flow.toResult_eq_next h
    obtain ⟨m, hm, hr⟩ := Flow.bind_eq_goOn hg
    have hf := dmcRunFrame_trans (reloadSample_frame s) (fillBuffer_frame (reloadSample s))
    rw [hm] at hf
    cases hr
    rw [recalcIrq_eq]
    have h0 := hf.1
    simp only [Flow.state_goOn] at h0
    refine ⟨?_, ?_⟩
    · show _ = _
      rw [h0]
    · show _ → m.cmdFault = true
      rw [h0]; exact id
  | dmcStop => cases h; rw [recalcIrq_eq]; exact ⟨rfl, id⟩
  | irqAck => cases h; exact ⟨rfl, id⟩
  | cntRd t => cases h; exact ⟨rfl, id⟩

theorem base_other {i : Instr} {s t : State} {c : Channel} (h : exec i s = .next t) (hc : i.channel ≠ c) : t.base c = s.base c := by
  have hfr := (exec_frame h).1
  generalize i.channel = ch at *
  cases ch <;> cases c <;> first | exact absurd rfl hc | (unfold frameOf at hfr; rw [hfr]; rfl)

theorem edges_inside (time endTime delay p k : Nat) (h : k < (edges time endTime delay p).count) :
    time + delay + k * p < endTime := by
  rcases Nat.eq_zero_or_pos p with rfl | hp
  · exfalso
    have hc : (edges time endTime delay 0).count = if time + delay ≥ endTime then 0 else ceilDiv (endTime - (time + delay)) 0 := rfl
    rw [hc] at h
    split at h
    · omega
    · simp [ceilDiv] at h
  · exact (edges_lt_iff _ _ _ hp k).mp h

/-- What a RUN that completes emits, and the base fields it writes and keeps. -/
theorem run_emits {ch : Channel} {time endTime : Nat} {s t : State} (hlt : time < endTime) (h : exec (runOf ch time endTime) s =
    .next t) :
    ∃ (first p n : Nat) (level : Nat → Int), (∀ k < n, time ≤ first + k * p ∧ first + k * p < endTime) ∧
      t.acc = (if (s.base ch).outEn = true then waveAcc s.acc ch time first p n (s.base ch).lastAmp level else s.acc) ∧
      (t.base ch).lastAmp = (if (s.base ch).outEn = true then level n else (s.base ch).lastAmp) ∧
      (t.base ch).trigger = ((s.base ch).outEn && waveRises n level) ∧
      (t.base ch).regs = (s.base ch).regs ∧ (t.base ch).written = (s.base ch).written ∧ (t.base ch).outEn = (s.base ch).outEn := by
  have hin : ∀ d p k, k < (edges time endTime d p).count → time ≤ time + d + k * p ∧ time + d + k * p < endTime :=
    fun d p k hk => ⟨by omega, edges_inside _ _ _ _ _ hk⟩
  cases ch with
  | sq1 =>
    rw [show runOf .sq1 time endTime = .runSq .sq1 time endTime from rfl, exec_runSq_next hlt, runSquare_eq _ _ _ _ _ rfl] at h
    cases h
    exact ⟨_, _, _, _, hin _ _, rfl, rfl, rfl, rfl, rfl, rfl⟩
  | sq2 =>
    rw [show runOf .sq2 time endTime = .runSq .sq2 time endTime from rfl, exec_runSq_next hlt, runSquare_eq _ _ _ _ _ rfl] at h
    cases h
    exact ⟨_, _, _, _, hin _ _, rfl, rfl, rfl, rfl, rfl, rfl⟩
  | tri =>
    rw [show runOf .tri time endTime = .runTri time endTime from rfl, exec_runTri_next hlt, runTriangle_iter _ _ (s.clearTrigger
        .tri).tri _ rfl] at h
    cases h
    refine ⟨_, _, _, _, ?_, rfl, rfl, rfl, rfl, rfl, rfl⟩
    intro k hk
    split at hk
    · exact hin _ _ _ hk
    · omega
  | noi =>
    rw [show runOf .noi time endTime = .runNoi time endTime from rfl, exec_runNoi_next hlt, runNoise_eq _ _ _ (s.clearTrigger
        .noi).noi _ rfl] at h
    cases h
    exact ⟨_, _, _, _, hin _ _, rfl, rfl, rfl, rfl, rfl, rfl⟩
  | dmc =>
    rw [show runOf .dmc time endTime = .runDmc time endTime from rfl] at h
    have h' := h
    rw [exec_runDmc hlt] at h
    obtain ⟨v, hv⟩ := runDmc_goOn_unbind (Flow.toResult_eq_next h)
    obtain ⟨t', t1, t2, t3, t4, t5, t6, t7, t8, t9, t10, t11, t12, t13, t14, t15, t16, t17, t18, t19⟩ := exec_runDmc_fields (s :=
        s) hlt rfl rfl hv
    rw [h'] at t1; cases t1
    exact ⟨_, _, _, _, hin _ _, t19, t17, t18, t2.2.1, t2.2.2.1, t2.2.2.2.1⟩

/-- RUN keeps registers, latches and bindings. -/
theorem run_base {ch : Channel} {a b : Nat} {s t : State} (h : exec (runOf ch a b) s = .next t) (c : Channel) :
   (t.base c).regs = (s.base c).regs ∧ (t.base c).written = (s.base c).written ∧ (t.base c).outEn = (s.base c).outEn := by
  rcases window_cases a b with hc | hc | hc
  · rw [exec_runOf_reversed hc] at h; cases h; cases c <;> exact ⟨rfl, rfl, rfl⟩
  · subst hc; rw [exec_runOf_empty] at h; cases h; exact ⟨rfl, rfl, rfl⟩
  · by_cases hcc : ch = c
    · subst hcc
      obtain ⟨_, _, _, _, -, -, -, -, r⟩ := run_emits hc h
      exact r
    · have hfr := (exec_frame h).1
      rw [runOf_channel] at hfr
      cases ch <;> cases c <;> first | exact absurd rfl hcc | (unfold frameOf at hfr; rw [hfr]; exact ⟨rfl, rfl, rfl⟩)

/-- Only RUN emits. -/
theorem exec_acc_of_not_run {i : Instr} {s t : State} (hn : ∀ ch a b, i ≠ runOf ch a b) (h : exec i s = .next t) : t.acc = s.acc :=
    by
  cases i with
  | reset ch => cases h; cases ch <;> rfl
  | resetDmc => cases h; rfl
  | wr ch a d => cases h; cases ch <;> rfl
  | wrDmc0 d => cases h; rw [dmcWrite0, recalcIrq_eq]; rfl
  | wrDmc1 d => cases h; cases hn : s.params.nonlinear <;> simp [dmcWrite1, dmcWriteReg, hn, State.setDmc]
  | wrDmc2 d => cases h; rfl
  | wrDmc3 d => cases h; rfl
  | runSq ch a b => exact absurd (by cases ch <;> rfl) (hn ch.toChannel a b)
  | runTri a b => exact absurd rfl (hn .tri a b)
  | runNoi a b => exact absurd rfl (hn .noi a b)
  | runDmc a b => exact absurd rfl (hn .dmc a b)
  | clkLen ch m => cases h; cases ch <;> rfl
  | clkEnvSq ch => cases h; cases ch <;> rfl
  | clkEnvNoi => cases h; rfl
  | clkSwp ch m =>
    simp only [exec, execClkSwp] at h
    split at h
    · cases h; cases ch <;> rfl
    · cases h; rfl
  | clkLin => cases h; rfl
  | setOut ch en => cases h; cases ch <;> rfl
  | setOutDmc en => cases h; rfl
  | setLen ch n => cases h; cases ch <;> rfl
  | dmcStart =>
    rw [(execDmcStart_next h).2, recalcIrq_eq]
    show (fillBuffer (reloadSample s)).state.acc = _
    rw [fillBuffer_keeps]; rfl
  | dmcStop => cases h; rw [recalcIrq_eq]; rfl
  | irqAck => cases h; rfl
  | cntRd t => cases h; rfl

/-- Only RUN, RESET, and a write to DMC register 1 in the linear mode change a `last_amp`. -/
theorem exec_lastAmp_of_not_run {i : Instr} {s t : State} (ch : Channel) (hn : ∀ ch a b, i ≠ runOf ch a b) (h : exec i s = .next t)
    (hr : i ≠ resetOf ch)
   (hw : s.params.nonlinear = false → ch = .dmc → ∀ data, i ≠ .wrDmc1 data) : (t.base ch).lastAmp = (s.base ch).lastAmp := by
  have hfr := (exec_frame h).1
  by_cases hch : i.channel = ch
  swap
  · generalize i.channel = c at *
    cases c <;> cases ch <;> first | exact absurd rfl hch | (unfold frameOf at hfr; rw [hfr]; rfl)
  subst hch
  cases i with
  | reset ch => exact absurd (by cases ch <;> rfl) hr
  | resetDmc => exact absurd rfl hr
  | wr ch a d => cases h; cases ch <;> rfl
  | wrDmc0 d => cases h; rw [dmcWrite0, recalcIrq_eq]; rfl
  | wrDmc1 d =>
    cases h; cases hn : s.params.nonlinear
    · exact absurd rfl (hw hn rfl d)
    · simp only [dmcWrite1, hn, dmcWriteReg, State.setDmc_params, if_true]; rfl
  | wrDmc2 d => cases h; rfl
  | wrDmc3 d => cases h; rfl
  | runSq ch a b => exact absurd (by cases ch <;> rfl) (hn ch.toChannel a b)
  | runTri a b => exact absurd rfl (hn .tri a b)
  | runNoi a b => exact absurd rfl (hn .noi a b)
  | runDmc a b => exact absurd rfl (hn .dmc a b)
  | clkLen ch m =>
    cases h;
    have : ∀ b : Base, (b.clockLength m).lastAmp = b.lastAmp := by intro b; simp [Base.clockLength]; split <;> rfl
    cases ch <;> exact this _
  | clkEnvSq ch => cases h; cases ch <;> rfl
  | clkEnvNoi => cases h; rfl
  | clkSwp ch m =>
    simp only [exec, execClkSwp] at h
    have : ∀ (c : Square) n, (c.clockSweep n).base.lastAmp = c.base.lastAmp := by intro c n; simp [Square.clockSweep]; split <;> rfl
    split at h
    · cases h; cases ch <;> exact this _ _
    · cases h; cases ch <;> rfl
  | clkLin => cases h; rfl
  | setOut ch en => cases h; cases ch <;> rfl
  | setOutDmc en => cases h; simp [Instr.channel, State.base, Dmc.setOut]; split <;> rfl
  | setLen ch n => cases h; cases ch <;> rfl
  | dmcStart =>
    rw [(execDmcStart_next h).2, recalcIrq_eq]
    show (fillBuffer (reloadSample s)).state.dmc.base.lastAmp = _
    rw [fillBuffer_keeps]; rfl
  | dmcStop => cases h; rw [recalcIrq_eq]; rfl
  | irqAck => cases h; rfl
  | cntRd t => cases h; rfl

theorem channelSum_own {ch : Channel} {l : List Emission} (h : ∀ e ∈ l, e.ch = ch) : channelSum ch l = sumDeltas l := by
  unfold channelSum; rw [List.filter_eq_self.mpr]; simpa using h

theorem channelSum_other {ch ch' : Channel} {l : List Emission} (h : ∀ e ∈ l, e.ch = ch') (hne : ch' ≠ ch) : channelSum ch l = 0 :=
    by
  unfold channelSum; rw [List.filter_eq_nil_iff.mpr]; · rfl
  · intro e he; rw [h e he]; simpa using hne

theorem channelSum_append (ch : Channel) (a b : List Emission) : channelSum ch (a ++ b) = channelSum ch a + channelSum ch b := by
  simp [channelSum]

/-- Every command keeps the accumulator balanced. -/
theorem exec_balanced {i : Instr} {s t : State} (hb : s.acc.balanced) (h : exec i s = .next t) : t.acc.balanced := by
  rcases runOf_cases i with ⟨ch, a, b, rfl⟩ | hn
  · rcases window_cases a b with hc | hc | hc
    · rw [exec_runOf_reversed hc] at h; cases h; exact hb
    · subst hc; rw [exec_runOf_empty] at h; cases h; exact hb
    · obtain ⟨f, p, n, lv, -, ha, -⟩ := run_emits hc h
      rw [ha]; split
      · exact balanced_waveAcc hb _ _ _ _ _ _ _
      · exact hb
  · rw [exec_acc_of_not_run hn h]; exact hb

theorem execAll_append (l m : List Instr) (s t : State) (h : execAll l s = .next t) : execAll (l ++ m) s = execAll m t := by
  induction l generalizing s with
  | nil => cases h; rfl
  | cons i l ih =>
    simp only [execAll, List.cons_append] at h ⊢
    cases he : exec i s <;> rw [he] at h
    · exact ih _ h
    · cases h
    · cases h

theorem execAll_clkEnvNoi (n : Nat) (s : State) (h : s.noi.base.written.w3 = false) :
    execAll (List.replicate n .clkEnvNoi) s = .next (s.setNoi { s.noi with env := envelopeTicks s.noi.base.regs n s.noi.env }) := by
  induction n generalizing s with
  | zero => rfl
  | succ n ih =>
    simp only [List.replicate_succ, execAll, exec, execClkEnvNoi]
    rw [ih]
    · obtain ⟨p,a,b,c,⟨⟨r,⟨w0,w1,w2,w3⟩,l,d,la,t,o⟩,e,n⟩,x⟩ := s
      cases h
      rfl
    · rfl

theorem execAll_clkEnvSq (ch) (n : Nat) (s : State) (h : (s.square ch).base.written.w3 = false) :
    execAll (List.replicate n (.clkEnvSq ch)) s = .next (s.setSquare ch
        { s.square ch with env := envelopeTicks (s.square ch).base.regs n (s.square ch).env }) := by
  induction n generalizing s with
  | zero => cases ch <;> rfl
  | succ n ih =>
    simp only [List.replicate_succ, execAll, exec, execClkEnvSq]
    rw [ih]
    · obtain ⟨p,⟨⟨r,⟨w0,w1,w2,w3⟩,l,d,la,t,o⟩,e,ph,sd⟩,⟨⟨r',⟨w0',w1',w2',w3'⟩,l',d',la',t',o'⟩,e',ph',sd'⟩,b,c,x⟩ := s
      cases ch <;> (cases h; rfl)
    · cases ch <;> rfl

end Sys2Proof.Machine
end

