-- ==== Sys2Proof/Laws/Invariant.lean ====
section
/-! SUPPORT. The invariant of R49 channel by channel, and what RUN and the base commands keep of it. -/

namespace Sys2Proof.Machine

open Sys2Proof.Claims

/-- The part of `State.Inv` about one channel. -/
def channelOk (ch : Channel) (s : State) : Prop :=
  match ch with
  | .sq1 => s.sq1.base.inRange 65535 ∧ (s.params.nonlinear = true → levelWithin s.sq1.base.lastAmp 15)
  | .sq2 => s.sq2.base.inRange 65535 ∧ (s.params.nonlinear = true → levelWithin s.sq2.base.lastAmp 15)
  | .tri => s.tri.base.inRange 65535 ∧ (1 ≤ s.tri.phase ∧ s.tri.phase ≤ 32) ∧ (s.params.nonlinear = true → levelWithin
      s.tri.base.lastAmp 15)
  | .noi => s.noi.base.inRange 65535 ∧ s.noi.noise ≠ 0#15 ∧ (s.params.nonlinear = true → levelWithin s.noi.base.lastAmp 15)
  | .dmc => s.dmc.base.inRange 4081 ∧ s.dmc.inRange ∧ s.dmc.readerReady ∧ (s.params.nonlinear = true → levelWithin
      s.dmc.base.lastAmp 127)

/-- `State.Inv`, channel by channel. -/
theorem inv_iff_channels (s : State) : s.Inv ↔ Memory.wf s.mem = true ∧ s.acc.balanced ∧ ∀ ch, channelOk ch s := by
  constructor
  · intro h
    refine ⟨h.memory, h.acc, fun ch => ?_⟩
    cases ch
    · exact ⟨h.sq1, fun n => (h.levels n).1⟩
    · exact ⟨h.sq2, fun n => (h.levels n).2.1⟩
    · exact ⟨h.tri, h.phase, fun n => (h.levels n).2.2.1⟩
    · exact ⟨h.noi, h.noise, fun n => (h.levels n).2.2.2.1⟩
    · exact ⟨h.dmcBase, h.dmc, h.reader, fun n => (h.levels n).2.2.2.2⟩
  · rintro ⟨h1, h2, h⟩
    exact ⟨h1, (h .sq1).1, (h .sq2).1, (h .tri).1, (h .noi).1, (h .dmc).1, (h .tri).2.1, (h .noi).2.1, (h .dmc).2.1, (h
        .dmc).2.2.1, h2,
      fun n => ⟨(h .sq1).2 n, (h .sq2).2 n, (h .tri).2.2 n, (h .noi).2.2 n, (h .dmc).2.2.2 n⟩⟩

theorem channelOk_congr {s t : State} {ch c : Channel} (ho : othersSame c s t) (hp : t.params = s.params) (hne : c ≠ ch) (h :
    channelOk ch s) : channelOk ch t := by
  obtain ⟨h1, h2, h3, h4, h5⟩ := ho
  cases ch
  · simp only [channelOk, h1 hne, hp]; exact h
  · simp only [channelOk, h2 hne, hp]; exact h
  · simp only [channelOk, h3 hne, hp]; exact h
  · simp only [channelOk, h4 hne, hp]; exact h
  · simp only [channelOk, h5 hne, hp]; exact h

theorem inv_dmc_period {s : State} (inv : s.Inv) : 1 ≤ s.dmc.period ∧ s.dmc.period < 4096 := by
  have h1 := inv.dmc.2.1
  have : ∀ b : Bool, ∀ x ∈ dmcPeriodRow b, 1 ≤ x ∧ x < 4096 := by decide
  rcases h1 with h | h | h
  · exact this _ _ h
  · exact this _ _ h
  · simp [h, dmcDefaultPeriod]

/-- RUN keeps the invariant of its channel. -/
theorem run_channelOk {ch : Channel} {a b : Nat} {s t : State} (hs : s.Inv) (hlt : a < b) (h : exec (runOf ch a b) s = .next t) :
    channelOk ch t := by
  have hle := Nat.le_of_lt hlt
  have sqc : ∀ (c : Square), c.base.inRange 65535 → (edges a b c.base.delay c.base.regs.squareTimer).carry < 4096 := by
    intro c hc
    have := period_lt c.base.regs
    rw [period_eq] at this
    exact edges_carry_lt a b c.base.delay (by unfold Regs.squareTimer; omega) (by unfold Regs.squareTimer; omega) hc.2 hle
  cases ch with
  | sq1 =>
    rw [show runOf .sq1 a b = .runSq .sq1 a b from rfl, exec_runSq_next hlt, runSquare_eq _ _ _ _ _ rfl] at h
    cases h
    exact ⟨waveBase_inRange hs.sq1 (sqc s.sq1 hs.sq1), fun n => waveBase_levelWithin (hs.levels n).1 (squareLevels_within _)⟩
  | sq2 =>
    rw [show runOf .sq2 a b = .runSq .sq2 a b from rfl, exec_runSq_next hlt, runSquare_eq _ _ _ _ _ rfl] at h
    cases h
    exact ⟨waveBase_inRange hs.sq2 (sqc s.sq2 hs.sq2), fun n => waveBase_levelWithin (hs.levels n).2.1 (squareLevels_within _)⟩
  | tri =>
    rw [show runOf .tri a b = .runTri a b from rfl, exec_runTri_next hlt, runTriangle_eq _ _ (s.clearTrigger .tri).tri _ rfl
        hs.phase.1 hs.phase.2] at h
    cases h
    have := period_lt s.tri.base.regs
    have hc : (if triActive s.tri then (edges a b s.tri.base.delay (Claims.period s.tri.base.regs + 1)).carry else 0) < 4096 := by
      split
      · exact edges_carry_lt a b s.tri.base.delay (by omega) (by omega) hs.tri.2 hle
      · omega
    exact ⟨⟨hs.tri.1, hc⟩, triPhaseAfter_range _ _, fun n => waveBase_levelWithin (hs.levels n).2.2.1 (fun k => triLevel_within
        (triPhaseAfter_range _ k).1 (triPhaseAfter_range _ k).2)⟩
  | noi =>
    rw [show runOf .noi a b = .runNoi a b from rfl, exec_runNoi_next hlt, runNoise_eq _ _ _ (s.clearTrigger .noi).noi _ rfl] at h
    cases h
    have hp : ∀ (pal : Bool) (i : BitVec 4), 1 ≤ (noisePeriodRow pal).getD i.toNat 4 ∧ (noisePeriodRow
        pal).getD i.toNat 4 ≤ 4096 := by decide
    have hp := hp s.params.palNoi (s.noi.base.regs.r2.extractLsb' 0 4)
    have hc : (edges a b s.noi.base.delay (s.noi.base.regs.noiseTimer
        s.params.palNoi)).carry < 4096 := edges_carry_lt a b s.noi.base.delay hp.1 hp.2 hs.noi.2 hle
    exact ⟨⟨hs.noi.1, hc⟩, noiseAfter_ne_zero _ hs.noise _, fun n => waveBase_levelWithin (hs.levels n).2.2.2.1 (fun k =>
        noiseAmp_within _ _ _)⟩
  | dmc =>
    rw [show runOf .dmc a b = .runDmc a b from rfl] at h
    have h' := h
    rw [exec_runDmc hlt] at h
    obtain ⟨v, hv⟩ := runDmc_goOn_unbind (Flow.toResult_eq_next h)
    obtain ⟨t', t1, t2, t3, t4, t5, t6, t7, t8, t9, t10, t11, t12, t13, t14, t15, t16, t17, t18, t19⟩ := exec_runDmc_fields (s :=
        s) hlt rfl rfl hv
    rw [h'] at t1; cases t1
    have hu : dmcReaderInv s.unbind := ⟨⟨hs.dmcBase.1, hs.dmc.2.2.2⟩, hs.reader.2, hs.reader.1, hs.dmc.1.1, hs.dmc.1.2⟩
    obtain ⟨⟨q1, q2⟩, n, r, b1, b2⟩ := dmcEdges_readerInv hu hv
    have hfv := unbound_edges_frame hv
    have hev : v.dmc.irqEnabled = s.dmc.irqEnabled := hfv.2.2.2.2.2.1
    obtain ⟨f0, f1, f2, f3, f4, f5, f6⟩ := t2
    have hp := inv_dmc_period hs
    have hpar : t.params = s.params := by rw [f0]
    refine ⟨⟨by rw [t14]; exact q1, ?_⟩, ⟨by rw [t11]; exact ⟨b1, b2⟩, by
        rw [f4]; exact hs.dmc.2.1, by rw [f5, f1]; exact hs.dmc.2.2.1, by rw [t12, f5, ← hev]; exact q2⟩, ⟨by rw [t14, t8]; exact r, by rw [t13, t14, f5, ← hev]; exact n⟩, ?_⟩
    · rw [t3]; exact edges_carry_lt a b s.dmc.base.delay hp.1 (Nat.le_of_lt hp.2) hs.dmcBase.2 hle
    · intro hn
      rw [t17]
      split
      · unfold levelWithin dmcLevel; have := BitVec.isLt (dmcEdges s.dmc.period (edges a b s.dmc.base.delay s.dmc.period).count (a
          + s.dmc.base.delay) s.unbind).state.dmc.dac; omega
      · exact (hs.levels (hpar ▸ hn)).2.2.2.2

theorem setBase_channelOk {ch : PlainChannel} {s : State} (hs : s.Inv) {b : Base} (hl : b.lengthCounter ≤ 65535) (hd : b.delay =
    (s.base ch.toChannel).delay) (hla : b.lastAmp = (s.base ch.toChannel).lastAmp) :
    channelOk ch.toChannel (s.setBase ch.toChannel b) := by
  cases ch <;> simp only [PlainChannel.toChannel, State.base] at hd hla
  · exact ⟨⟨hl, hd ▸ hs.sq1.2⟩, fun n => by show levelWithin b.lastAmp 15; rw [hla]; exact (hs.levels n).1⟩
  · exact ⟨⟨hl, hd ▸ hs.sq2.2⟩, fun n => by show levelWithin b.lastAmp 15; rw [hla]; exact (hs.levels n).2.1⟩
  · exact ⟨⟨hl, hd ▸ hs.tri.2⟩, hs.phase, fun n => by show levelWithin b.lastAmp 15; rw [hla]; exact (hs.levels n).2.2.1⟩
  · exact ⟨⟨hl, hd ▸ hs.noi.2⟩, hs.noise, fun n => by show levelWithin b.lastAmp 15; rw [hla]; exact (hs.levels n).2.2.2.1⟩

theorem plain_lengthCounter_le {s : State} (hs : s.Inv) (ch : PlainChannel) : (s.base ch.toChannel).lengthCounter ≤ 65535 := by
  cases ch
  · exact hs.sq1.1
  · exact hs.sq2.1
  · exact hs.tri.1
  · exact hs.noi.1

theorem setSquare_channelOk {ch : SqChannel} {s : State} (hs : s.Inv) {c : Square} (hl : c.base.lengthCounter =
    (s.square ch).base.lengthCounter) (hd : c.base.delay = (s.square ch).base.delay) (hla : c.base.lastAmp =
    (s.square ch).base.lastAmp) :
    channelOk ch.toChannel (s.setSquare ch c) := by
  cases ch <;> simp only [State.square] at hl hd hla
  · exact ⟨⟨hl ▸ hs.sq1.1, hd ▸ hs.sq1.2⟩, fun n => by show levelWithin c.base.lastAmp 15; rw [hla]; exact (hs.levels n).1⟩
  · exact ⟨⟨hl ▸ hs.sq2.1, hd ▸ hs.sq2.2⟩, fun n => by show levelWithin c.base.lastAmp 15; rw [hla]; exact (hs.levels n).2.1⟩

theorem inv_of_pending {s : State} (hs : s.Inv) (p : List Command) (f : Bool) : { s with pending := p, cmdFault := f }.Inv :=
  ⟨hs.memory, hs.sq1, hs.sq2, hs.tri, hs.noi, hs.dmcBase, hs.phase, hs.noise, hs.dmc, hs.reader, hs.acc, hs.levels⟩

end Sys2Proof.Machine
end

