-- ==== Sys2Proof/Laws/Memory.lean ====
section
/-! SUPPORT. The laws of the external memory's promises: look-up after placing, and the canonical form. -/

namespace Sys2Proof.Machine

theorem Memory.lookup_place_same (m : Memory) (a : Nat) (v : Byte) : Memory.lookup a (Memory.place a v m) = some v := by
  induction m with
  | nil => simp [Memory.place, Memory.lookup]
  | cons e rest ih =>
    obtain ⟨k, w⟩ := e
    simp only [Memory.place]
    split
    · simp [Memory.lookup]
    · split
      · simp [Memory.lookup]
      · have : k ≠ a := by omega
        simp [Memory.lookup, this, ih]

theorem Memory.lookup_place_other (m : Memory) {a b : Nat} (v : Byte) (h : b ≠ a) :
    Memory.lookup b (Memory.place a v m) = Memory.lookup b m := by
  have h' : a ≠ b := fun e => h e.symm
  induction m with
  | nil => simp [Memory.place, Memory.lookup, h']
  | cons e rest ih =>
    obtain ⟨k, w⟩ := e
    simp only [Memory.place]
    split
    · simp [Memory.lookup, h']
    · split
      · rename_i _ hk
        subst hk
        simp [Memory.lookup, h']
      · simp [Memory.lookup, ih]

/-- Raising the lower bound of a rising list is what dropping smaller entries allows. -/
theorem Memory.risingAbove_mono {low low' : Nat} {m : Memory} (h : low ≤ low') (hm : Memory.risingAbove low' m = true) :
    Memory.risingAbove low m = true := by
  cases m with
  | nil => rfl
  | cons e rest =>
    obtain ⟨k, w⟩ := e
    simp [Memory.risingAbove] at hm ⊢
    exact ⟨⟨by omega, hm.1.2⟩, hm.2⟩

theorem Memory.risingAbove_place {low a : Nat} {m : Memory} (v : Byte) (hm : Memory.risingAbove low m = true) (hl : low ≤ a)
    (ha : a < 0x10000) : Memory.risingAbove low (Memory.place a v m) = true := by
  induction m generalizing low with
  | nil => simp [Memory.place, Memory.risingAbove, hl, ha]
  | cons e rest ih =>
    obtain ⟨k, w⟩ := e
    simp [Memory.risingAbove] at hm
    simp only [Memory.place]
    split
    · simp [Memory.risingAbove, hl, ha, hm]
      omega
    · split
      · rename_i _ hk
        subst hk
        simp [Memory.risingAbove, hm]
      · simp [Memory.risingAbove, hm]
        exact ih hm.2 (by omega)

/-- Placing a byte keeps the canonical form. -/
theorem Memory.wf_place {m : Memory} {a : Nat} (v : Byte) (hm : Memory.wf m = true) (ha : a < 0x10000) :
    Memory.wf (Memory.place a v m) = true := Memory.risingAbove_place v hm (Nat.zero_le a) ha

theorem reset_mem_wf : Memory.wf State.reset.mem = true := rfl

/-- A read puts the address on the port and changes no promise (R76). -/
theorem State.memRead_mem (s : State) (a : Addr) : (s.memRead a).2.mem = s.mem := rfl

end Sys2Proof.Machine
end

