-- ==== Sys2Proof/Laws/PerInstr.lean ====
section
/-! SUPPORT. Per-instruction laws of the encoding: the word of every command carries its channel in `CH` and 0 in `Z` (R101, R103). -/

namespace Sys2Proof.Laws.WordFields

/-- The word of `i` carries its channel in `CH` and 0 in `Z` (R101, R103). -/
def Statement (i : Instr) : Prop := chField (encode i).word = i.channel.code ∧ zField (encode i).word = 0#9

theorem reset (ch : PlainChannel) : Statement (.reset ch) :=
  ⟨chField_packWord _ _ _ _, zField_packWord _ _ _ _⟩

theorem resetDmc : Statement (.resetDmc) :=
  ⟨chField_packWord _ _ _ _, zField_packWord _ _ _ _⟩

theorem wr (ch : PlainChannel) (addr : RegNo) (data : Byte) : Statement (.wr ch addr data) :=
  ⟨chField_packWord _ _ _ _, zField_packWord _ _ _ _⟩

theorem wrDmc0 (data : Byte) : Statement (.wrDmc0 data) :=
  ⟨chField_packWord _ _ _ _, zField_packWord _ _ _ _⟩

theorem wrDmc1 (data : Byte) : Statement (.wrDmc1 data) :=
  ⟨chField_packWord _ _ _ _, zField_packWord _ _ _ _⟩

theorem wrDmc2 (data : Byte) : Statement (.wrDmc2 data) :=
  ⟨chField_packWord _ _ _ _, zField_packWord _ _ _ _⟩

theorem wrDmc3 (data : Byte) : Statement (.wrDmc3 data) :=
  ⟨chField_packWord _ _ _ _, zField_packWord _ _ _ _⟩

theorem runSq (ch : SqChannel) (time : Nat) (endTime : Nat) : Statement (.runSq ch time endTime) :=
  ⟨chField_packWord _ _ _ _, zField_packWord _ _ _ _⟩

theorem runTri (time : Nat) (endTime : Nat) : Statement (.runTri time endTime) :=
  ⟨chField_packWord _ _ _ _, zField_packWord _ _ _ _⟩

theorem runNoi (time : Nat) (endTime : Nat) : Statement (.runNoi time endTime) :=
  ⟨chField_packWord _ _ _ _, zField_packWord _ _ _ _⟩

theorem runDmc (time : Nat) (endTime : Nat) : Statement (.runDmc time endTime) :=
  ⟨chField_packWord _ _ _ _, zField_packWord _ _ _ _⟩

theorem clkLen (ch : PlainChannel) (haltMask : Byte) : Statement (.clkLen ch haltMask) :=
  ⟨chField_packWord _ _ _ _, zField_packWord _ _ _ _⟩

theorem clkEnvSq (ch : SqChannel) : Statement (.clkEnvSq ch) :=
  ⟨chField_packWord _ _ _ _, zField_packWord _ _ _ _⟩

theorem clkEnvNoi : Statement (.clkEnvNoi) :=
  ⟨chField_packWord _ _ _ _, zField_packWord _ _ _ _⟩

theorem clkSwp (ch : SqChannel) (m8 : Byte) : Statement (.clkSwp ch m8) :=
  ⟨chField_packWord _ _ _ _, zField_packWord _ _ _ _⟩

theorem clkLin : Statement (.clkLin) :=
  ⟨chField_packWord _ _ _ _, zField_packWord _ _ _ _⟩

theorem setOut (ch : PlainChannel) (en : Bool) : Statement (.setOut ch en) :=
  ⟨chField_packWord _ _ _ _, zField_packWord _ _ _ _⟩

theorem setOutDmc (en : Bool) : Statement (.setOutDmc en) :=
  ⟨chField_packWord _ _ _ _, zField_packWord _ _ _ _⟩

theorem setLen (ch : PlainChannel) (n : BitVec 16) : Statement (.setLen ch n) :=
  ⟨chField_packWord _ _ _ _, zField_packWord _ _ _ _⟩

theorem dmcStart : Statement (.dmcStart) :=
  ⟨chField_packWord _ _ _ _, zField_packWord _ _ _ _⟩

theorem dmcStop : Statement (.dmcStop) :=
  ⟨chField_packWord _ _ _ _, zField_packWord _ _ _ _⟩

theorem irqAck : Statement (.irqAck) :=
  ⟨chField_packWord _ _ _ _, zField_packWord _ _ _ _⟩

theorem cntRd (t : Nat) : Statement (.cntRd t) :=
  ⟨chField_packWord _ _ _ _, zField_packWord _ _ _ _⟩

end Sys2Proof.Laws.WordFields
end

