-- ==== Sys2Proof/Laws/Split.lean ====
section
/-! SUPPORT. Window splitting (R149) of the RUN rules of the square, triangle and noise channels. -/

namespace Sys2Proof.Machine

open Sys2Proof.Claims

theorem split_square (ch) {t0 t1 t2 : Nat} (h2 : t1 < t2) (c : Square) (a : Accum) (ht : c.base.trigger = false) :
   let r1 := runSquare ch t0 t1 c a
   let r2 := runSquare ch t1 t2 { r1.1 with base := Base.untriggered r1.1.base } r1.2
   let r := runSquare ch t0 t2 c a
   r2.2 = r.2 ∧ { r2.1 with base := Base.untriggered r2.1.base } = { r.1 with base := Base.untriggered r.1.base } := by
  have hp : 1 ≤ c.base.regs.squareTimer := by unfold Regs.squareTimer; omega
  obtain ⟨s1, s2, s3⟩ := edges_split (t0 := t0) c.base.delay hp (Nat.le_of_lt h2)
  intro r1 r2 r
  have e2 : r2 = _ := runSquare_eq ch t1 t2 { r1.1 with base := Base.untriggered r1.1.base } r1.2 rfl
  have e3 : r = _ := runSquare_eq ch t0 t2 c a ht
  have e1 : r1 = _ := runSquare_eq ch t0 t1 c a ht
  rw [e2, e3, e1]
  dsimp only
  rw [← s1, ← s2]
  have hlv : squareLevels ⟨Base.untriggered (waveBase c.base (edges t0 t1 c.base.delay c.base.regs.squareTimer).carry (edges t0 t1
      c.base.delay c.base.regs.squareTimer).count (squareLevels c)), c.env,
      advancePhase c.phase (edges t0 t1 c.base.delay c.base.regs.squareTimer).count,
      c.sweepDelay⟩ = fun k => squareLevels c ((edges t0 t1 c.base.delay c.base.regs.squareTimer).count + k) := by
    generalize edges t0 t1 c.base.delay c.base.regs.squareTimer = e
    funext k
    have : (advancePhase c.phase e.count).toNat + k = (c.phase.toNat + e.count) % 8 + k := by rw [advancePhase_toNat]
    have : ((advancePhase c.phase e.count).toNat + k) % 8 = (c.phase.toNat + (e.count + k)) % 8 := by omega
    simp only [squareLevels, this]; rfl
  rw [hlv]
  dsimp only [edges_first, edges_period]
  simp only [show ∀ b c n lv, (Base.untriggered (waveBase b c n lv)).delay = c from fun _ _ _ _ => rfl, show ∀ b c n lv,
      (Base.untriggered (waveBase b c n lv)).regs = b.regs from fun _ _ _ _ => rfl] at *
  refine ⟨?_, ?_⟩
  · rw [s3]; exact wave_split _ _ _ _ _ _ _ _ _ _ _
  · rw [waveBase_split]; congr 1
    apply BitVec.eq_of_toNat_eq; simp only [advancePhase_toNat]; omega

theorem split_triangle {t0 t1 t2 : Nat} (h2 : t1 < t2) (c : Triangle) (a : Accum) (ht : c.base.trigger = false) :
   let r1 := runTriangle t0 t1 c a
   let r2 := runTriangle t1 t2 { r1.1 with base := Base.untriggered r1.1.base } r1.2
   let r := runTriangle t0 t2 c a
   r2.2 = r.2 ∧ { r2.1 with base := Base.untriggered r2.1.base } = { r.1 with base := Base.untriggered r.1.base } := by
  have hp : 1 ≤ Claims.period c.base.regs + 1 := by omega
  obtain ⟨s1, s2, s3⟩ := edges_split (t0 := t0) c.base.delay hp (Nat.le_of_lt h2)
  intro r1 r2 r
  have e2 : r2 = _ := runTriangle_iter t1 t2 { r1.1 with base := Base.untriggered r1.1.base } r1.2 rfl
  have e3 : r = _ := runTriangle_iter t0 t2 c a ht
  have e1 : r1 = _ := runTriangle_iter t0 t1 c a ht
  rw [e2, e3, e1]
  dsimp only
  simp only [show ∀ b c n lv, (Base.untriggered (waveBase b c n lv)).delay = c from fun _ _ _ _ => rfl, show ∀ b c n lv,
      (Base.untriggered (waveBase b c n lv)).regs = b.regs from fun _ _ _ _ => rfl] at *
  have hact : ∀ b' ph, b'.lengthCounter = c.base.lengthCounter → b'.regs = c.base.regs → (triActive ⟨b', ph, c.linearCounter⟩ ↔
      triActive c) := by
    intro b' ph h h'; simp only [triActive, h, h']
  simp only [hact _ _ (show (Base.untriggered (waveBase c.base _ _ _)).lengthCounter = c.base.lengthCounter from rfl) (show
      (Base.untriggered (waveBase c.base _ _ _)).regs = c.base.regs from rfl)]
  by_cases ha : triActive c
  · simp only [if_pos ha]
    have hit : ∀ n k, triStep^[k] (triStep^[n] c.phase) = triStep^[n + k] c.phase := by
      intro n k; rw [Nat.add_comm, Function.iterate_add_apply]
    simp only [hit]
    rw [← s1, ← s2]
    dsimp only [edges_first, edges_period]
    refine ⟨?_, ?_⟩
    · rw [s3]; exact wave_split _ _ _ _ _ _ _ _ _ _ (fun k => triLevel (triStep^[k] c.phase))
    · rw [waveBase_split _ _ _ _ _ (fun k => triLevel (triStep^[k] c.phase))]
  · simp only [if_neg ha]
    have hw : ∀ f f' : Nat, ∀ p n a ch t la lv, n = 0 → waveAcc a ch t f p n la lv = waveAcc a ch t f' p n la lv := by
      rintro f f' p n a ch t la lv rfl; simp [waveAcc, waveLog]
    have h1 := wave_split c.base a .tri 0 t0 t1 (edges t0 t2 c.base.delay (Claims.period c.base.regs + 1)).first (Claims.period
        c.base.regs + 1) 0 0 (fun k => triLevel (triStep^[k] c.phase))
    have h2 := waveBase_split c.base 0 0 0 0 (fun k => triLevel (triStep^[k] c.phase))
    simp only [Nat.zero_mul, Nat.add_zero, Nat.zero_add] at h1 h2
    refine ⟨?_, ?_⟩
    · rw [hw _ (edges t0 t2 c.base.delay (Claims.period c.base.regs + 1)).first _ _ _ _ _ _ _ rfl]
      exact h1
    · simp only [Function.iterate_zero, id]
      rw [h2]

theorem split_noise (pal) {t0 t1 t2 : Nat} (h2 : t1 < t2) (c : Noise) (a : Accum) (ht : c.base.trigger = false) :
   let r1 := runNoise pal t0 t1 c a
   let r2 := runNoise pal t1 t2 { r1.1 with base := Base.untriggered r1.1.base } r1.2
   let r := runNoise pal t0 t2 c a
   r2.2 = r.2 ∧ { r2.1 with base := Base.untriggered r2.1.base } = { r.1 with base := Base.untriggered r.1.base } := by
  have hp : 1 ≤ c.base.regs.noiseTimer pal := by
    unfold Regs.noiseTimer Regs.noisePeriodIndex byteField noisePeriod
    have : ∀ (p : Bool) (i : BitVec 4), 1 ≤ (noisePeriodRow p).getD i.toNat 4 := by decide
    exact this _ _
  obtain ⟨s1, s2, s3⟩ := edges_split (t0 := t0) c.base.delay hp (Nat.le_of_lt h2)
  intro r1 r2 r
  have e2 : r2 = _ := runNoise_eq pal t1 t2 { r1.1 with base := Base.untriggered r1.1.base } r1.2 rfl
  have e3 : r = _ := runNoise_eq pal t0 t2 c a ht
  have e1 : r1 = _ := runNoise_eq pal t0 t1 c a ht
  have hreg : ∀ m n k, noiseAfter (noiseAfter c.noise m n) m k = noiseAfter c.noise m (n + k) := by
    intro m n k
    induction k with
    | zero => rfl
    | succ k ih => show lfsrStep _ _ = lfsrStep (noiseAfter _ _ (n + k)) _; rw [ih]
  rw [e2, e3, e1]
  dsimp only
  simp only [show ∀ b c n lv, (Base.untriggered (waveBase b c n lv)).delay = c from fun _ _ _ _ => rfl, show ∀ b c n lv,
      (Base.untriggered (waveBase b c n lv)).regs = b.regs from fun _ _ _ _ => rfl,
   show ∀ b c n lv e, volume (Base.untriggered (waveBase b c n lv)) e = volume b e from fun _ _ _ _ _ => rfl, hreg] at *
  rw [← s1, ← s2]
  dsimp only [edges_first, edges_period]
  refine ⟨?_, ?_⟩
  · rw [s3]; exact wave_split _ _ _ _ _ _ _ _ _ _ (fun k => noiseAmp (noiseAfter c.noise c.base.regs.noiseMode k) (volume c.base
      c.env))
  · rw [waveBase_split _ _ _ _ _ (fun k => noiseAmp (noiseAfter c.noise c.base.regs.noiseMode k) (volume c.base c.env))]

end Sys2Proof.Machine
end

