-- ==== Sys2Proof/Machine/Outputs.lean ====
section
/-! DEFINITION. What the owner can see between commands (`spec/60_exceptions.md` R286, `spec/10_state.md` R40, `spec/46_accumulator.md` R269). No
command reads a register byte back (`spec/10_state.md` R22). -/

namespace Sys2Proof.Machine

/-- The outputs of one channel (R286). -/
structure ChannelOutputs where
  /-- Whether `length_counter` is above 0. -/
  lengthActive : Bool
  trigger : Bool
  deriving DecidableEq, Repr

/-- The level outputs of the block (R286), with `irq_enabled`, which R40 makes visible to the owner beside `irq_flag` and `next_irq`. -/
structure Outputs where
  /-- `irq_enabled` (R40). -/
  irqEnabled : Bool
  irqFlag : Bool
  nextIrq : Option Nat
  sq1 : ChannelOutputs
  sq2 : ChannelOutputs
  tri : ChannelOutputs
  noi : ChannelOutputs
  dmc : ChannelOutputs
  faulted : Bool
  cmdFault : Bool
  respCount : Nat
  accLog : List Emission
  accSum : Int
  deriving DecidableEq, Repr

/-- A channel's outputs. -/
def Base.outputs (b : Base) : ChannelOutputs :=
  { lengthActive := decide (b.lengthCounter > 0), trigger := b.trigger }

/-- The outputs of a state: a function of the state, so sampling them changes nothing (R40, R286, `92_eei_decisions.md` D44). -/
def State.outputs (s : State) : Outputs where
  irqEnabled := s.dmc.irqEnabled
  irqFlag := s.dmc.irqFlag
  nextIrq := s.dmc.nextIrq
  sq1 := s.sq1.base.outputs
  sq2 := s.sq2.base.outputs
  tri := s.tri.base.outputs
  noi := s.noi.base.outputs
  dmc := s.dmc.base.outputs
  faulted := s.faulted
  cmdFault := s.cmdFault
  respCount := s.respCount
  accLog := s.acc.log
  accSum := s.acc.sum

end Sys2Proof.Machine
end

