-- ==== Sys2Proof/Machine/Pseudo.lean ====
section
/-! DEFINITION. The pseudo-commands and the assembler text (`spec/30_encoding.md` R113, R114). A pseudo-command is the list of
commands it stands for; it adds no meaning of its own. -/

namespace Sys2Proof.Machine

/-- `QUARTER`. -/
def pseudoQuarter : List Instr := [.clkEnvSq .sq1, .clkEnvSq .sq2, .clkEnvNoi, .clkLin]

/-- `HALF`. -/
def pseudoHalf : List Instr :=
  [.clkLen .sq1 0x20#8, .clkLen .sq2 0x20#8, .clkLen .tri 0x80#8, .clkLen .noi 0x20#8, .clkSwp .sq1 0xFF#8, .clkSwp .sq2 0x00#8]

/-- `RUNALL t0, t1`. -/
def pseudoRunAll (t0 t1 : Nat) : List Instr :=
  [.runSq .sq1 t0 t1, .runSq .sq2 t0 t1, .runTri t0 t1, .runNoi t0 t1, .runDmc t0 t1]

/-- `RESETALL`. -/
def pseudoResetAll : List Instr := [.reset .sq1, .reset .sq2, .reset .tri, .reset .noi, .resetDmc]

/-- The channels `WRPERIOD` takes: SQ1, SQ2, TRI. -/
inductive PeriodChannel where
  | sq1 | sq2 | tri
  deriving DecidableEq, Repr

/-- The channel under its name in WR. -/
def PeriodChannel.toPlain : PeriodChannel → PlainChannel
  | .sq1 => .sq1
  | .sq2 => .sq2
  | .tri => .tri

/-- `WRPERIOD ch, p, ll`: the low byte to register 2, the length index and the high three bits to register 3. -/
def pseudoWrPeriod (ch : PeriodChannel) (p : BitVec 11) (ll : BitVec 5) : List Instr :=
  [.wr ch.toPlain .r2 (p.extractLsb' 0 8), .wr ch.toPlain .r3 (ll ++ p.extractLsb' 8 3)]

/-- The owner presents the commands of a list, in order, behind those already waiting. -/
def State.issueAll (s : State) (is : List Instr) : State := { s with pending := s.pending ++ is.map encode }

/-- A channel's name in the assembler syntax. -/
def channelText : Channel → String
  | .sq1 => "SQ1"
  | .sq2 => "SQ2"
  | .tri => "TRI"
  | .noi => "NOI"
  | .dmc => "DMC"

/-- A register number in the assembler syntax. -/
def regNoText (a : RegNo) : String := toString a.code.toNat

/-- One bit in the assembler syntax. -/
def bitText (b : Bool) : String := if b then "1" else "0"

/-- A mnemonic, its channel and its operands, comma-separated (R113). -/
def commandText (mnemonic : String) (ch : Channel) (operands : List String) : String :=
  mnemonic ++ " " ++ String.intercalate ", " (channelText ch :: operands)

/-- The assembler text of a command (R113); numbers in decimal (R8). -/
def assembly (i : Instr) : String :=
  match i with
  | .reset _ => commandText "RESET" i.channel []
  | .resetDmc => commandText "RESET" i.channel []
  | .wr _ addr data => commandText "WR" i.channel [regNoText addr, toString data.toNat]
  | .wrDmc0 data => commandText "WR" i.channel [regNoText .r0, toString data.toNat]
  | .wrDmc1 data => commandText "WR" i.channel [regNoText .r1, toString data.toNat]
  | .wrDmc2 data => commandText "WR" i.channel [regNoText .r2, toString data.toNat]
  | .wrDmc3 data => commandText "WR" i.channel [regNoText .r3, toString data.toNat]
  | .runSq _ time endTime => commandText "RUN" i.channel [toString time, toString endTime]
  | .runTri time endTime => commandText "RUN" i.channel [toString time, toString endTime]
  | .runNoi time endTime => commandText "RUN" i.channel [toString time, toString endTime]
  | .runDmc time endTime => commandText "RUN" i.channel [toString time, toString endTime]
  | .clkLen _ haltMask => commandText "CLKLEN" i.channel [toString haltMask.toNat]
  | .clkEnvSq _ => commandText "CLKENV" i.channel []
  | .clkEnvNoi => commandText "CLKENV" i.channel []
  | .clkSwp _ m8 => commandText "CLKSWP" i.channel [toString (negativeAdjust m8)]
  | .clkLin => commandText "CLKLIN" i.channel []
  | .setOut _ en => commandText "SETOUT" i.channel [bitText en]
  | .setOutDmc en => commandText "SETOUT" i.channel [bitText en]
  | .setLen _ n => commandText "SETLEN" i.channel [toString n.toNat]
  | .dmcStart => commandText "DMCSTART" i.channel []
  | .dmcStop => commandText "DMCSTOP" i.channel []
  | .irqAck => commandText "IRQACK" i.channel []
  | .cntRd t => commandText "CNTRD" i.channel [toString t]

end Sys2Proof.Machine
end

