-- ==== Sys2Proof/Tests/Slice0.lean ====
section
/-! SUPPORT. Tests of the model. Expected results come from the tables of `spec/30_encoding.md` and from the vectors of
`spec/95_test_vectors.md` (T1 to T22, P1 to P5; derived there from the rules, not measured). Each test is one step on a small state.
The last part shows, for every statement with hypotheses, states and operands that meet them. -/

namespace Sys2Proof.Tests

open Sys2Proof.Machine Sys2Proof.Claims

/-! ### WellFormed: the one form check, and an ill-formed term it refuses (R109, R111) -/

theorem test_wellFormed_refuses_negativeAdjust : ¬WellFormed (.clkSwp .sq1 0x01#8) := by decide

theorem test_decode_refuses_negativeAdjust : decode ⟨0x50000001#32, 0, 0⟩ = .error .badNegativeAdjust := by decide

theorem test_exec_refuses_negativeAdjust :
    exec (.clkSwp .sq1 0x01#8) State.reset = .next { State.reset with cmdFault := true } := by rfl

/-! ### Decoding: words written out from R101 (`OP` 4 bits, `CH` 3, `Z` 9, `IMM` 16), R102 and R103, one per constructor -/

theorem test_word_reset : decode ⟨0b0000_011_000000000_0000000000000000#32, 0, 0⟩ = .ok (.reset .noi) := by decide

theorem test_word_resetDmc : decode ⟨0b0000_100_000000000_0000000000000000#32, 0, 0⟩ = .ok .resetDmc := by decide

/-- `WR TRI, 2, 0x0F` (P2, row 3). -/
theorem test_word_wr : decode ⟨0b0001_010_000000000_000000_10_00001111#32, 0, 0⟩ = .ok (.wr .tri .r2 0x0F#8) := by decide

theorem test_word_wrDmc0 : decode ⟨0b0001_100_000000000_000000_00_10001111#32, 0, 0⟩ = .ok (.wrDmc0 0x8F#8) := by decide

theorem test_word_wrDmc1 : decode ⟨0b0001_100_000000000_000000_01_01000000#32, 0, 0⟩ = .ok (.wrDmc1 0x40#8) := by decide

theorem test_word_wrDmc2 : decode ⟨0b0001_100_000000000_000000_10_11111111#32, 0, 0⟩ = .ok (.wrDmc2 0xFF#8) := by decide

theorem test_word_wrDmc3 : decode ⟨0b0001_100_000000000_000000_11_00000100#32, 0, 0⟩ = .ok (.wrDmc3 0x04#8) := by decide

theorem test_word_runSq : decode ⟨0b0010_001_000000000_0000000000000000#32, 5000, 10000⟩ = .ok (.runSq .sq2 5000 10000) := by decide

theorem test_word_runTri : decode ⟨0b0010_010_000000000_0000000000000000#32, 0, 10⟩ = .ok (.runTri 0 10) := by decide

theorem test_word_runNoi : decode ⟨0b0010_011_000000000_0000000000000000#32, 0, 60⟩ = .ok (.runNoi 0 60) := by decide

theorem test_word_runDmc : decode ⟨0b0010_100_000000000_0000000000000000#32, 433, 6480⟩ = .ok (.runDmc 433 6480) := by decide

theorem test_word_clkLen : decode ⟨0b0011_010_000000000_00000000_10000000#32, 0, 0⟩ = .ok (.clkLen .tri 0x80#8) := by decide

theorem test_word_clkEnvSq : decode ⟨0b0100_001_000000000_0000000000000000#32, 0, 0⟩ = .ok (.clkEnvSq .sq2) := by decide

theorem test_word_clkEnvNoi : decode ⟨0b0100_011_000000000_0000000000000000#32, 0, 0⟩ = .ok .clkEnvNoi := by decide

theorem test_word_clkSwp : decode ⟨0b0101_000_000000000_00000000_11111111#32, 0, 0⟩ = .ok (.clkSwp .sq1 0xFF#8) := by decide

theorem test_word_clkLin : decode ⟨0b0110_010_000000000_0000000000000000#32, 0, 0⟩ = .ok .clkLin := by decide

theorem test_word_setOut : decode ⟨0b0111_001_000000000_000000000000000_1#32, 0, 0⟩ = .ok (.setOut .sq2 true) := by decide

theorem test_word_setOutDmc : decode ⟨0b0111_100_000000000_000000000000000_0#32, 0, 0⟩ = .ok (.setOutDmc false) := by decide

/-- `SETLEN TRI, 65535` (T18): every bit of the immediate counts. -/
theorem test_word_setLen : decode ⟨0b1000_010_000000000_1111111111111111#32, 0, 0⟩ = .ok (.setLen .tri 0xFFFF#16) := by decide

theorem test_word_dmcStart : decode ⟨0b1001_100_000000000_0000000000000000#32, 0, 0⟩ = .ok .dmcStart := by decide

theorem test_word_dmcStop : decode ⟨0b1010_100_000000000_0000000000000000#32, 0, 0⟩ = .ok .dmcStop := by decide

theorem test_word_irqAck : decode ⟨0b1011_100_000000000_0000000000000000#32, 0, 0⟩ = .ok .irqAck := by decide

theorem test_word_cntRd : decode ⟨0b1100_100_000000000_0000000000000000#32, 6480, 0⟩ = .ok (.cntRd 6480) := by decide

/-- T19: the illegal words of the table, each rejected for the reason it names. -/
theorem test_illegal_words :
    decode ⟨0xD0000000#32, 0, 0⟩ = .error .reservedOp ∧ decode ⟨0x1A000000#32, 0, 0⟩ = .error .reservedChannel ∧
      decode ⟨0x38000020#32, 0, 0⟩ = .error .channelNotAllowed ∧ decode ⟨0x44000000#32, 0, 0⟩ = .error .channelNotAllowed ∧
      decode ⟨0x56000000#32, 0, 0⟩ = .error .channelNotAllowed ∧ decode ⟨0x60000000#32, 0, 0⟩ = .error .channelNotAllowed ∧
      decode ⟨0x90000000#32, 0, 0⟩ = .error .channelNotAllowed ∧ decode ⟨0x10010000#32, 0, 0⟩ = .error .zNotZero ∧
      decode ⟨0x10000400#32, 0, 0⟩ = .error .spareImmNotZero ∧ decode ⟨0x70000002#32, 0, 0⟩ = .error .spareImmNotZero ∧
      decode ⟨0x20000001#32, 0, 10⟩ = .error .spareImmNotZero ∧ decode ⟨0x88000001#32, 0, 0⟩ = .error .channelNotAllowed ∧
      decode ⟨0x4000FFFF#32, 0, 0⟩ = .error .spareImmNotZero := by decide

/-! ### Small states -/

/-- The state after one presented command. -/
def issue (s : State) (word : CmdWord) (t0 t1 : Nat) : State := stateAfter { s with pending := [⟨word, t0, t1⟩] }

/-- A base state with these registers, a length and a binding. -/
def base (r0 r1 r2 r3 : Byte) (length : Nat) (en : Bool) : Base :=
  { Base.powerOn with regs := ⟨r0, r1, r2, r3⟩, lengthCounter := length, outEn := en }

/-- Square 1 with these registers, bound, `length_counter` 1. -/
def square (r0 r1 r2 r3 : Byte) : State := { State.reset with sq1 := { Square.powerOn with base := base r0 r1 r2 r3 1 true } }

/-- T9: the triangle of the example of R204. -/
def triangle : State :=
  { State.reset with tri := { Triangle.powerOn with base := base 0x7F#8 0#8 2#8 0#8 5 true, linearCounter := 3#7 } }

/-- T11: the noise channel, loop and constant volume 15. -/
def noise : State := { State.reset with noi := { Noise.powerOn with base := base 0x3F#8 0#8 0#8 0#8 1 true } }

/-- The memory of T13. -/
def sample : Memory := [(0xC000, 0x0F#8), (0xC001, 0xAA#8), (0xC002, 0xFF#8), (0xC010, 0x55#8)]

/-- T13 before DMCSTART: 17 bytes from 0xC000, rate 15, IRQ enabled, bound, level 64. -/
def player : State :=
  { State.reset with
    mem := sample
    dmc := { Dmc.powerOn with base := base 0x8F#8 0x40#8 0#8 1#8 0 true, period := 54, irqEnabled := true, dac := 64#7 } }

/-- T13 before the last read: one byte left, the next edge at 6480 reloads and reads 0xC010. -/
def lastByte : State :=
  { player with dmc := { player.dmc with
      base := { player.dmc.base with lengthCounter := 1, lastAmp := 82 }
      address := 0x4010#15, buf := 0x55#8, bufFull := true, bits := 0x00#8, bitsRemain := 1, dac := 82#7, silence := false
      nextIrq := some 6481, lastTime := 6480 } }

/-- T14: three reads remain, at 5616, 6048 and 6480. -/
def threeReads : State :=
  { player with dmc := { player.dmc with
      base := { player.dmc.base with lengthCounter := 3 }, bufFull := true, bitsRemain := 8, lastTime := 5238, nextIrq := some 6481 } }

/-- The last byte with nine cycles to the next edge. -/
def waiting : State := { lastByte with dmc := { lastByte.dmc with base := { lastByte.dmc.base with delay := 9 } } }

/-- The player without a memory reader. -/
def noReader (s : State) : State := { s with params := { s.params with memReaderPresent := false } }

/-! ### One step each -/

/-- T20 in small: the registers and levels go, the binding stays. -/
theorem test_reset : (issue (square 0x9F#8 0#8 0x64#8 0#8) 0x00000000#32 0 0).sq1 =
    { Square.powerOn with base := { Base.powerOn with outEn := true } } := by decide

/-- T20: the period is 428, the binding stays, no notification. -/
theorem test_resetDmc : (issue lastByte 0x08000000#32 0 0).dmc = { Dmc.powerOn with base := { Base.powerOn with outEn := true } } ∧
    (issue lastByte 0x08000000#32 0 0).notifications = [] := by decide

/-- P1, row 2. -/
theorem test_wr : (issue State.reset 0x10000081#32 0 0).sq1.base.regs = ⟨0x81#8, 0#8, 0#8, 0#8⟩ ∧
    (issue State.reset 0x10000081#32 0 0).sq1.base.written = ⟨true, false, false, false⟩ := by decide

/-- T22: the period of the IRQ write, and the schedule of 16 bytes with the notification. -/
theorem test_wrDmc0 :
    let s := { State.reset with dmc := { Dmc.powerOn with base := base 0#8 0#8 0#8 1#8 16 false, bufFull := true } }
    (issue s 0x1800008E#32 0 0).dmc.period = 72 ∧ (issue s 0x1800008E#32 0 0).dmc.nextIrq = some 8641 ∧
      (issue s 0x1800008E#32 0 0).notifications = [.irqChanged] := by decide

/-- T20: on a PAL instance rate 0 is 398. -/
theorem test_wrDmc0_pal :
    (issue { State.reset with params := { State.reset.params with palDmc := true } } 0x18000000#32 0 0).dmc.period = 398 := by decide

/-- P3, row 3. -/
theorem test_wrDmc1 : (issue State.reset 0x18000140#32 0 0).dmc.dac = 64#7 ∧ (issue State.reset 0x18000140#32 0 0).acc.log = [] := by
  decide

/-- T16: register 2 only holds the byte. -/
theorem test_wrDmc2 : (issue State.reset 0x180002FF#32 0 0).dmc.base.regs = ⟨0#8, 0#8, 0xFF#8, 0#8⟩ ∧
    (issue State.reset 0x180002FF#32 0 0).dmc.address = 0#15 := by decide

/-- T16: register 3 only holds the byte. -/
theorem test_wrDmc3 : (issue State.reset 0x18000304#32 0 0).dmc.base.regs = ⟨0#8, 0#8, 0#8, 4#8⟩ ∧
    (issue State.reset 0x18000304#32 0 0).dmc.base.lengthCounter = 0 := by decide

/-- T4, duty 0: two emissions at time 0, in order. -/
theorem test_runSq : (issue (square 0x13#8 0x08#8 8#8 0#8) 0x20000000#32 0 162).acc.log =
    [⟨.sq1, 0, 3⟩, ⟨.sq1, 0, -3⟩, ⟨.sq1, 126, 3⟩, ⟨.sq1, 144, -3⟩] ∧
    (issue (square 0x13#8 0x08#8 8#8 0#8) 0x20000000#32 0 162).sq1.phase = 1#3 := by decide

/-- T6: the sweep target 0x801 silences, 0x7FF does not. -/
theorem test_runSq_sweep_target : (issue (square 0x9F#8 0x01#8 0x56#8 0x05#8) 0x20000000#32 0 10).acc.log = [] ∧
    (issue (square 0x9F#8 0x01#8 0x55#8 0x05#8) 0x20000000#32 0 10).acc.log = [⟨.sq1, 0, 15⟩] := by decide

/-- T9. -/
theorem test_runTri : (issue triangle 0x24000000#32 0 10).acc.log =
    [⟨.tri, 0, 15⟩, ⟨.tri, 3, -1⟩, ⟨.tri, 6, -1⟩, ⟨.tri, 9, -1⟩] ∧ (issue triangle 0x24000000#32 0 10).tri.phase = 29 ∧
    (issue triangle 0x24000000#32 0 10).tri.base.delay = 2 := by decide

/-- T10: a silent triangle, bound at power-on, still emits the level of its phase. -/
theorem test_runTri_silent :
    (issue { State.reset with tri := { Triangle.powerOn with base := base 0#8 0#8 0#8 0#8 0 true } } 0x24000000#32 0 5).acc.log =
      [⟨.tri, 0, 15⟩] := by decide

/-- T11. -/
theorem test_runNoi : (issue noise 0x26000000#32 0 60).acc.log = [⟨.noi, 0, 15⟩, ⟨.noi, 52, -15⟩, ⟨.noi, 56, 15⟩] ∧
    (issue noise 0x26000000#32 0 60).noi.noise = 0x6000#15 := by decide

/-- T12: single steps of the register in both modes. -/
theorem test_lfsrStep : lfsrStep 0x0001#15 false = 0x4000#15 ∧ lfsrStep 0x0002#15 false = 0x4001#15 ∧
    lfsrStep 0x0040#15 true = 0x4020#15 ∧ lfsrStep 0x7FFF#15 true = 0x3FFF#15 := by decide

/-- P3, row 11: the last read ends the sample, in the order of R287. -/
theorem test_runDmc_last_byte : (issue lastByte 0x28000000#32 6480 6481).dmc.irqFlag = true ∧
    (issue lastByte 0x28000000#32 6480 6481).dmc.dac = 80#7 ∧ (issue lastByte 0x28000000#32 6480 6481).memReads = [0xC010#16] ∧
    (issue lastByte 0x28000000#32 6480 6481).notifications = [.dmcDisabled, .irqChanged] := by decide

/-- T15: 126 + 2 is out of range, the step is dropped; then 124. -/
theorem test_runDmc_clamp :
    let s := { State.reset with dmc := { Dmc.powerOn with
      base := { base 0#8 0#8 0#8 0#8 0 true with lastAmp := 126 }, dac := 126#7, silence := false, bits := 1#8, bitsRemain := 3
      period := 54 } }
    (issue s 0x28000000#32 0 108).acc.log = [⟨.dmc, 54, -2⟩] ∧ (issue s 0x28000000#32 0 108).dmc.bitsRemain = 1 := by decide

/-- T18: the halt bit of the mask keeps the counter. -/
theorem test_clkLen :
    let s := { State.reset with tri := { Triangle.powerOn with base := base 0x80#8 0#8 0#8 0#8 5 false } }
    (issue s 0x34000080#32 0 0).tri.base.lengthCounter = 5 ∧ (issue s 0x34000000#32 0 0).tri.base.lengthCounter = 4 := by decide

/-- P1, row 7: a written latch restarts the envelope and is consumed. -/
theorem test_clkEnvSq :
    let s := { State.reset with sq1 := { Square.powerOn with
      base := { base 0x81#8 0#8 0xFD#8 0#8 2 true with written := ⟨true, true, true, true⟩ } } }
    (issue s 0x40000000#32 0 0).sq1.env = ⟨15#4, 1#4⟩ ∧ (issue s 0x40000000#32 0 0).sq1.base.written = ⟨true, true, true, false⟩ := by
  decide

/-- T7: an envelope that loops wraps from 0 to 15. -/
theorem test_clkEnvNoi :
    let s := { State.reset with noi := { Noise.powerOn with base := base 0x20#8 0#8 0#8 0#8 1 true } }
    (issue s 0x46000000#32 0 0).noi.env = ⟨15#4, 0#4⟩ := by decide

/-- T8 k: committed, bits 7:3 of register 3 kept. -/
theorem test_clkSwp_commit : (issue (square 0xBF#8 0x91#8 0x55#8 0xFD#8) 0x500000FF#32 0 0).sq1.base.regs =
    ⟨0xBF#8, 0x91#8, 0xFF#8, 0xFF#8⟩ ∧ (issue (square 0xBF#8 0x91#8 0x55#8 0xFD#8) 0x500000FF#32 0 0).sq1.sweepDelay = 1#3 := by
  decide

/-- T8 b: negated, one more off with the operand -1. -/
theorem test_clkSwp_negate : (issue (square 0xBF#8 0x99#8 0x00#8 0x01#8) 0x500000FF#32 0 0).sq1.base.regs =
    ⟨0xBF#8, 0x99#8, 0x7F#8, 0x00#8⟩ := by decide

/-- T10: with the control bit the latch stays. -/
theorem test_clkLin :
    let s := { State.reset with tri := { Triangle.powerOn with
      base := { base 0x85#8 0#8 0#8 0#8 0 true with written := ⟨false, false, false, true⟩ } } }
    (issue s 0x64000000#32 0 0).tri.linearCounter = 5#7 ∧ (issue s 0x64000000#32 0 0).tri.base.written.w3 = true := by decide

/-- P2, row 1. -/
theorem test_setOut : (issue State.reset 0x74000001#32 0 0).tri.base.outEn = true ∧
    (issue State.reset 0x74000001#32 0 0).acc.log = [] := by decide

/-- T17: unbinding parks the level. -/
theorem test_setOutDmc : (issue player 0x78000000#32 0 0).dmc.dac = 0#7 ∧ (issue player 0x78000000#32 0 0).dmc.pausedDac = 64#7 := by
  decide

/-- T18. -/
theorem test_setLen : (issue State.reset 0x8400FFFF#32 0 0).tri.base.lengthCounter = 65535 := by decide

/-- T13: the first read, the count and the schedule. -/
theorem test_dmcStart : (issue player 0x98000000#32 0 0).dmc.nextIrq = some 6481 ∧ (issue player 0x98000000#32 0 0).dmc.buf = 0x0F#8 ∧
    (issue player 0x98000000#32 0 0).dmc.address = 0x4001#15 ∧ (issue player 0x98000000#32 0 0).notifications = [.irqChanged] := by
  decide

/-- T19: without a reader the reload has happened, the read has not, and later commands are ignored. -/
theorem test_dmcStart_fatal : (issue (noReader player) 0x98000000#32 0 0).faulted = true ∧
    (issue (noReader player) 0x98000000#32 0 0).dmc.base.lengthCounter = 17 ∧
    (issue (issue (noReader player) 0x98000000#32 0 0) 0x100000FF#32 0 0).sq1.base.regs.r0 = 0#8 := by decide

/-- T22: the schedule goes, with one notification. -/
theorem test_dmcStop : (issue lastByte 0xA8000000#32 0 0).dmc.nextIrq = none ∧
    (issue lastByte 0xA8000000#32 0 0).notifications = [.irqChanged] := by decide

/-- P3, row 12. -/
theorem test_irqAck : (issue { player with dmc := { player.dmc with irqFlag := true } } 0xB8000000#32 0 0).dmc.irqFlag = false := by
  decide

/-- T14. -/
theorem test_cntRd : (issue threeReads 0xC8000000#32 5616 0).respCount = 0 ∧ (issue threeReads 0xC8000000#32 5617 0).respCount = 1 := by
  decide

/-- T19: a reversed window raises the command fault and nothing else. -/
theorem test_badWindow : issue State.reset 0x20000000#32 6 5 = { State.reset with cmdFault := true } := by decide

/-- T21. -/
theorem test_edges : edges 0 10 0 3 = ⟨0, 3, 4, 2⟩ ∧ edges 0 10 10 3 = ⟨10, 3, 0, 0⟩ ∧ edges 0 10 25 3 = ⟨25, 3, 0, 15⟩ ∧
    edges 0 4097 0 4096 = ⟨0, 4096, 2, 4095⟩ := by decide

/-- `WRPERIOD SQ1, 0x0FD, 3` writes the low byte, then the length index and the high bits (R114). -/
theorem test_pseudo_wrPeriod : pseudoWrPeriod .sq1 0x0FD#11 3#5 = [.wr .sq1 .r2 0xFD#8, .wr .sq1 .r3 0x18#8] := by decide

/-- A table word is fetched and run: `withFetchWord` on the reset state. -/
theorem test_withFetchWord : decodeTableWord 32 0x70000001 = some (.setOut .sq1 true) ∧
    step (State.reset.withFetchWord 32 0x70000001) = .next { State.reset with sq1 := { Square.powerOn with
      base := { Base.powerOn with outEn := true } } } := ⟨by decide, by rfl⟩

/-! ### Witnesses: states and operands that meet the hypotheses of the statements -/

/-- The state with this command presented. -/
def presented (s : State) (word : CmdWord) (t0 t1 : Nat) : State := { s with pending := [⟨word, t0, t1⟩] }

theorem witness_DecodeEncodeRoundTrip : WellFormed (.clkSwp .sq2 0x00#8) ∧ WellFormed (.setLen .noi 0xFFFF#16) := by decide

theorem witness_EncodeDecodeRoundTrip : decode ⟨0x8600FFFF#32, 7, 9⟩ = .ok (.setLen .noi 0xFFFF#16) := by decide

/-- A word for each line of R111, at the edges of the ranges. -/
theorem witness_IllegalWordSetsCmdFaultOnly_illegal :
    illegalWord 0xD0000000#32 ∧ illegalWord 0x1A000000#32 ∧ illegalWord 0x38000020#32 ∧ illegalWord 0x10010000#32 ∧
      illegalWord 0x10000400#32 ∧ illegalWord 0x50000001#32 := by
  simp [illegalWord, field, channelAllowed, spareBitSet]

theorem witness_IllegalWordSetsCmdFaultOnly_legal : ¬illegalWord 0xC8000000#32 ∧ ¬illegalWord 0x500000FF#32 ∧ ¬illegalWord 0x1000009F#32 := by
  simp [illegalWord, field, channelAllowed, spareBitSet]

theorem witness_IllegalWordSetsCmdFaultOnly_reversed : ¬illegalWord 0x28000000#32 ∧ field 0x28000000#32 31 28 = 2 ∧
    (presented State.reset 0x28000000#32 6 5).faulted = false ∧
    (presented State.reset 0x28000000#32 6 5).pending = ⟨0x28000000#32, 6, 5⟩ :: [] := by
  refine ⟨?_, by decide, by decide, by decide⟩
  simp [illegalWord, field, channelAllowed, spareBitSet]

theorem witness_AdmissionOrder :
    ({ presented State.reset 0x10000000#32 0 0 with faulted := true }.faulted = true) ∧
      decode ⟨0xD0000000#32, 0, 0⟩ = .error .reservedOp ∧ decode ⟨0x10000000#32, 0, 0⟩ = .ok (.wr .sq1 .r0 0#8) ∧
      decode ⟨0x24000000#32, 6, 5⟩ = .ok (runOf .tri 6 5) := by decide

theorem witness_StepRunsDecodedCommand : WellFormed (.runDmc 0 1) ∧ { State.reset with pending := [encode (.runDmc 0 1)] }.faulted = false ∧
    { State.reset with pending := [encode (.runDmc 0 1)] }.pending = encode (.runDmc 0 1) :: [] ∧ State.reset.pending = [] := by decide

/-- A legal operation on a channel it is rejected on: the words the `rejectedOn` clauses speak of. -/
theorem witness_rejectedOn : field 0x38000020#32 31 28 = 3 ∧ field 0x38000020#32 27 25 = 4 ∧ field 0x88000001#32 31 28 = 8 ∧
    field 0x44000000#32 31 28 = 4 ∧ field 0x44000000#32 27 25 = 2 ∧ field 0x48000000#32 27 25 = 4 ∧ field 0x56000000#32 31 28 = 5 ∧
    field 0x56000000#32 27 25 = 3 ∧ field 0x60000000#32 31 28 = 6 ∧ field 0x60000000#32 27 25 = 0 ∧ field 0xA0000000#32 31 28 = 10 ∧
    field 0xB6000000#32 31 28 = 11 ∧ field 0xB6000000#32 27 25 = 3 ∧ field 0xC2000000#32 31 28 = 12 ∧
    field 0xC2000000#32 27 25 = 1 := by decide

theorem witness_ClkSwpTicks_commit : (square 0xBF#8 0x91#8 0x55#8 0xFD#8).sq1.sweepDelay.toNat = 0 ∧
    sweepCommitted (square 0xBF#8 0x91#8 0x55#8 0xFD#8).sq1.base.regs (-1) ∧
    sweepCommitted (square 0xBF#8 0x99#8 0x08#8 0x00#8).sq1.base.regs (-1) := by
  refine ⟨by decide, ?_, ?_⟩ <;> (unfold sweepCommitted; decide)

theorem witness_ClkSwpTicks_noCommit : ¬sweepCommitted (square 0xBF#8 0x91#8 0x56#8 0xFD#8).sq1.base.regs (-1) ∧
    ¬sweepCommitted (square 0xBF#8 0x91#8 0x07#8 0x00#8).sq1.base.regs (-1) := by
  refine ⟨?_, ?_⟩ <;> (unfold sweepCommitted; decide)

theorem witness_ClkSwpTicks_operands : (0xFF#8 = 0xFF#8 ∨ 0xFF#8 = 0x00#8) ∧ (0x00#8 = 0xFF#8 ∨ 0x00#8 = 0x00#8) ∧ 0x01#8 ≠ 0xFF#8 ∧
    0x01#8 ≠ 0x00#8 ∧ field 0x50000001#32 31 28 = 5 ∧ field 0x50000001#32 7 0 = 1 := by decide

theorem witness_EnvelopeSequence :
    { State.reset with noi := { Noise.powerOn with base := { Base.powerOn with written := ⟨true, false, false, true⟩ } } }.noi.base.written.w3 =
      true ∧
    ({ State.reset with sq2 := { Square.powerOn with base := { Base.powerOn with written := ⟨true, true, true, true⟩ } } }.square
      .sq2).base.written.w3 = true := by decide

theorem witness_ReversedAndEmptyWindows : (5 : Nat) < 6 := by decide

/-- The windows at whose boundaries the clauses meet: an edge, an edge exactly at the end, no edge. -/
theorem witness_EdgesEnumerateWindow : (0 : Nat) < 10 ∧ 1 ≤ (edges 0 10 9 3).count ∧ (edges 0 10 10 3).count = 0 ∧
    (edges 0 10 25 3).count = 0 := by decide

theorem witness_RunSqResult : (0 : Nat) < 1 := by decide

theorem witness_RunTriResult : (0 : Nat) < 10 ∧ 1 ≤ triangle.tri.phase ∧ triangle.tri.phase ≤ 32 ∧ triActive triangle.tri ∧
    ¬triActive State.reset.tri := by decide

theorem witness_RunNoiResult : (0 : Nat) < 60 := by decide

/-- The forms of DMCSTART: buffer full; empty with more than one byte; one byte, looping and not; and without a reader. -/
theorem witness_DmcStartResult : lastByte.dmc.bufFull = true ∧ player.params.memReaderPresent = true ∧ player.dmc.bufFull = false ∧
    player.dmc.base.regs.r3.toNat ≠ 0 ∧ State.reset.dmc.base.regs.r3.toNat = 0 ∧ bit State.reset.dmc.base.regs.r0 6 = 0 ∧
    bit (0x4F#8) 6 = 1 := by decide

theorem witness_DmcStartWithoutReaderIsFatal :
    (noReader player).params.memReaderPresent = false ∧ (noReader player).dmc.bufFull = false := by decide

theorem witness_RunDmcCompletes : (0 : Nat) < 433 ∧ player.params.memReaderPresent = true ∧ player.dmc.base.outEn = true ∧
    State.reset.dmc.base.outEn = false := by decide

/-- The premises of the one-edge statement, with each of its later clauses: no reload, a reload with the buffer empty, with the
buffer full and no byte, several bytes, one byte. -/
theorem witness_RunDmcOneEdge : lastByte.params.memReaderPresent = true ∧ 1 ≤ lastByte.dmc.period ∧ lastByte.dmc.bitsRemain = 1 ∧
    lastByte.dmc.base.delay = 0 ∧ lastByte.dmc.bufFull = true ∧ lastByte.dmc.base.lengthCounter = 1 ∧
    bit lastByte.dmc.base.regs.r0 6 = 0 ∧ 1 < threeReads.dmc.base.lengthCounter ∧ threeReads.dmc.bitsRemain ≠ 1 ∧
    player.dmc.bitsRemain = 1 ∧ player.dmc.bufFull = false ∧ player.dmc.base.lengthCounter = 0 := by decide

/-- The read at the first edge of the window, and (T14) at its eighth. -/
theorem witness_RunDmcFatalKeepsEarlierEffects :
    ((noReader lastByte).params.memReaderPresent = false ∧ 1 ≤ (noReader lastByte).dmc.period ∧
      1 ≤ (noReader lastByte).dmc.bitsRemain ∧ (noReader lastByte).dmc.bufFull = true ∧ 0 < (noReader lastByte).dmc.base.lengthCounter ∧
      6480 + (noReader lastByte).dmc.base.delay + ((noReader lastByte).dmc.bitsRemain - 1) * (noReader lastByte).dmc.period < 6481) ∧
    ((noReader threeReads).params.memReaderPresent = false ∧ 1 ≤ (noReader threeReads).dmc.period ∧
      (noReader threeReads).dmc.bitsRemain = 8 ∧ (noReader threeReads).dmc.bufFull = true ∧
      0 < (noReader threeReads).dmc.base.lengthCounter ∧
      5238 + (noReader threeReads).dmc.base.delay + ((noReader threeReads).dmc.bitsRemain - 1) * (noReader threeReads).dmc.period <
        5617) := by decide

/-- A window that ends at the reload edge (T14: seven edges before it), and one that ends at the next edge, so that it holds none. -/
theorem witness_RunDmcBeforeReload :
    (5238 : Nat) < 5616 ∧ (edges 5238 5616 threeReads.dmc.base.delay threeReads.dmc.period).count = 7 ∧ 7 < threeReads.dmc.bitsRemain ∧
    (100 : Nat) < 109 ∧ 109 ≤ 100 + (waiting.dmc.base.delay) ∧
    (edges 100 109 waiting.dmc.base.delay waiting.dmc.period).count < waiting.dmc.bitsRemain := by decide

theorem witness_SilentDmcBatching : (0 : Nat) < 1000 ∧ player.dmc.silence = true ∧ player.dmc.bufFull = false ∧
    1 ≤ player.dmc.bitsRemain ∧ player.dmc.bitsRemain ≤ 8 := by decide

theorem lastByte_inv : lastByte.Inv := by
  constructor <;> decide

theorem threeReads_inv : threeReads.Inv := by
  constructor <;> decide

/-- Reset is of no use here: it has no schedule. `lastByte` has, and 6480 and 6481 lie on the two sides of it. -/
theorem witness_NextIrqIsLeastEndTime : lastByte.Inv ∧ lastByte.params.memReaderPresent = true ∧ lastByte.dmc.nextIrq = some 6481 ∧
    6481 = predictedIrq lastByte.dmc ∧ lastByte.dmc.irqFlag = false ∧ lastByte.dmc.lastTime ≤ 6480 :=
  ⟨lastByte_inv, by decide, by decide, by decide, by decide, by decide⟩

theorem witness_RunKeepsPrediction : threeReads.Inv ∧ threeReads.dmc.nextIrq = some 6481 ∧ 6481 = predictedIrq threeReads.dmc ∧
    threeReads.dmc.lastTime ≤ 5617 ∧ 5617 < 6481 ∧ ∃ t, exec (.runDmc 5238 5617) threeReads = .next t :=
  ⟨threeReads_inv, by decide, by decide, by decide, by decide, _, rfl⟩

theorem witness_CountReadsClosedForm : threeReads.Inv ∧ 0 < threeReads.dmc.base.lengthCounter ∧
    bit threeReads.dmc.base.regs.r0 6 = 0 := ⟨threeReads_inv, by decide, by decide⟩

theorem witness_CntRdCountsTheReadsOfARun : threeReads.dmc.lastTime < 5617 ∧ ∃ u, exec (.runDmc 5238 5617) threeReads = .next u :=
  ⟨by decide, _, rfl⟩

theorem witness_AtMostOneIrqChangedPerCommand : ∃ t, exec (.runDmc 6480 6481) lastByte = .next t ∧
    t.notifications = [.dmcDisabled, .irqChanged] := ⟨_, rfl, by decide⟩

/-- The flag rises in RUN DMC and in DMCSTART on a one-byte sample. -/
theorem witness_IrqFlagLifeCycle_rises :
    (lastByte.dmc.irqFlag = false ∧ ∃ t, exec (.runDmc 6480 6481) lastByte = .next t ∧ t.dmc.irqFlag = true) ∧
    ∃ t, exec .dmcStart { State.reset with dmc := { Dmc.powerOn with irqEnabled := true } } = .next t ∧ t.dmc.irqFlag = true :=
  ⟨⟨by decide, _, rfl, by decide⟩, _, rfl, by decide⟩

/-- A state with the flag set, in which each of the three commands that clear it does. -/
theorem witness_IrqFlagLifeCycle_falls : ∃ s : State, s.dmc.irqFlag = true ∧
    (∃ t, exec (.wrDmc0 0#8) s = .next t ∧ t.dmc.irqFlag = false) ∧ (∃ t, exec .irqAck s = .next t ∧ t.dmc.irqFlag = false) ∧
    ∃ t, exec .resetDmc s = .next t ∧ t.dmc.irqFlag = false :=
  ⟨{ player with dmc := { player.dmc with irqFlag := true } }, by decide, ⟨_, rfl, by decide⟩, ⟨_, rfl, by decide⟩, _, rfl, by decide⟩

theorem witness_ResetCommandResult : field 0x0A000000#32 31 28 = 0 ∧ 5 ≤ field 0x0A000000#32 27 25 := by decide

theorem witness_FaultedBlockIsStuck : { State.reset with faulted := true }.faulted = true := by decide

theorem witness_StepKeepsInvariant : lastByte.Inv ∧ ∃ t, step (presented lastByte 0x28000000#32 6480 6481) = .next t ∧
    t.dmc.base.lengthCounter = 0 := ⟨lastByte_inv, _, rfl, by decide⟩

theorem witness_WindowSplitting : (0 : Nat) ≤ 606 ∧ 606 ≤ 10000 ∧ player.params.memReaderPresent = true ∧ 1 ≤ player.dmc.period := by
  decide

theorem witness_DeltaConservation : (∃ t, exec (.runSq .sq1 0 20) (square 0x9F#8 0x08#8 0x08#8 0x00#8) = .next t ∧ t.acc.sum = 15) ∧
    (∃ t, exec (.wrDmc1 0x40#8) State.reset = .next t) ∧ State.reset.params.nonlinear = true ∧
    Instr.runSq .sq1 0 20 ≠ resetOf .sq1 := ⟨⟨_, rfl, by decide⟩, ⟨_, rfl⟩, by decide, by decide⟩

theorem witness_EmissionsLieInTheWindow : ∃ t, exec (runOf .tri 0 10) triangle = .next t ∧ t.acc.log.length = 4 := ⟨_, rfl, by decide⟩

theorem witness_UnboundRunAdvancesAsBound : (0 : Nat) < 10 ∧ player.params.memReaderPresent = true := by decide

theorem witness_OtherChannelsUntouched : ∃ t, exec (.runTri 0 10) triangle = .next t ∧ t.tri ≠ triangle.tri := ⟨_, rfl, by decide⟩

/-- Two states that agree on the triangle and differ elsewhere. -/
theorem witness_OwnChannelAloneDecides : ∃ s' : State, s' ≠ triangle ∧ s'.params = triangle.params ∧ s'.mem = triangle.mem ∧
    s'.memReads = triangle.memReads ∧ channelSame .tri triangle s' ∧ ∃ t, exec (.runTri 0 10) triangle = .next t :=
  ⟨{ triangle with noi := noise.noi, acc := ⟨[⟨.noi, 0, 15⟩], 15⟩ }, by decide, rfl, rfl, rfl, rfl, _, rfl⟩

theorem witness_ParametersMemoryAndFaultsKept : { player with cmdFault := true }.cmdFault = true ∧
    ∃ t, exec .dmcStart { player with cmdFault := true } = .next t := ⟨by decide, _, rfl⟩

/-- A register byte changes by WR, by RESET and by the sweep. -/
theorem witness_WhoWritesRegisters :
    (∃ t, exec (.wr .noi .r2 0x83#8) noise = .next t ∧ (t.base .noi).regs.get .r2 ≠ (noise.base .noi).regs.get .r2) ∧
    (∃ t, exec (.reset .noi) noise = .next t ∧ (t.base .noi).regs.get .r0 ≠ (noise.base .noi).regs.get .r0) ∧
    ∃ t, exec (.clkSwp .sq1 0xFF#8) (square 0xBF#8 0x91#8 0x00#8 0x01#8) = .next t ∧
      (t.base .sq1).regs.get .r2 ≠ ((square 0xBF#8 0x91#8 0x00#8 0x01#8).base .sq1).regs.get .r2 :=
  ⟨⟨_, rfl, by decide⟩, ⟨_, rfl, by decide⟩, _, rfl, by decide⟩

/-- Every latch set. -/
def allWritten : State :=
  { State.reset with
    sq1 := { Square.powerOn with base := { Base.powerOn with written := ⟨true, true, true, true⟩ } }
    tri := { Triangle.powerOn with base := { Base.powerOn with written := ⟨true, true, true, true⟩ } }
    noi := { Noise.powerOn with base := { Base.powerOn with written := ⟨true, true, true, true⟩ } } }

/-- A latch is set by WR, and cleared by each of its consumers and by RESET. -/
theorem witness_WhoMovesLatches :
    (∃ t, exec (.wrDmc2 0#8) State.reset = .next t ∧ (t.base .dmc).written.get .r2 = true) ∧
    (∃ t, exec (.reset .sq1) allWritten = .next t ∧ (t.base .sq1).written.get .r0 = false) ∧
    (∃ t, exec (.clkEnvSq .sq1) allWritten = .next t ∧ (t.base .sq1).written.get .r3 = false) ∧
    (∃ t, exec .clkEnvNoi allWritten = .next t ∧ (t.base .noi).written.get .r3 = false) ∧
    (∃ t, exec .clkLin allWritten = .next t ∧ (t.base .tri).written.get .r3 = false) ∧
    ∃ t, exec (.clkSwp .sq1 0x00#8) allWritten = .next t ∧ (t.base .sq1).written.get .r1 = false :=
  ⟨⟨_, rfl, by decide⟩, ⟨_, rfl, by decide⟩, ⟨_, rfl, by decide⟩, ⟨_, rfl, by decide⟩, ⟨_, rfl, by decide⟩, _, rfl, by decide⟩

theorem witness_OnlySetOutChangesBinding : ∃ t, exec (.setOutDmc false) player = .next t ∧ (t.base .dmc).outEn ≠ (player.base .dmc).outEn :=
  ⟨_, rfl, by decide⟩

theorem witness_RebindRestoresDmcLevel : player.dmc.base.outEn = true ∧
    ∃ u, execAll (.setOutDmc false :: [(0, 10)].map (fun w => .runDmc w.1 w.2) ++ [.setOutDmc true]) player = .next u :=
  ⟨by decide, _, rfl⟩

/-- A log of two entries, read at the time of its last. -/
theorem witness_LevelIsRunningSum : Accum.balanced ⟨[⟨.sq1, 0, 15⟩, ⟨.noi, 9, -3⟩], 12⟩ ∧
    ∀ e ∈ [(⟨.sq1, 0, 15⟩ : Emission), ⟨.noi, 9, -3⟩], e.time ≤ 9 := by decide

theorem witness_PlacedBytesReadBack : Memory.wf sample = true ∧ (0xFFFF : Nat) < 0x10000 := by decide

end Sys2Proof.Tests
end

section
/-! SUPPORT. What a command can do to the registers, the write latches and the binding of a channel (R22, R24, R28), said once,
and the frame of a command as the statements need it. -/

namespace Sys2Proof.Machine

open Sys2Proof.Claims

/-! ### The frame of a command -/

/-- The frame of any channel holds the parameters, the external memory, `faulted` and the command port (R7, R44, R76). -/
theorem frameOf_keeps {ch : Channel} {s t : State} (h : frameOf ch s t) :
    t.params = s.params ∧ t.mem = s.mem ∧ t.faulted = s.faulted ∧ t.pending = s.pending := by
  cases ch <;> (unfold frameOf at h; rw [h]; exact ⟨rfl, rfl, rfl, rfl⟩)

theorem frameOf_othersSame {ch : Channel} {s t : State} (h : frameOf ch s t) : othersSame ch s t := by
  cases ch <;> (unfold frameOf at h; rw [h]; simp [othersSame])

/-! ### The control state of a channel: registers, latches, binding -/

/-- The registers, the write latches and the binding of a channel have these values. -/
structure Base.Controls (b : Base) (regs : Regs) (written : Latches) (outEn : Bool) : Prop where
  regs : b.regs = regs
  written : b.written = written
  outEn : b.outEn = outEn

/-- The command consumes the restart latch of the channel's envelope (R171). -/
def clocksEnvelope (i : Instr) (ch : Channel) : Prop :=
  (∃ c : SqChannel, i = .clkEnvSq c ∧ c.toChannel = ch) ∨ (ch = .noi ∧ i = .clkEnvNoi)

/-- Everything a command can do to the control state of a channel, from base state `b` to `b'` (R22, R24, R28). -/
inductive ControlStep (i : Instr) (ch : Channel) (b b' : Base) : Prop
  | keep (after : b'.Controls b.regs b.written b.outEn)
  | write (a : RegNo) (data : Byte) (cmd : i = wrOf ch a data)
      (after : b'.Controls (b.regs.set a data) (b.written.set a true) b.outEn)
  | reset (cmd : i = resetOf ch) (after : b'.Controls Base.powerOn.regs Base.powerOn.written b.outEn)
  | envelope (cmd : clocksEnvelope i ch) (after : b'.Controls b.regs (b.written.set .r3 false) b.outEn)
  | linear (cmd : i = .clkLin) (own : ch = .tri) (unheld : b.regs.controlHalt = false)
      (after : b'.Controls b.regs (b.written.set .r3 false) b.outEn)
  | sweep (c : SqChannel) (m8 : Byte) (cmd : i = .clkSwp c m8) (own : c.toChannel = ch) (low high : Byte)
      (after : b'.Controls { b.regs with r2 := low, r3 := high } (b.written.set .r1 false) b.outEn)
  | bind (en : Bool) (cmd : i = setOutOf ch en) (after : b'.Controls b.regs b.written en)

/-- The sweep commit writes registers 2 and 3 at most (R181). -/
theorem Regs.sweepCommit_eq (r : Regs) (n : Int) : ∃ low high, r.sweepCommit n = { r with r2 := low, r3 := high } := by
  unfold Regs.sweepCommit
  split
  · exact ⟨_, _, rfl⟩
  · exact ⟨r.r2, r.r3, rfl⟩

/-- A CLKSWP tick keeps the base state, or writes registers 2 and 3 at most and consumes the latch of register 1 (R181). -/
theorem Square.clockSweep_base (c : Square) (n : Int) : (c.clockSweep n).base = c.base ∨
    ∃ low high, (c.clockSweep n).base =
      { c.base with regs := { c.base.regs with r2 := low, r3 := high }, written := c.base.written.set .r1 false } := by
  by_cases hu : c.sweepDelay = 0#3
  · obtain ⟨low, high, hr⟩ := c.base.regs.sweepCommit_eq n
    exact .inr ⟨low, high, by simp [Square.clockSweep, hu, hr]⟩
  · cases hw : c.base.written.get .r1
    · exact .inl (by simp [Square.clockSweep, hu, hw])
    · exact .inr ⟨c.base.regs.r2, c.base.regs.r3, by simp [Square.clockSweep, hu, hw]⟩

theorem Dmc.setOut_base (c : Dmc) (en : Bool) : (c.setOut en).base = { c.base with outEn := en } := by
  unfold Dmc.setOut; split <;> rfl

/-- `DmcWrite1`, whole: the level, and in the linear mode `last_amp` (R217). -/
theorem dmcWrite1_eq (data : Byte) (s : State) : dmcWrite1 data s = s.setDmc { s.dmc with
    dac := dmcDacLoad data
    base := { s.dmc.base with lastAmp :=
      if s.params.nonlinear then s.dmc.base.lastAmp else Config.dacComp s.dmc.dac.toNat (dmcDacLoad data).toNat } } := by
  cases hn : s.params.nonlinear <;> simp [dmcWrite1, hn]

/-- RECALC_IRQ leaves the base state (R222). -/
theorem recalcIrq_base (s : State) : (recalcIrq s).dmc.base = s.dmc.base := by rw [recalcIrq_eq]

/-- DMCSTART writes the byte count and no other field of the base state (R224). -/
theorem execDmcStart_base {s t : State} (h : execDmcStart s = .next t) :
    t.dmc.base = { s.dmc.base with lengthCounter := t.dmc.base.lengthCounter } := by
  rw [(execDmcStart_next h).2, recalcIrq_base, fillBuffer_keeps]
  rfl

/-- What a command does to the control state of its own channel. -/
theorem exec_controlStep_own {i : Instr} {s t : State} (h : exec i s = .next t) :
    ControlStep i i.channel (s.base i.channel) (t.base i.channel) := by
  rcases runOf_cases i with ⟨ch, time, endTime, rfl⟩ | hrun
  · obtain ⟨hregs, hwritten, hout⟩ := run_base h ((runOf ch time endTime).channel)
    exact .keep ⟨hregs, hwritten, hout⟩
  cases i with
  | runSq ch time endTime => exact absurd (by cases ch <;> rfl) (hrun ch.toChannel time endTime)
  | runTri time endTime => exact absurd rfl (hrun .tri time endTime)
  | runNoi time endTime => exact absurd rfl (hrun .noi time endTime)
  | runDmc time endTime => exact absurd rfl (hrun .dmc time endTime)
  | reset ch => cases h; cases ch <;> exact .reset rfl ⟨rfl, rfl, rfl⟩
  | resetDmc => cases h; exact .reset rfl ⟨rfl, rfl, rfl⟩
  | wr ch a data => cases h; cases ch <;> exact .write a data rfl ⟨rfl, rfl, rfl⟩
  | wrDmc0 data =>
    cases h
    refine .write .r0 data rfl ?_
    show ((dmcWrite0 data (dmcWriteReg .r0 data s)).dmc.base).Controls _ _ _
    rw [dmcWrite0, recalcIrq_base]
    exact ⟨rfl, rfl, rfl⟩
  | wrDmc1 data =>
    cases h
    refine .write .r1 data rfl ?_
    rw [dmcWrite1_eq]
    exact ⟨rfl, rfl, rfl⟩
  | wrDmc2 data => cases h; exact .write .r2 data rfl ⟨rfl, rfl, rfl⟩
  | wrDmc3 data => cases h; exact .write .r3 data rfl ⟨rfl, rfl, rfl⟩
  | clkLen ch m =>
    cases h
    obtain ⟨hregs, hwritten, hout⟩ := clockLength_keeps (s.base ch.toChannel) m
    simp only [Instr.channel, State.base_setBase]
    exact .keep ⟨hregs, hwritten, hout⟩
  | clkEnvSq ch => cases h; cases ch <;> exact .envelope (.inl ⟨_, rfl, rfl⟩) ⟨rfl, rfl, rfl⟩
  | clkEnvNoi => cases h; exact .envelope (.inr ⟨rfl, rfl⟩) ⟨rfl, rfl, rfl⟩
  | clkSwp ch m8 =>
    simp only [exec, execClkSwp] at h
    split at h
    · cases h
      simp only [Instr.channel, State.base_toChannel_sq, State.square_setSquare]
      rcases (s.square ch).clockSweep_base (negativeAdjust m8) with hb | ⟨low, high, hb⟩
      · rw [hb]; exact .keep ⟨rfl, rfl, rfl⟩
      · rw [hb]; exact .sweep ch m8 rfl rfl low high ⟨rfl, rfl, rfl⟩
    · cases h; cases ch <;> exact .keep ⟨rfl, rfl, rfl⟩
  | clkLin =>
    cases h
    cases hh : s.tri.base.regs.controlHalt
    · exact .linear rfl rfl hh ⟨rfl, by simp [Instr.channel, Triangle.clockLinear, hh], rfl⟩
    · exact .keep ⟨rfl, by simp [Instr.channel, Triangle.clockLinear, hh], rfl⟩
  | setOut ch en => cases h; cases ch <;> exact .bind en rfl ⟨rfl, rfl, rfl⟩
  | setOutDmc en =>
    cases h
    refine .bind en rfl ?_
    show ((s.dmc.setOut en).base).Controls _ _ _
    rw [Dmc.setOut_base]
    exact ⟨rfl, rfl, rfl⟩
  | setLen ch n => cases h; cases ch <;> exact .keep ⟨rfl, rfl, rfl⟩
  | dmcStart =>
    refine .keep ?_
    show t.dmc.base.Controls _ _ _
    rw [execDmcStart_base h]
    exact ⟨rfl, rfl, rfl⟩
  | dmcStop =>
    cases h
    refine .keep ?_
    show ((recalcIrq _).dmc.base).Controls _ _ _
    rw [recalcIrq_base]
    exact ⟨rfl, rfl, rfl⟩
  | irqAck => cases h; exact .keep ⟨rfl, rfl, rfl⟩
  | cntRd t => cases h; exact .keep ⟨rfl, rfl, rfl⟩

/-- What a command does to the control state of any channel. -/
theorem exec_controlStep {i : Instr} {s t : State} (h : exec i s = .next t) (ch : Channel) :
    ControlStep i ch (s.base ch) (t.base ch) := by
  by_cases hch : i.channel = ch
  · subst hch; exact exec_controlStep_own h
  · rw [base_other h hch]; exact .keep ⟨rfl, rfl, rfl⟩

/-! ### The latches -/

/-- An assignment to latch `a'` that moves latch `a` to `v` assigns `v` to that very latch. -/
theorem Latches.eq_of_moved {w : Latches} {a a' : RegNo} {v v' : Bool} (before : w.get a ≠ v) (after : (w.set a' v').get a = v) :
    a = a' ∧ v' = v := by
  rw [Latches.get_set] at after
  split at after
  · exact ⟨‹a = a'›, after⟩
  · exact absurd after before

/-- Only WR to a register sets its latch (R24). -/
theorem exec_sets_latch {i : Instr} {s t : State} {ch : Channel} {a : RegNo} (h : exec i s = .next t)
    (before : (s.base ch).written.get a ≠ true) (after : (t.base ch).written.get a = true) : ∃ data, i = wrOf ch a data := by
  cases exec_controlStep h ch with
  | keep hc => rw [hc.written] at after; exact absurd after before
  | write a' data cmd hc =>
    rw [hc.written] at after
    obtain ⟨rfl, -⟩ := Latches.eq_of_moved before after
    exact ⟨data, cmd⟩
  | reset _ hc => rw [hc.written] at after; cases a <;> cases after
  | envelope _ hc => rw [hc.written] at after; cases (Latches.eq_of_moved before after).2
  | linear _ _ _ hc => rw [hc.written] at after; cases (Latches.eq_of_moved before after).2
  | sweep _ _ _ _ _ _ hc => rw [hc.written] at after; cases (Latches.eq_of_moved before after).2
  | bind _ _ hc => rw [hc.written] at after; exact absurd after before

/-- The commands that clear a latch: its consumer, and RESET (R24). -/
theorem exec_clears_latch {i : Instr} {s t : State} {ch : Channel} {a : RegNo} (h : exec i s = .next t)
    (before : (s.base ch).written.get a ≠ false) (after : (t.base ch).written.get a = false) :
    i = resetOf ch ∨ (a = .r3 ∧ clocksEnvelope i ch) ∨
      (a = .r3 ∧ i = .clkLin ∧ ch = .tri ∧ (s.base ch).regs.controlHalt = false) ∨
      (a = .r1 ∧ ∃ (c : SqChannel) (m8 : Byte), i = .clkSwp c m8 ∧ c.toChannel = ch) := by
  cases exec_controlStep h ch with
  | keep hc => rw [hc.written] at after; exact absurd after before
  | write _ _ _ hc => rw [hc.written] at after; cases (Latches.eq_of_moved before after).2
  | reset cmd _ => exact .inl cmd
  | envelope cmd hc =>
    rw [hc.written] at after
    exact .inr (.inl ⟨(Latches.eq_of_moved before after).1, cmd⟩)
  | linear cmd own unheld hc =>
    rw [hc.written] at after
    exact .inr (.inr (.inl ⟨(Latches.eq_of_moved before after).1, cmd, own, unheld⟩))
  | sweep c m8 cmd own _ _ hc =>
    rw [hc.written] at after
    exact .inr (.inr (.inr ⟨(Latches.eq_of_moved before after).1, c, m8, cmd, own⟩))
  | bind _ _ hc => rw [hc.written] at after; exact absurd after before

/-- `control_halt` is bit 7 of register 0 (R105). -/
theorem Regs.controlHalt_eq_false_iff (r : Regs) : r.controlHalt = false ↔ bit r.r0 7 = 0 := by
  simp [Regs.controlHalt, bit_eq]

end Sys2Proof.Machine
end

section
/-! SUPPORT. Every command keeps the invariant of R49: channel by channel, then the step. -/

namespace Sys2Proof.Machine

open Sys2Proof.Claims

theorem inv_channelOk {s : State} (hs : s.Inv) : ∀ ch, channelOk ch s := by
  obtain ⟨-, -, hch⟩ := (inv_iff_channels s).mp hs
  exact hch

/-- A command fault moves no channel (R282). -/
theorem inv_cmdFault {s : State} (hs : s.Inv) : { s with cmdFault := true }.Inv := inv_of_pending hs s.pending true

/-! ### The sample player -/

/-- RECALC_IRQ repairs the schedule, so that the rest of the DMC's invariant before it is enough (R222, R288). -/
theorem recalcIrq_channelOk {s : State} (hbase : s.dmc.base.inRange 4081) (hdmc : s.dmc.inRange)
    (hready : s.dmc.base.lengthCounter > 0 → s.dmc.bufFull = true)
    (hlevel : s.params.nonlinear = true → levelWithin s.dmc.base.lastAmp 127) : channelOk .dmc (recalcIrq s) := by
  have hsched := recalcIrq_scheduleOk s
  rw [recalcIrq_eq] at hsched ⊢
  exact ⟨hbase, hdmc, ⟨hready, hsched⟩, hlevel⟩

/-- A `DMC_PERIOD` entry is in its row (R218). -/
theorem dmcPeriod_mem (pal : Bool) (data : Byte) : dmcPeriod pal (dmcRateIndex data) ∈ dmcPeriodRow pal :=
  List.mem_of_getElem? (dmcPeriodRow_rate pal data)

/-- `WR DMC, 0` keeps the DMC's invariant (R216): the flag survives only while enabled. -/
theorem wrDmc0_channelOk {s : State} (hs : s.Inv) (data : Byte) :
    channelOk .dmc (dmcWrite0 data (dmcWriteReg .r0 data s)) := by
  obtain ⟨hbase, ⟨hbits, -⟩, ⟨hready, -⟩, hlevel⟩ := inv_channelOk hs .dmc
  refine recalcIrq_channelOk hbase ⟨hbits, ?_, rfl, ?_⟩ hready hlevel
  · show dmcPeriod s.params.palDmc (dmcRateIndex data) ∈ _ ∨ dmcPeriod s.params.palDmc (dmcRateIndex data) ∈ _ ∨ _
    cases s.params.palDmc
    · exact .inl (dmcPeriod_mem false data)
    · exact .inr (.inl (dmcPeriod_mem true data))
  · show (s.dmc.irqFlag && dmcIrqEnable data) = true → dmcIrqEnable data = true
    simp

/-- `WR DMC, 1` keeps the DMC's invariant (R217): in the linear mode the level has no range (R27). -/
theorem wrDmc1_channelOk {s : State} (hs : s.Inv) (data : Byte) :
    channelOk .dmc (dmcWrite1 data (dmcWriteReg .r1 data s)) := by
  obtain ⟨hbase, hdmc, hreader, hlevel⟩ := inv_channelOk hs .dmc
  rw [dmcWrite1_eq]
  refine ⟨hbase, hdmc, hreader, fun (n : s.params.nonlinear = true) => ?_⟩
  show levelWithin (if s.params.nonlinear then s.dmc.base.lastAmp else _) 127
  rw [if_pos n]
  exact hlevel n

/-- SETOUT keeps the DMC's invariant: the exchanged levels have none (R231). -/
theorem setOutDmc_channelOk {s : State} (hs : s.Inv) (en : Bool) : channelOk .dmc (s.setDmc (s.dmc.setOut en)) := by
  unfold Dmc.setOut
  split <;> exact inv_channelOk hs .dmc

/-- DMCSTART keeps the DMC's invariant (R224): FILL_BUFFER makes the reader ready, RECALC_IRQ the schedule. -/
theorem execDmcStart_channelOk {s t : State} (hs : s.Inv) (h : execDmcStart s = .next t) : channelOk .dmc t := by
  obtain ⟨⟨-, hdelay⟩, ⟨hbits, hperiod, henable, hflag⟩, -, hlevel⟩ := inv_channelOk hs .dmc
  obtain ⟨hfill, rfl⟩ := execDmcStart_next h
  obtain ⟨⟨hlen', hflag'⟩, hready', -, hbits'⟩ :=
    fillBuffer_keepsOk (s := reloadSample s) ⟨Regs.sampleLength_le _, hflag⟩ hfill
  have hkeep := fillBuffer_keeps (reloadSample s)
  generalize (fillBuffer (reloadSample s)).state = m at *
  refine recalcIrq_channelOk ⟨hlen', ?_⟩ ⟨hbits' ▸ hbits, ?_, ?_, hflag'⟩ hready' ?_
  · rw [hkeep]; exact hdelay
  · rw [hkeep]; exact hperiod
  · rw [hkeep]; exact henable
  · rw [hkeep]; exact hlevel

/-- DMCSTOP keeps the DMC's invariant (R225): with no byte left nothing is due. -/
theorem dmcStop_channelOk {s : State} (hs : s.Inv) :
    channelOk .dmc (recalcIrq (s.setDmc { s.dmc with base := { s.dmc.base with lengthCounter := 0 } })) := by
  obtain ⟨⟨-, hdelay⟩, hdmc, -, hlevel⟩ := inv_channelOk hs .dmc
  exact recalcIrq_channelOk ⟨Nat.zero_le _, hdelay⟩ hdmc (fun hl => absurd hl (Nat.lt_irrefl 0)) hlevel

/-- IRQACK keeps the DMC's invariant (R226). -/
theorem irqAck_channelOk {s : State} (hs : s.Inv) : channelOk .dmc (s.setDmc { s.dmc with irqFlag := false }) := by
  obtain ⟨hbase, ⟨hbits, hperiod, henable, -⟩, hreader, hlevel⟩ := inv_channelOk hs .dmc
  exact ⟨hbase, ⟨hbits, hperiod, henable, fun hf => absurd hf Bool.false_ne_true⟩, hreader, hlevel⟩

/-! ### RUN, RESET and the units -/

/-- RUN keeps the invariant of its channel over every window: a reversed one changes no channel, an empty one nothing. -/
theorem runOf_channelOk {ch : Channel} {a b : Nat} {s t : State} (hs : s.Inv) (h : exec (runOf ch a b) s = .next t) :
    channelOk ch t := by
  rcases window_cases a b with hw | rfl | hw
  · rw [exec_runOf_reversed hw] at h; cases h
    exact inv_channelOk (inv_cmdFault hs) ch
  · rw [exec_runOf_empty] at h; cases h
    exact inv_channelOk hs ch
  · exact run_channelOk hs hw h

/-- The power-on state satisfies the invariant (R51). -/
theorem reset_inv : State.reset.Inv where
  memory := rfl
  sq1 := by decide
  sq2 := by decide
  tri := by decide
  noi := by decide
  dmcBase := by decide
  phase := by decide
  noise := by decide
  dmc := by decide
  reader := by decide
  acc := by decide
  levels := fun _ => by decide

/-- RESET leaves in its channel the power-on values, which satisfy the invariant (R51, R311). -/
theorem execReset_channelOk {ch : PlainChannel} {s t : State} (h : execReset ch s = .next t) : channelOk ch.toChannel t := by
  cases h
  cases ch
  · obtain ⟨hbase, hlevel⟩ := inv_channelOk reset_inv .sq1
    exact ⟨hbase, fun _ => hlevel rfl⟩
  · obtain ⟨hbase, hlevel⟩ := inv_channelOk reset_inv .sq2
    exact ⟨hbase, fun _ => hlevel rfl⟩
  · obtain ⟨hbase, hphase, hlevel⟩ := inv_channelOk reset_inv .tri
    exact ⟨hbase, hphase, fun _ => hlevel rfl⟩
  · obtain ⟨hbase, hnoise, hlevel⟩ := inv_channelOk reset_inv .noi
    exact ⟨hbase, hnoise, fun _ => hlevel rfl⟩

theorem execResetDmc_channelOk {s t : State} (h : execResetDmc s = .next t) : channelOk .dmc t := by
  obtain ⟨hbase, hdmc, hreader, hlevel⟩ := inv_channelOk reset_inv .dmc
  cases h
  exact ⟨hbase, hdmc, hreader, fun _ => hlevel rfl⟩

/-- CLKLEN never raises a length counter, and keeps `delay` and `last_amp` (R145). -/
theorem clockLength_counters (b : Base) (m : Byte) : (b.clockLength m).lengthCounter ≤ b.lengthCounter ∧
    (b.clockLength m).delay = b.delay ∧ (b.clockLength m).lastAmp = b.lastAmp := by
  unfold Base.clockLength
  split
  · exact ⟨Nat.sub_le _ _, rfl, rfl⟩
  · exact ⟨le_rfl, rfl, rfl⟩

/-- CLKSWP keeps the counters and the level (R181). -/
theorem clockSweep_counters (c : Square) (n : Int) : (c.clockSweep n).base.lengthCounter = c.base.lengthCounter ∧
    (c.clockSweep n).base.delay = c.base.delay ∧ (c.clockSweep n).base.lastAmp = c.base.lastAmp := by
  rcases c.clockSweep_base n with hb | ⟨low, high, hb⟩ <;> rw [hb] <;> exact ⟨rfl, rfl, rfl⟩

theorem execClkSwp_channelOk {ch : SqChannel} {m8 : Byte} {s t : State} (hs : s.Inv) (h : execClkSwp ch m8 s = .next t) :
    channelOk ch.toChannel t := by
  unfold execClkSwp at h
  split at h
  · cases h
    obtain ⟨hlen, hdelay, hamp⟩ := clockSweep_counters (s.square ch) (negativeAdjust m8)
    exact setSquare_channelOk hs hlen hdelay hamp
  · cases h
    exact inv_channelOk (inv_cmdFault hs) _

/-! ### Every command, and the step -/

/-- Every command keeps the invariant of its own channel. -/
theorem exec_channelOk_own {i : Instr} {s t : State} (hs : s.Inv) (h : exec i s = .next t) : channelOk i.channel t := by
  rcases runOf_cases i with ⟨ch, time, endTime, rfl⟩ | hrun
  · rw [runOf_channel]; exact runOf_channelOk hs h
  cases i with
  | runSq ch time endTime => exact absurd (by cases ch <;> rfl) (hrun ch.toChannel time endTime)
  | runTri time endTime => exact absurd rfl (hrun .tri time endTime)
  | runNoi time endTime => exact absurd rfl (hrun .noi time endTime)
  | runDmc time endTime => exact absurd rfl (hrun .dmc time endTime)
  | reset ch => exact execReset_channelOk h
  | resetDmc => exact execResetDmc_channelOk h
  | wr ch a data => cases h; exact setBase_channelOk hs (plain_lengthCounter_le hs ch) rfl rfl
  | wrDmc0 data => cases h; exact wrDmc0_channelOk hs data
  | wrDmc1 data => cases h; exact wrDmc1_channelOk hs data
  | wrDmc2 data => cases h; exact inv_channelOk hs .dmc
  | wrDmc3 data => cases h; exact inv_channelOk hs .dmc
  | clkLen ch m =>
    cases h
    obtain ⟨hlen, hdelay, hamp⟩ := clockLength_counters (s.base ch.toChannel) m
    exact setBase_channelOk hs (hlen.trans (plain_lengthCounter_le hs ch)) hdelay hamp
  | clkEnvSq ch => cases h; exact setSquare_channelOk hs rfl rfl rfl
  | clkEnvNoi => cases h; exact inv_channelOk hs .noi
  | clkSwp ch m8 => exact execClkSwp_channelOk hs h
  | clkLin => cases h; exact inv_channelOk hs .tri
  | setOut ch en => cases h; exact setBase_channelOk hs (plain_lengthCounter_le hs ch) rfl rfl
  | setOutDmc en => cases h; exact setOutDmc_channelOk hs en
  | setLen ch n => cases h; exact setBase_channelOk hs (Nat.le_of_lt_succ n.isLt) rfl rfl
  | dmcStart => exact execDmcStart_channelOk hs h
  | dmcStop => cases h; exact dmcStop_channelOk hs
  | irqAck => cases h; exact irqAck_channelOk hs
  | cntRd n => cases h; exact inv_channelOk hs .dmc

/-- Every command that completes keeps the invariant: its own channel by its rule, the rest by its frame. -/
theorem exec_inv {i : Instr} {s t : State} (hs : s.Inv) (h : exec i s = .next t) : t.Inv := by
  obtain ⟨hframe, -⟩ := exec_frame h
  obtain ⟨hparams, hmem, -, -⟩ := frameOf_keeps hframe
  refine (inv_iff_channels t).mpr ⟨by rw [hmem]; exact hs.memory, exec_balanced hs.acc h, fun ch => ?_⟩
  by_cases hch : i.channel = ch
  · subst hch; exact exec_channelOk_own hs h
  · exact channelOk_congr (frameOf_othersSame hframe) hparams hch (inv_channelOk hs ch)

/-- Every step keeps the invariant: an idle step, an ignored command and an illegal word move no channel (R283). -/
theorem step_inv {s t : State} (hs : s.Inv) (h : step s = .next t) : t.Inv := by
  unfold step at h
  split at h
  · cases h; exact hs
  · rename_i c rest _
    split at h
    · cases h; exact inv_of_pending hs rest s.cmdFault
    · cases h; exact inv_of_pending hs rest true
    · exact exec_inv (inv_of_pending hs rest s.cmdFault) h

end Sys2Proof.Machine
end

section
/-! PROOF. The statements about the state of the block, settled from the two layers above. -/

namespace Sys2Proof.Machine

open Sys2Proof.Claims

/-- Settles O45, from the invariant kept channel by channel. -/
theorem stepKeepsInvariant : Obligations.StepKeepsInvariant := fun _ _ hs h => step_inv hs h

/-- Settles O44, field by field. -/
theorem invariantAtReset : Obligations.InvariantAtReset := reset_inv

/-- Settles O52, from the frame of every command. -/
theorem parametersMemoryAndFaultsKept : Obligations.ParametersMemoryAndFaultsKept := by
  intro i s t h
  obtain ⟨hframe, hfault⟩ := exec_frame h
  obtain ⟨hparams, hmem, hfaulted, hpending⟩ := frameOf_keeps hframe
  exact ⟨hparams, hmem, hfaulted, hpending, hfault⟩

/-- Settles O53: of the ways a command moves the control state, only three write a register. -/
theorem whoWritesRegisters : Obligations.WhoWritesRegisters := by
  intro i s t ch a h hne
  cases exec_controlStep h ch with
  | keep after => exact absurd (congrArg (·.get a) after.regs) hne
  | write a' data cmd after =>
    by_cases ha : a = a'
    · exact .inl ⟨data, ha ▸ cmd⟩
    · rw [after.regs, Regs.get_set_ne _ _ _ _ ha] at hne; exact absurd rfl hne
  | reset cmd _ => exact .inr (.inl cmd)
  | envelope _ after => exact absurd (congrArg (·.get a) after.regs) hne
  | linear _ _ _ after => exact absurd (congrArg (·.get a) after.regs) hne
  | sweep c m8 cmd own low high after =>
    rw [after.regs] at hne
    refine .inr (.inr ⟨c, m8, cmd, own, ?_⟩)
    cases a with
    | r0 => exact absurd rfl hne
    | r1 => exact absurd rfl hne
    | r2 => exact .inl rfl
    | r3 => exact .inr rfl
  | bind _ _ after => exact absurd (congrArg (·.get a) after.regs) hne

/-- Settles O54: of the ways a command moves the control state, WR alone sets a latch, and its consumers and RESET clear it. -/
theorem whoMovesLatches : Obligations.WhoMovesLatches := by
  intro i s t ch a h
  refine ⟨fun before after => exec_sets_latch h (by simp [before]) after, fun before after => ?_⟩
  rcases exec_clears_latch h (by simp [before]) after with hreset | ⟨ha, henv | ⟨hch, hnoi⟩⟩ | ⟨ha, hlin, rfl, hheld⟩ | ⟨ha, hswp⟩
  · exact .inl hreset
  · exact .inr (.inl ⟨ha, henv⟩)
  · exact .inr (.inr (.inl ⟨ha, hch, hnoi⟩))
  · exact .inr (.inr (.inr (.inl ⟨ha, rfl, hlin, (Regs.controlHalt_eq_false_iff _).mp hheld⟩)))
  · exact .inr (.inr (.inr (.inr ⟨ha, hswp⟩)))

/-- Settles O55: of the ways a command moves the control state, only SETOUT changes the binding. -/
theorem onlySetOutChangesBinding : Obligations.OnlySetOutChangesBinding := by
  intro i s t ch h hne
  cases exec_controlStep h ch with
  | bind en cmd after => rw [cmd, after.outEn]
  | keep after => exact absurd after.outEn hne
  | write _ _ _ after => exact absurd after.outEn hne
  | reset _ after => exact absurd after.outEn hne
  | envelope _ after => exact absurd after.outEn hne
  | linear _ _ _ after => exact absurd after.outEn hne
  | sweep _ _ _ _ _ _ after => exact absurd after.outEn hne

end Sys2Proof.Machine
end

section
/-! SUPPORT. The decoder reads every well-formed command back (R101 to R103, R109). -/

namespace Sys2Proof

@[simp] theorem PlainChannel.plain?_toChannel (ch : PlainChannel) : ch.toChannel.plain? = some ch := by cases ch <;> rfl

@[simp] theorem Channel.plain?_dmc : Channel.dmc.plain? = none := rfl

@[simp] theorem SqChannel.square?_toChannel (ch : SqChannel) : ch.toChannel.square? = some ch := by cases ch <;> rfl

/-- Encoding without time operands, then decoding, is what the decoder builds of the parts. -/
theorem decode_encodeWord (op : Op) (ch : Channel) (imm : BitVec 16) (spare : imm &&& op.spareImm = 0#16) :
    decode (encodeWord op ch imm) = buildInstr op ch imm 0 0 := decode_packWord op ch imm 0 0 spare

/-- Decoding an encoded well-formed command gives it back; the immediate decides which read-back law of R103 says so. -/
theorem decode_encode {i : Instr} (h : WellFormed i) : decode (encode i) = .ok i := by
  cases i with
  | wr ch addr data =>
    rw [encode, decode_encodeWord _ _ _ (spare_immW addr data)]
    simp [buildInstr, immAddr_immW, immByte_immW]
  | wrDmc0 data | wrDmc1 data | wrDmc2 data | wrDmc3 data =>
    rw [encode, decode_encodeWord _ _ _ (spare_immW _ data)]
    simp [buildInstr, immAddr_immW, immByte_immW]
  | clkLen ch haltMask =>
    rw [encode, decode_encodeWord _ _ _ (spare_immM haltMask)]
    simp [buildInstr, immByte_immM]
  | clkSwp ch m8 =>
    have hm8 : m8 = 0xFF#8 ∨ m8 = 0x00#8 := by simpa [WellFormed, Instr.wellFormed] using h
    rw [encode, decode_encodeWord _ _ _ (spare_immM m8)]
    simp [buildInstr, immByte_immM, hm8]
  | setOut ch en | setOutDmc en =>
    rw [encode, decode_encodeWord _ _ _ (spare_immE en)]
    simp [buildInstr, immEn_immE]
  | setLen ch n =>
    rw [encode, decode_encodeWord _ _ _ (by simp [Op.spareImm])]
    simp [buildInstr]
  | runSq ch time endTime =>
    rw [encode, decode_packWord _ _ _ _ _ BitVec.zero_and]
    cases ch <;> rfl
  | clkEnvSq ch =>
    rw [encode, decode_encodeWord _ _ _ BitVec.zero_and]
    cases ch <;> rfl
  | reset ch =>
    rw [encode, decode_encodeWord _ _ _ BitVec.zero_and]
    simp [buildInstr]
  | runTri | runNoi | runDmc | cntRd => exact decode_packWord _ _ _ _ _ BitVec.zero_and
  | resetDmc | clkEnvNoi | clkLin | dmcStart | dmcStop | irqAck => exact decode_encodeWord _ _ _ BitVec.zero_and

end Sys2Proof
end

section
/-! SUPPORT. What the reader answers, as the memory's promise at that address (R75). -/

namespace Sys2Proof.Machine

/-- A promised byte is the reader's answer. -/
theorem State.readerAnswer_of_lookup {s : State} {a : Addr} {v : Byte} (h : Memory.lookup a.toNat s.mem = some v) :
    s.readerAnswer a = v := by
  simp [State.readerAnswer, h]

/-- The memory enters the reader's answer at `a` only by what is promised at `a`. -/
theorem State.readerAnswer_mem_congr {s : State} {m m' : Memory} {a : Addr}
    (h : Memory.lookup a.toNat m' = Memory.lookup a.toNat m) :
    State.readerAnswer { s with mem := m' } a = State.readerAnswer { s with mem := m } a := by
  simp only [State.readerAnswer, h]

end Sys2Proof.Machine
end

section
/-! PROOF. The statements about the external memory and the command port (R20, R75, R78). -/

namespace Sys2Proof.Machine

open Sys2Proof.Claims

/-- Settles O58, from the laws of look-up after placing: the reader's answer follows the promise at its address. -/
theorem placedBytesReadBack : Obligations.PlacedBytesReadBack := by
  intro m a v hm ha
  have hsame : Memory.lookup a (Memory.place a v m) = some v := Memory.lookup_place_same m a v
  refine ⟨hsame, fun b hb => Memory.lookup_place_other m v hb, Memory.wf_place v hm ha, fun s => ⟨?_, fun b hb => ?_⟩⟩
  · have haddr : (BitVec.ofNat 16 a).toNat = a := Nat.mod_eq_of_lt ha
    exact State.readerAnswer_of_lookup (by rw [haddr]; exact hsame)
  · exact State.readerAnswer_mem_congr (Memory.lookup_place_other m v hb)

/-- Settles O5: the presented command decodes to what was encoded, and an accepted command runs. -/
theorem stepRunsDecodedCommand : Obligations.StepRunsDecodedCommand := by
  refine ⟨fun s i rest hwf hf hp => step_of_decode_ok hf hp (decode_encode hwf), fun s hp => ?_⟩
  simp only [step, hp]

end Sys2Proof.Machine
end

section
/-! SUPPORT. The legal words of R111 are the accepted ones. -/

namespace Sys2Proof.Machine

open Sys2Proof.Claims

/-- A word R111 does not list is accepted. -/
theorem decode_ok_of_not_illegalWord {c : Command} (h : ¬illegalWord c.word) : ∃ i, decode c = .ok i := by
  cases hd : decode c with
  | ok i => exact ⟨i, rfl⟩
  | error e => exact absurd ((illegalWord_iff c).mpr ⟨e, hd⟩) h

end Sys2Proof.Machine
end

section
/-! PROOF. The statements about the command word: the two round trips, the illegal words of R111, and words written out from the
tables (R101 to R103, R109, R111, R115). -/

namespace Sys2Proof.Machine

open Sys2Proof.Claims

/-- Settles O1, from the read-back of every command. -/
theorem decodeEncodeRoundTrip : Obligations.DecodeEncodeRoundTrip := fun _ => decode_encode

/-- Settles O2: an accepted word is a packing of its parts, and what is built of the parts packs back into them. -/
theorem encodeDecodeRoundTrip : Obligations.EncodeDecodeRoundTrip := by
  intro c i h
  obtain ⟨op, ch, hpacked, hspare, hbuilt⟩ := decode_ok h
  obtain ⟨hwf, hencoded, -⟩ := buildInstr_ok hspare hbuilt
  have hword : (encode i).word = c.word := hencoded.trans hpacked.symm
  exact ⟨hwf, hword, by rw [hword]; exact h⟩

/-- Settles O3: R111's list is what the decoder rejects, an accepted command runs, and operation 2 is a RUN with the presented
times, whose reversed window raises the command fault. -/
theorem illegalWordSetsCmdFaultOnly : Obligations.IllegalWordSetsCmdFaultOnly := by
  intro s c rest hf hp
  refine ⟨fun hill => ?_, fun hlegal => ?_, fun hlegal hop hrev => ?_⟩
  · obtain ⟨e, hd⟩ := (illegalWord_iff c).mp hill
    exact step_of_decode_error hf hp hd
  · obtain ⟨i, hd⟩ := decode_ok_of_not_illegalWord hlegal
    exact ⟨i, hd, step_of_decode_ok hf hp hd⟩
  · obtain ⟨i, hd⟩ := decode_ok_of_not_illegalWord hlegal
    obtain ⟨ch, rfl⟩ := decode_runOf hd hop
    rw [step_of_decode_ok hf hp hd, exec_runOf_reversed hrev]

/-- Settles O6, by running the decoder on each written word. -/
theorem writtenWordsDecode : Obligations.WrittenWordsDecode := by
  unfold Obligations.WrittenWordsDecode
  decide

end Sys2Proof.Machine
end

section
/-! SUPPORT. `trigger` cleared channel by channel, and how updates of one channel and of the accumulator compose. -/

namespace Sys2Proof.Machine

open Sys2Proof.Claims

/-- The square channel with `trigger` cleared. -/
def Square.untriggered (c : Square) : Square := { c with base := c.base.untriggered }

/-- The triangle channel with `trigger` cleared. -/
def Triangle.untriggered (c : Triangle) : Triangle := { c with base := c.base.untriggered }

/-- The noise channel with `trigger` cleared. -/
def Noise.untriggered (c : Noise) : Noise := { c with base := c.base.untriggered }

section
variable (s : State) (a b : Accum)

theorem State.clearTrigger_square (ch : SqChannel) :
    s.clearTrigger ch.toChannel = s.setSquare ch (s.square ch).untriggered := by cases ch <;> rfl

theorem State.clearTrigger_tri : s.clearTrigger .tri = s.setTri s.tri.untriggered := rfl

theorem State.clearTrigger_noi : s.clearTrigger .noi = s.setNoi s.noi.untriggered := rfl

@[simp] theorem State.setTri_setTri (c d : Triangle) : (s.setTri c).setTri d = s.setTri d := rfl

@[simp] theorem State.setNoi_setNoi (c d : Noise) : (s.setNoi c).setNoi d = s.setNoi d := rfl

@[simp] theorem State.setAcc_setAcc : (s.setAcc a).setAcc b = s.setAcc b := rfl

@[simp] theorem State.square_setAcc (ch : SqChannel) : (s.setAcc a).square ch = s.square ch := by cases ch <;> rfl

theorem State.setAcc_setSquare (ch : SqChannel) (c : Square) :
    (s.setAcc a).setSquare ch c = (s.setSquare ch c).setAcc a := by cases ch <;> rfl

theorem State.setAcc_setTri (c : Triangle) : (s.setAcc a).setTri c = (s.setTri c).setAcc a := rfl

theorem State.setAcc_setNoi (c : Noise) : (s.setAcc a).setNoi c = (s.setNoi c).setAcc a := rfl

end

end Sys2Proof.Machine
end

section
/-! SUPPORT. The length counter's tick and SETOUT on the sample player, in the words of R145 and R147. -/

namespace Sys2Proof.Machine

open Sys2Proof.Claims

/-- CLKLEN on a base state in the words of R145. -/
theorem clockLength_eq (b : Base) (mask : Byte) : b.clockLength mask =
    if 0 < b.lengthCounter ∧ b.regs.r0 &&& mask = 0#8 then { b with lengthCounter := b.lengthCounter - 1 } else b := by
  simp [Base.clockLength, Regs.haltedBy]

/-- A change of binding exchanges the two levels of the DMC; the binding already there changes nothing (R147, R231). -/
theorem Dmc.setOut_eq (c : Dmc) (en : Bool) : c.setOut en =
    if c.base.outEn = en then c
    else { c with dac := c.pausedDac, pausedDac := c.dac, base := { c.base with outEn := en } } := by
  by_cases h : c.base.outEn = en
  · subst h; simp [Dmc.setOut]
  · simp [Dmc.setOut, h]

theorem exec_setOutDmc (en : Bool) (s : State) : exec (.setOutDmc en) s = .next
    (if s.dmc.base.outEn = en then s
     else { s with dmc := { s.dmc with
      dac := s.dmc.pausedDac, pausedDac := s.dmc.dac, base := { s.dmc.base with outEn := en } } }) := by
  rw [exec, execSetOutDmc, Dmc.setOut_eq]
  split <;> rfl

/-- SETOUT with the binding already there changes nothing (R147). -/
theorem exec_setOut_same (ch : Channel) (s : State) : exec (setOutOf ch (s.base ch).outEn) s = .next s := by
  cases ch with
  | dmc => exact (exec_setOutDmc _ s).trans (by simp)
  | sq1 | sq2 | tri | noi => rfl

end Sys2Proof.Machine
end

section
/-! SUPPORT. What a RUN adds to the log and to its channel's `last_amp`, said once (R141 to R143, R150). -/

namespace Sys2Proof.Machine

open Sys2Proof.Claims

/-- An entry that a RUN of `ch` from `time` to `endTime` may emit (R142, R143). -/
def windowEmission (ch : Channel) (time endTime : Nat) (e : Emission) : Prop :=
  e.ch = ch ∧ e.delta ≠ 0 ∧ time ≤ e.time ∧ e.time < endTime

/-- Between `s` and `t` the entries `new` were emitted, and the `last_amp` of `ch` moved by their sum (R150). -/
structure Emits (ch : Channel) (s t : State) (new : List Emission) : Prop where
  log : t.acc.log = s.acc.log ++ new
  sum : t.acc.sum = s.acc.sum + sumDeltas new
  lastAmp : (t.base ch).lastAmp = (s.base ch).lastAmp + sumDeltas new

/-- A command that moves neither the accumulator nor the level emits nothing. -/
theorem emits_nil {ch : Channel} {s t : State} (hacc : t.acc = s.acc) (hamp : (t.base ch).lastAmp = (s.base ch).lastAmp) :
    Emits ch s t [] := by
  constructor <;> simp [hacc, hamp, sumDeltas]

theorem deltaAt_mem {ch : Channel} {t : Nat} {old new : Int} {e : Emission} (h : e ∈ deltaAt ch t old new) :
    e.ch = ch ∧ e.time = t ∧ e.delta ≠ 0 := by
  unfold deltaAt at h
  split at h
  · cases h
  · obtain rfl := List.mem_singleton.mp h
    exact ⟨rfl, rfl, by show new - old ≠ 0; omega⟩

/-- The synchronisation and the edges of a window emit inside it. -/
theorem wave_windowEmission {ch : Channel} {time endTime first p n : Nat} {la : Int} {level : Nat → Int} {e : Emission}
    (hlt : time < endTime) (hin : ∀ k < n, time ≤ first + k * p ∧ first + k * p < endTime)
    (he : e ∈ deltaAt ch time la (level 0) ++ waveLog ch first p n level) : windowEmission ch time endTime e := by
  rcases List.mem_append.mp he with he | he
  · obtain ⟨hch, htime, hdelta⟩ := deltaAt_mem he
    exact ⟨hch, hdelta, htime ▸ le_rfl, htime ▸ hlt⟩
  · obtain ⟨hch, hdelta, k, hk, htime⟩ := waveLog_mem he
    exact ⟨hch, hdelta, htime ▸ hin k hk⟩

/-- A bound RUN moves the level by what its synchronisation and its edges emit. -/
theorem emits_wave {ch : Channel} {time first p n : Nat} {level : Nat → Int} {s t : State}
    (hacc : t.acc = waveAcc s.acc ch time first p n (s.base ch).lastAmp level) (hamp : (t.base ch).lastAmp = level n) :
    Emits ch s t (deltaAt ch time (s.base ch).lastAmp (level 0) ++ waveLog ch first p n level) := by
  have hsum : sumDeltas (deltaAt ch time (s.base ch).lastAmp (level 0) ++ waveLog ch first p n level) =
      level n - (s.base ch).lastAmp := by
    rw [sumDeltas_append, sum_deltaAt, sum_waveLog]; omega
  constructor
  · simp [hacc, waveAcc]
  · rw [hsum, hacc]; rfl
  · rw [hsum, hamp]; omega

/-- A RUN emits inside its window, and the level moves by what it emits: unbound, and over an empty or a reversed window, neither
moves. -/
theorem run_emits_in_window {ch : Channel} {time endTime : Nat} {s t : State} (h : exec (runOf ch time endTime) s = .next t) :
    ∃ new, Emits ch s t new ∧ ∀ e ∈ new, windowEmission ch time endTime e := by
  rcases window_cases time endTime with hw | rfl | hw
  · rw [exec_runOf_reversed hw] at h; cases h
    exact ⟨[], emits_nil rfl (by cases ch <;> rfl), by simp⟩
  · rw [exec_runOf_empty] at h; cases h
    exact ⟨[], emits_nil rfl rfl, by simp⟩
  · obtain ⟨first, p, n, level, hin, hacc, hamp, -⟩ := run_emits hw h
    cases ho : (s.base ch).outEn <;> simp only [ho, if_true, Bool.false_eq_true, if_false] at hacc hamp
    · exact ⟨[], emits_nil hacc hamp, by simp⟩
    · exact ⟨_, emits_wave hacc hamp, fun e he => wave_windowEmission hw hin he⟩

end Sys2Proof.Machine
end

section
/-! SUPPORT. Window splitting (R149): two RUNs over adjacent windows are one RUN over both, `trigger` excepted. -/

namespace Sys2Proof.Machine

open Sys2Proof.Claims

/-- Two RUNs of `ch` over adjacent windows complete and leave the state of one RUN over both, `trigger` excepted (R149). -/
def SplitsAt (ch : Channel) (t0 t1 t2 : Nat) (s : State) : Prop :=
  ∃ m u w : State, exec (runOf ch t0 t1) s = .next m ∧ exec (runOf ch t1 t2) m = .next u ∧ exec (runOf ch t0 t2) s = .next w ∧
    u.clearTrigger ch = w.clearTrigger ch

/-- A first window that is empty changes nothing. -/
theorem splitsAt_empty_left {ch : Channel} {t0 t2 : Nat} {s : State} (h : ∃ t, exec (runOf ch t0 t2) s = .next t) :
    SplitsAt ch t0 t0 t2 s := by
  obtain ⟨t, ht⟩ := h
  exact ⟨s, t, t, exec_runOf_empty, ht, ht, rfl⟩

/-- A second window that is empty changes nothing. -/
theorem splitsAt_empty_right {ch : Channel} {t0 t2 : Nat} {s : State} (h : ∃ t, exec (runOf ch t0 t2) s = .next t) :
    SplitsAt ch t0 t2 t2 s := by
  obtain ⟨t, ht⟩ := h
  exact ⟨t, t, t, ht, exec_runOf_empty, ht, rfl⟩

section
variable {t0 t1 t2 : Nat} {s : State} (h01 : t0 < t1) (h12 : t1 < t2)
include h01 h12

theorem splitsAt_square (c : SqChannel) : SplitsAt c.toChannel t0 t1 t2 s := by
  have hrun : ∀ a b, runOf c.toChannel a b = .runSq c a b := by cases c <;> exact fun _ _ => rfl
  simp only [SplitsAt, hrun]
  refine ⟨_, _, _, exec_runSq_next h01, exec_runSq_next h12, exec_runSq_next (h01.trans h12), ?_⟩
  obtain ⟨hacc, hsq⟩ := split_square c.toChannel (t0 := t0) h12 (s.square c).untriggered s.acc rfl
  simp only [State.clearTrigger_square, State.setAcc_setSquare, State.setSquare_setSquare, State.setAcc_setAcc,
    State.square_setAcc, State.square_setSquare, State.setAcc_acc]
  exact congrArg₂ (fun x a => (s.setSquare c x).setAcc a) hsq hacc

theorem splitsAt_triangle : SplitsAt .tri t0 t1 t2 s := by
  refine ⟨_, _, _, exec_runTri_next h01, exec_runTri_next h12, exec_runTri_next (h01.trans h12), ?_⟩
  obtain ⟨hacc, htri⟩ := split_triangle (t0 := t0) h12 s.tri.untriggered s.acc rfl
  simp only [State.clearTrigger_tri, State.setAcc_setTri, State.setTri_setTri, State.setAcc_setAcc,
    State.setAcc_tri, State.setTri_tri, State.setAcc_acc]
  exact congrArg₂ (fun x a => (s.setTri x).setAcc a) htri hacc

theorem splitsAt_noise : SplitsAt .noi t0 t1 t2 s := by
  refine ⟨_, _, _, exec_runNoi_next h01, exec_runNoi_next h12, exec_runNoi_next (h01.trans h12), ?_⟩
  obtain ⟨hacc, hnoi⟩ := split_noise s.params.palNoi (t0 := t0) h12 s.noi.untriggered s.acc rfl
  simp only [State.clearTrigger_noi, State.setAcc_setNoi, State.setNoi_setNoi, State.setAcc_setAcc, State.setAcc_params,
    State.setNoi_params, State.setAcc_noi, State.setNoi_noi, State.setAcc_acc]
  exact congrArg₂ (fun x a => (s.setNoi x).setAcc a) hnoi hacc

end

/-! ### The sample player -/

/-- The state after a RUN DMC from `s` over a window with edges `e`, `v` the state its edges reach unbound (R227). -/
def State.afterRunDmc (s v : State) (time endTime : Nat) (e : EdgeSet) (level : Nat → Int) : State :=
  (v.withWave (waveBase s.dmc.base e.carry e.count level)
    (if s.dmc.base.outEn = true then waveAcc s.acc .dmc time e.first e.period e.count s.dmc.base.lastAmp level
     else s.acc)).withClock e.carry endTime

/-- RUN DMC that completes, with the state its edges reach unbound. -/
theorem exec_runDmc_afterRunDmc {time endTime : Nat} {s v : State} (h : time < endTime)
    (hv : dmcEdges s.dmc.period (edges time endTime s.dmc.base.delay s.dmc.period).count (time + s.dmc.base.delay) s.unbind =
      .goOn v) :
    exec (.runDmc time endTime) s = .next (s.afterRunDmc v time endTime (edges time endTime s.dmc.base.delay s.dmc.period)
      (dmcLevel s.dmc.period (time + s.dmc.base.delay) s.unbind)) := by
  rw [exec_runDmc_eq h hv]
  rfl

/-- Whatever was tracked of the edges that reach `v`, unbound the state is `v` with the new clock. -/
theorem unbind_afterRunDmc {p n first : Nat} {s v : State} (hv : dmcEdges p n first s.unbind = .goOn v)
    (time endTime : Nat) (e : EdgeSet) (level : Nat → Int) :
    (s.afterRunDmc v time endTime e level).unbind = v.withClock e.carry endTime := by
  conv_rhs => rw [← unbound_edges_unbind hv]
  rfl

/-- The edges after `m` edges that reach `v`, with any `delay` and `last_time`, go on where those stopped. -/
theorem dmcEdges_continue {p m first : Nat} {u v : State} (hu : u.dmc.base.outEn = false) (hv : dmcEdges p m first u = .goOn v)
    (n d l : Nat) : dmcEdges p n (first + m * p) (v.withClock d l) = (dmcEdges p (m + n) first u).map (·.withClock d l) := by
  have hvu : v.dmc.base.outEn = false := by
    obtain ⟨-, -, -, hout, -⟩ := hv ▸ dmcEdges_frame p m first u
    exact hout.trans hu
  rw [dmcEdges_withClock _ _ _ _ _ _ hvu, dmcEdges_add, hv, Flow.bind_goOn]

theorem dmcLevel_continue {p m first : Nat} {u v : State} (hu : u.dmc.base.outEn = false) (hv : dmcEdges p m first u = .goOn v)
    (d l : Nat) : dmcLevel p (first + m * p) (v.withClock d l) = fun k => dmcLevel p first u (m + k) := by
  funext k
  rw [dmcLevel, dmcLevel, dmcEdges_continue hu hv]
  cases dmcEdges p (m + k) first u <;> rfl

/-- A clock set before the wave and the next clock is forgotten. -/
theorem State.clearTrigger_afterRunDmc (s v : State) (d l time endTime : Nat) (e : EdgeSet) (level : Nat → Int) :
    (s.afterRunDmc (v.withClock d l) time endTime e level).clearTrigger .dmc =
      (v.withWave (waveBase s.dmc.base e.carry e.count level).untriggered
        (if s.dmc.base.outEn = true then waveAcc s.acc .dmc time e.first e.period e.count s.dmc.base.lastAmp level
         else s.acc)).withClock e.carry endTime := rfl

/-- The states of two adjacent windows, `v2` the state reached unbound by the edges of both (R149). -/
theorem afterRunDmc_split (s v1 v2 : State) {t0 t1 t2 : Nat} (level : Nat → Int) (h12 : t1 ≤ t2) (hp : 1 ≤ s.dmc.period) :
    let e1 := edges t0 t1 s.dmc.base.delay s.dmc.period
    let m := s.afterRunDmc v1 t0 t1 e1 level
    (m.afterRunDmc (v2.withClock e1.carry t1) t1 t2 (edges t1 t2 e1.carry s.dmc.period)
        fun k => level (e1.count + k)).clearTrigger .dmc =
      (s.afterRunDmc v2 t0 t2 (edges t0 t2 s.dmc.base.delay s.dmc.period) level).clearTrigger .dmc := by
  obtain ⟨hcount, hcarry, hfirst⟩ := edges_split (t0 := t0) s.dmc.base.delay hp h12
  intro e1 m
  have hbase := waveBase_split s.dmc.base e1.carry (edges t1 t2 e1.carry s.dmc.period).carry e1.count
    (edges t1 t2 e1.carry s.dmc.period).count level
  have hacc := wave_split s.dmc.base s.acc .dmc e1.carry t0 t1 (t0 + s.dmc.base.delay) s.dmc.period e1.count
    (edges t1 t2 e1.carry s.dmc.period).count level
  rw [← hfirst, hcount] at hacc
  rw [hcount, hcarry] at hbase
  rw [State.clearTrigger_afterRunDmc, hcarry]
  exact congrArg₂ (fun b a => (v2.withWave b a).withClock (edges t0 t2 s.dmc.base.delay s.dmc.period).carry t2) hbase hacc

/-- The second of two RUNs over adjacent windows: its edges are those of both windows that are left. -/
theorem exec_runDmc_second {t0 t1 t2 : Nat} {s v1 v2 : State} (h12 : t1 < t2) (hp : 1 ≤ s.dmc.period)
    (hv1 : dmcEdges s.dmc.period (edges t0 t1 s.dmc.base.delay s.dmc.period).count (t0 + s.dmc.base.delay) s.unbind = .goOn v1)
    (hv2 : dmcEdges s.dmc.period (edges t0 t2 s.dmc.base.delay s.dmc.period).count (t0 + s.dmc.base.delay) s.unbind = .goOn v2) :
    let e1 := edges t0 t1 s.dmc.base.delay s.dmc.period
    let level := dmcLevel s.dmc.period (t0 + s.dmc.base.delay) s.unbind
    let m := s.afterRunDmc v1 t0 t1 e1 level
    exec (.runDmc t1 t2) m = .next (m.afterRunDmc (v2.withClock e1.carry t1) t1 t2 (edges t1 t2 e1.carry s.dmc.period)
      fun k => level (e1.count + k)) := by
  obtain ⟨hcount, -, hfirst⟩ := edges_split (t0 := t0) s.dmc.base.delay hp (Nat.le_of_lt h12)
  intro e1 level m
  have hunbind : m.unbind = v1.withClock e1.carry t1 := unbind_afterRunDmc hv1 t0 t1 e1 level
  have hdelay : m.dmc.base.delay = e1.carry := rfl
  have hperiod : m.dmc.period = s.dmc.period := by
    obtain ⟨-, -, -, -, hperiod, -⟩ := unbound_edges_frame hv1
    exact hperiod
  have hrun := exec_runDmc_afterRunDmc (s := m) (v := v2.withClock e1.carry t1) h12 (by
    rw [hunbind, hperiod, hdelay, hfirst, dmcEdges_continue rfl hv1, hcount, hv2]; rfl)
  rwa [hunbind, hperiod, hdelay, hfirst, dmcLevel_continue rfl hv1] at hrun

theorem splitsAt_dmc {t0 t1 t2 : Nat} {s : State} (h01 : t0 < t1) (h12 : t1 < t2) (hr : s.params.memReaderPresent = true)
    (hp : 1 ≤ s.dmc.period) : SplitsAt .dmc t0 t1 t2 s := by
  have hreach : ∀ n, ∃ v, dmcEdges s.dmc.period n (t0 + s.dmc.base.delay) s.unbind = .goOn v :=
    fun n => ⟨_, dmcEdges_goOn (s := s.unbind) hr _ n _⟩
  obtain ⟨v1, hv1⟩ := hreach (edges t0 t1 s.dmc.base.delay s.dmc.period).count
  obtain ⟨v2, hv2⟩ := hreach (edges t0 t2 s.dmc.base.delay s.dmc.period).count
  exact ⟨_, _, _, exec_runDmc_afterRunDmc h01 hv1, exec_runDmc_second h12 hp hv1 hv2,
    exec_runDmc_afterRunDmc (h01.trans h12) hv2, afterRunDmc_split s v1 v2 _ (Nat.le_of_lt h12) hp⟩

end Sys2Proof.Machine
end

section
/-! SUPPORT. One RUN with either binding (R148): the unbound run ends in the bound run's state with nothing tracked. -/

namespace Sys2Proof.Machine

open Sys2Proof.Claims

/-- The state with another binding of `ch`. -/
def State.withBinding (s : State) (ch : Channel) (en : Bool) : State := s.setBase ch { s.base ch with outEn := en }

/-- The unbound state of the channel `ch` of `u` that has emitted and tracked nothing since `s`. -/
def State.untracked (u : State) (ch : Channel) (s : State) : State :=
  { u.setBase ch { u.base ch with outEn := false, lastAmp := (s.base ch).lastAmp, trigger := false } with acc := s.acc }

theorem exec_runSq_binding {c : SqChannel} {time endTime : Nat} {s : State} (hlt : time < endTime) :
    ∃ u, exec (.runSq c time endTime) (s.withBinding c.toChannel true) = .next u ∧
      exec (.runSq c time endTime) (s.withBinding c.toChannel false) = .next (u.untracked c.toChannel s) := by
  refine ⟨_, exec_runSq_next hlt, ?_⟩
  rw [exec_runSq_next hlt]
  cases c <;> (rw [runSquare_eq _ _ _ _ _ rfl, runSquare_eq _ _ _ _ _ rfl]; rfl)

theorem exec_runTri_binding {time endTime : Nat} {s : State} (hlt : time < endTime) :
    ∃ u, exec (.runTri time endTime) (s.withBinding .tri true) = .next u ∧
      exec (.runTri time endTime) (s.withBinding .tri false) = .next (u.untracked .tri s) := by
  refine ⟨_, exec_runTri_next hlt, ?_⟩
  rw [exec_runTri_next hlt, runTriangle_iter _ _ _ _ rfl, runTriangle_iter _ _ _ _ rfl]
  rfl

theorem exec_runNoi_binding {time endTime : Nat} {s : State} (hlt : time < endTime) :
    ∃ u, exec (.runNoi time endTime) (s.withBinding .noi true) = .next u ∧
      exec (.runNoi time endTime) (s.withBinding .noi false) = .next (u.untracked .noi s) := by
  refine ⟨_, exec_runNoi_next hlt, ?_⟩
  rw [exec_runNoi_next hlt, runNoise_eq _ _ _ _ _ rfl, runNoise_eq _ _ _ _ _ rfl]
  rfl

theorem exec_runDmc_binding {time endTime : Nat} {s : State} (hlt : time < endTime) (hr : s.params.memReaderPresent = true) :
    ∃ u, exec (.runDmc time endTime) (s.withBinding .dmc true) = .next u ∧
      exec (.runDmc time endTime) (s.withBinding .dmc false) = .next (u.untracked .dmc s) := by
  have hedges := dmcEdges_goOn (s := s.unbind) hr s.dmc.period (edges time endTime s.dmc.base.delay s.dmc.period).count
    (time + s.dmc.base.delay)
  refine ⟨_, exec_runDmc_eq (s := s.withBinding .dmc true) hlt hedges, ?_⟩
  rw [exec_runDmc_eq (s := s.withBinding .dmc false) hlt hedges]
  rfl

/-- The two runs of any channel (R148). -/
theorem exec_runOf_binding {ch : Channel} {time endTime : Nat} {s : State} (hlt : time < endTime)
    (hr : ch = .dmc → s.params.memReaderPresent = true) :
    ∃ u, exec (runOf ch time endTime) (s.withBinding ch true) = .next u ∧
      exec (runOf ch time endTime) (s.withBinding ch false) = .next (u.untracked ch s) := by
  cases ch with
  | sq1 => exact exec_runSq_binding (c := .sq1) hlt
  | sq2 => exact exec_runSq_binding (c := .sq2) hlt
  | tri => exact exec_runTri_binding hlt
  | noi => exact exec_runNoi_binding hlt
  | dmc => exact exec_runDmc_binding hlt (hr rfl)

theorem State.base_untracked (u : State) (ch : Channel) (s : State) : (u.untracked ch s).base ch =
    { u.base ch with outEn := false, lastAmp := (s.base ch).lastAmp, trigger := false } := by
  cases ch <;> rfl

end Sys2Proof.Machine
end

section
/-! PROOF. The statements about the commands shared by all channels and about the frame of RUN (R141 to R150). -/

namespace Sys2Proof.Machine

open Sys2Proof.Claims

/-- Settles O46: an empty window changes nothing, and two non-empty ones put their edges together, channel by channel. -/
theorem windowSplitting : Obligations.WindowSplitting := by
  intro ch t0 t1 t2 s h01 h12 hdmc
  have htotal : ∃ t, exec (runOf ch t0 t2) s = .next t := exec_runOf_total s (h01.trans h12) fun hch => (hdmc hch).1
  rcases Nat.eq_or_lt_of_le h01 with rfl | h01
  · exact splitsAt_empty_left htotal
  rcases Nat.eq_or_lt_of_le h12 with rfl | h12
  · exact splitsAt_empty_right htotal
  cases ch with
  | sq1 => exact splitsAt_square h01 h12 .sq1
  | sq2 => exact splitsAt_square h01 h12 .sq2
  | tri => exact splitsAt_triangle h01 h12
  | noi => exact splitsAt_noise h01 h12
  | dmc =>
    obtain ⟨hr, hp⟩ := hdmc rfl
    exact splitsAt_dmc h01 h12 hr hp

/-- Settles O47: the command's own channel moves with what it emits, the sum of any other channel gains nothing. -/
theorem deltaConservation : Obligations.DeltaConservation := by
  intro i ch s t h hreset hlinear
  rcases runOf_cases i with ⟨c, time, endTime, rfl⟩ | hrun
  · obtain ⟨new, hemits, hin⟩ := run_emits_in_window h
    have hown : ∀ e ∈ new, e.ch = c := fun e he => (hin e he).1
    refine ⟨?_, new, hemits.log, hemits.sum, fun e he => ?_⟩
    · rw [hemits.log, channelSum_append]
      by_cases hc : c = ch
      · subst hc
        rw [channelSum_own hown, hemits.lastAmp]; omega
      · rw [channelSum_other hown hc, base_other h (by rwa [runOf_channel])]; omega
    · obtain ⟨hch, hdelta, -⟩ := hin e he
      exact ⟨by rw [hch, runOf_channel], hdelta⟩
  · have hacc := exec_acc_of_not_run hrun h
    rw [hacc, exec_lastAmp_of_not_run ch hrun h hreset hlinear]
    exact ⟨rfl, [], by simp, by simp [sumDeltas], by simp⟩

/-- Settles O48, from what a RUN emits. -/
theorem emissionsLieInTheWindow : Obligations.EmissionsLieInTheWindow := by
  intro ch time endTime s t h
  obtain ⟨new, hemits, hin⟩ := run_emits_in_window h
  refine ⟨new, hemits.log, fun e he => ?_⟩
  obtain ⟨hch, -, hwindow⟩ := hin e he
  exact ⟨hch, hwindow⟩

/-- Settles O49: the unbound run ends in the bound run's state with nothing tracked. -/
theorem unboundRunAdvancesAsBound : Obligations.UnboundRunAdvancesAsBound := by
  intro ch time endTime s hlt hr
  obtain ⟨u, hbound, hunbound⟩ := exec_runOf_binding hlt hr
  refine ⟨u.untracked ch s, u, hunbound, hbound, rfl, ?_, ?_, ?_⟩
  · rw [State.base_untracked]
  · rw [State.base_untracked]
  · rw [State.base_untracked]; rfl

/-- Settles O21, from the bounds of the last edge. -/
theorem edgesEnumerateWindow : Obligations.EdgesEnumerateWindow := by
  intro time endTime delay p _ hp
  obtain ⟨-, hlast⟩ := edges_bounds time endTime delay hp
  have hcarry := edges_carry time endTime delay hp
  refine ⟨rfl, rfl, edges_lt_iff time endTime delay hp, hcarry, fun hsome => ?_, fun hnone => ?_⟩
  · have := hlast hsome
    omega
  · rw [hnone] at hcarry
    omega

/-- Settles O7, from the rules of the register write. -/
theorem wrStoresByteAndLatch : Obligations.WrStoresByteAndLatch := by
  intro ch a data s
  refine ⟨_, rfl, ?_, ?_, fun a' ha => ?_, ?_⟩ <;> rw [State.base_setBase]
  · exact Regs.get_set_same _ _ _
  · exact Latches.get_set_same _ _ _
  · exact ⟨Regs.get_set_ne _ _ _ _ ha, Latches.get_set_ne _ _ _ _ ha⟩
  · rfl

/-- Settles O11: the tick in the words of R145, and a channel outside the channels column of R102. -/
theorem clkLenDecrementsUnlessHalted : Obligations.ClkLenDecrementsUnlessHalted := by
  refine ⟨fun ch mask s => ?_, rejectedOn_of_not_allowed (by simp [channelAllowed])⟩
  rw [exec, execClkLen, clockLength_eq]
  split
  · rfl
  · rw [State.setBase_base]

/-- Settles O12, by the meaning of SETLEN and the channels column of R102. -/
theorem setLenLoadsCounter : Obligations.SetLenLoadsCounter :=
  ⟨fun ch n s => ⟨_, rfl, by rw [State.base_setBase], rfl⟩, rejectedOn_of_not_allowed (by simp [channelAllowed])⟩

/-- Settles O13: on a plain channel by the meaning of SETOUT, on the DMC by the exchange of its levels. -/
theorem setOutBinds : Obligations.SetOutBinds :=
  ⟨fun _ _ _ => rfl, exec_setOutDmc, exec_setOut_same⟩

/-- Settles O20, from the frame of RUN. -/
theorem reversedAndEmptyWindows : Obligations.ReversedAndEmptyWindows :=
  fun _ _ _ _ => ⟨exec_runOf_reversed, exec_runOf_empty⟩

end Sys2Proof.Machine
end

section
/-! SUPPORT. The envelope from its restart on (R171, R173), and register 0 in the words of the statements (R104). -/

namespace Sys2Proof.Machine

open Sys2Proof.Claims

theorem Regs.volPeriod_toNat (r : Regs) : r.volPeriod.toNat = field r.r0 3 0 := by
  rw [field_eq]; rfl

theorem Regs.constVol_iff (r : Regs) : r.constVol = true ↔ bit r.r0 4 = 1 := by
  simp [Regs.constVol, bit_eq]

/-- With the latch of register 3 set, a tick of the noise channel is a restart (R171). -/
theorem Noise.clockEnvelope_env_of_written {c : Noise} (h : c.base.written.w3 = true) :
    c.clockEnvelope.env = c.env.clock c.base.regs true :=
  congrArg (c.env.clock c.base.regs) h

/-- With the latch of register 3 set, a tick of a square channel is a restart (R171). -/
theorem Square.clockEnvelope_env_of_written {c : Square} (h : c.base.written.w3 = true) :
    c.clockEnvelope.env = c.env.clock c.base.regs true :=
  congrArg (c.env.clock c.base.regs) h

/-- The level `k` expiries of the divider after the restart tick (R173). -/
theorem envelopeTicks_after_restart (r : Regs) (e : Envelope) (k : Nat) :
    (envelopeTicks r (k * (field r.r0 3 0 + 1)) (e.clock r true)).envelope.toNat =
      if bit r.r0 5 = 1 then 15 - k % 16 else 15 - k := by
  obtain ⟨level, hticks, hlevel⟩ := envelopeTicks_periods r k (e.clock r true) rfl
  rw [← r.volPeriod_toNat, hticks]
  exact hlevel rfl

/-- CLKENV NOI repeated: the first tick consumes the latch, the others find it clear. -/
theorem execAll_clkEnvNoi_succ (n : Nat) (s : State) :
    execAll (List.replicate (1 + n) .clkEnvNoi) s = .next (s.setNoi { s.noi.clockEnvelope with
      env := envelopeTicks s.noi.base.regs n s.noi.clockEnvelope.env }) := by
  rw [Nat.add_comm, List.replicate_succ]
  exact execAll_clkEnvNoi n (s.setNoi s.noi.clockEnvelope) rfl

/-- CLKENV of a square channel repeated: the first tick consumes the latch, the others find it clear. -/
theorem execAll_clkEnvSq_succ (ch : SqChannel) (n : Nat) (s : State) :
    execAll (List.replicate (1 + n) (.clkEnvSq ch)) s = .next (s.setSquare ch { (s.square ch).clockEnvelope with
      env := envelopeTicks (s.square ch).base.regs n (s.square ch).clockEnvelope.env }) := by
  have hticks := execAll_clkEnvSq ch n (s.setSquare ch (s.square ch).clockEnvelope) (by rw [State.square_setSquare]; rfl)
  rw [State.setSquare_setSquare, State.square_setSquare] at hticks
  rw [Nat.add_comm, List.replicate_succ]
  exact hticks

end Sys2Proof.Machine
end

section
/-! PROOF. The statements about the envelope unit (R171 to R173). -/

namespace Sys2Proof.Machine

open Sys2Proof.Claims

/-- Settles O17: one restart tick, then `k` periods of the divider. -/
theorem envelopeSequence : Obligations.EnvelopeSequence := by
  constructor
  · intro s k hw
    refine ⟨_, execAll_clkEnvNoi_succ _ s, ?_, rfl, rfl⟩
    rw [State.setNoi_noi, Noise.clockEnvelope_env_of_written hw]
    exact envelopeTicks_after_restart _ _ k
  · intro ch s k hw
    refine ⟨_, execAll_clkEnvSq_succ ch _ s, ?_⟩
    rw [State.square_setSquare, Square.clockEnvelope_env_of_written hw]
    exact ⟨envelopeTicks_after_restart _ _ k, rfl, rfl⟩

/-- Settles O15: the tick in the words of R171, and two channels outside the channels column of R102. -/
theorem clkEnvTicks : Obligations.ClkEnvTicks := by
  refine ⟨fun ch s => ⟨_, rfl, ?_⟩, fun s => ⟨_, rfl, envelope_clock_tick _ _ _, rfl⟩,
    rejectedOn_of_not_allowed (by simp [channelAllowed]), rejectedOn_of_not_allowed (by simp [channelAllowed])⟩
  rw [State.square_setSquare]
  exact ⟨envelope_clock_tick _ _ _, rfl⟩

/-- Settles O16, by the fields of register 0. -/
theorem volumeRule : Obligations.VolumeRule := by
  intro b e
  refine ⟨?_, volume_le b e⟩
  rw [volume, Regs.volPeriod_toNat]
  simp only [Regs.constVol_iff]

end Sys2Proof.Machine
end

section
/-! SUPPORT. The sweep tick in the words of R181: what it commits, how its divider counts, what it leaves, and which operands it takes. -/

namespace Sys2Proof.Machine

open Sys2Proof.Claims

/-- The shift takes at most half of the period away and the adjustment one more, and a committed period is at least 8 (R181). -/
theorem sweepCand_nonneg {r : Regs} {n : Int} (hn : -1 ≤ n) (h : sweepCommitted r n) : 0 ≤ sweepCand r n := by
  obtain ⟨hshift, -, hmin, -⟩ := h
  have hhalf : period r / 2 ^ field r.r1 2 0 ≤ period r / 2 :=
    Nat.div_le_div_left (Nat.le_self_pow hshift 2) two_pos
  unfold sweepCand
  generalize period r / 2 ^ field r.r1 2 0 = offset at hhalf ⊢
  split <;> omega

/-- A commit writes the candidate as the period: it fits the 11 bits (R181). -/
theorem period_sweepCommit {r : Regs} {n : Int} (hn : -1 ≤ n) (h : sweepCommitted r n) :
    (period (r.sweepCommit n) : Int) = sweepCand r n := by
  have hnonneg := sweepCand_nonneg hn h
  have ⟨_, _, _, hceil⟩ := h
  rw [Regs.sweepCommit, if_pos ((sweepCommits_iff r n).mpr h), sweepCandidate_eq, period_eq, setPeriod_period,
    BitVec.toNat_ofInt]
  omega

/-- A commit keeps bits 7:3 of register 3 (R181). -/
theorem sweepCommit_high_bits (r : Regs) (n : Int) : field (r.sweepCommit n).r3 7 3 = field r.r3 7 3 := by
  unfold Regs.sweepCommit
  split
  · exact setPeriod_high_bits _ _
  · rfl

/-- Without the four conditions the registers stay (R181). -/
theorem sweepCommit_of_not_committed {r : Regs} {n : Int} (h : ¬sweepCommitted r n) : r.sweepCommit n = r :=
  if_neg fun hc => h ((sweepCommits_iff r n).mp hc)

theorem sweepDelay_eq_zero_iff {d : BitVec 3} : d = 0#3 ↔ d.toNat = 0 := BitVec.toNat_eq

section
variable {c : Square} {n : Int}

/-- The divider is reloaded on its underflow or on the latch of register 1, whether or not a period is committed (R181). -/
theorem clockSweep_of_reload (h : c.sweepDelay.toNat = 0 ∨ c.base.written.w1 = true) : c.clockSweep n = { c with
    sweepDelay := sweepPeriod c.base.regs.r1
    base := { c.base with
      regs := if c.sweepDelay.toNat = 0 then c.base.regs.sweepCommit n else c.base.regs
      written := { c.base.written with w1 := false } } } := by
  rw [← sweepDelay_eq_zero_iff] at h
  simp [Square.clockSweep, Latches.get, Latches.set, h, ← sweepDelay_eq_zero_iff]

/-- Otherwise a tick only counts the divider down (R181). -/
theorem clockSweep_of_count (h : ¬(c.sweepDelay.toNat = 0 ∨ c.base.written.w1 = true)) :
    c.clockSweep n = { c with sweepDelay := c.sweepDelay - 1#3 } := by
  rw [← sweepDelay_eq_zero_iff] at h
  simp [Square.clockSweep, Latches.get, h]

/-- The divider after a tick (R181). -/
theorem clockSweep_sweepDelay : (c.clockSweep n).sweepDelay.toNat =
    if c.sweepDelay.toNat = 0 ∨ c.base.written.w1 = true then field c.base.regs.r1 6 4 else c.sweepDelay.toNat - 1 := by
  split
  case isTrue h => rw [clockSweep_of_reload h, field_eq]; rfl
  case isFalse h => rw [clockSweep_of_count h]; bv_omega

/-- The registers after a tick: only the divider's underflow commits (R181). -/
theorem clockSweep_regs :
    (c.clockSweep n).base.regs = if c.sweepDelay.toNat = 0 then c.base.regs.sweepCommit n else c.base.regs := by
  by_cases h : c.sweepDelay.toNat = 0 ∨ c.base.written.w1 = true
  · rw [clockSweep_of_reload h]
  · rw [clockSweep_of_count h, if_neg fun hu => h (.inl hu)]

/-- Registers 0 and 1 stay (R181). -/
theorem clockSweep_low_regs :
    (c.clockSweep n).base.regs.r0 = c.base.regs.r0 ∧ (c.clockSweep n).base.regs.r1 = c.base.regs.r1 := by
  rcases c.clockSweep_base n with hb | ⟨low, high, hb⟩ <;> rw [hb] <;> exact ⟨rfl, rfl⟩

/-- A tick moves the divider and the registers and leaves the latch of register 1 clear, nothing else (R181). -/
theorem clockSweep_frame : c.clockSweep n = { c with
    sweepDelay := (c.clockSweep n).sweepDelay
    base := { c.base with regs := (c.clockSweep n).base.regs, written := { c.base.written with w1 := false } } } := by
  by_cases h : c.sweepDelay.toNat = 0 ∨ c.base.written.w1 = true
  · rw [clockSweep_of_reload h]
  · have hclear : c.base.written.w1 = false := by simpa using fun hw => h (.inr hw)
    rw [clockSweep_of_count h, ← hclear]

end

/-- The two legal immediates and the adjustments they mean (R109). -/
theorem negativeAdjust_eq {m8 : Byte} (h : m8 = 0xFF#8 ∨ m8 = 0x00#8) :
    negativeAdjust m8 = if m8 = 0xFF#8 then -1 else 0 := by
  rcases h with rfl | rfl <;> rfl

theorem exec_clkSwp {ch : SqChannel} {m8 : Byte} {s : State} (h : m8 = 0xFF#8 ∨ m8 = 0x00#8) :
    exec (.clkSwp ch m8) s = .next (s.setSquare ch ((s.square ch).clockSweep (negativeAdjust m8))) := by
  rcases h with rfl | rfl <;> rfl

/-- Any other immediate is an illegal command (R111, R181). -/
theorem exec_clkSwp_illegal {ch : SqChannel} {m8 : Byte} {s : State} (hneg : m8 ≠ 0xFF#8) (hzero : m8 ≠ 0x00#8) :
    exec (.clkSwp ch m8) s = .next { s with cmdFault := true } :=
  if_neg (by simp [legalNegativeAdjust, hneg, hzero])

end Sys2Proof.Machine
end

section
/-! PROOF. The statements about the square channels: the sweep tick (R181) and RUN (R184). -/

namespace Sys2Proof.Machine

open Sys2Proof.Claims

/-- Settles O18: the registers, the divider and the frame of the tick, and the commands R111 lists. -/
theorem clkSwpTicks : Obligations.ClkSwpTicks := by
  refine ⟨fun ch m8 s hm => ⟨negativeAdjust m8, _, negativeAdjust_eq hm, exec_clkSwp hm, ?_⟩,
    fun ch m8 s => exec_clkSwp_illegal,
    fun c hop hneg hzero => (illegalWord_iff c).mp (by simp [illegalWord, hop, hneg, hzero]),
    rejectedOn_of_not_allowed (by simp [channelAllowed]), rejectedOn_of_not_allowed (by simp [channelAllowed]),
    rejectedOn_of_not_allowed (by simp [channelAllowed])⟩
  rw [State.square_setSquare]
  have hadj : -1 ≤ negativeAdjust m8 := by rcases hm with rfl | rfl <;> decide
  obtain ⟨hr0, hr1⟩ := clockSweep_low_regs (c := s.square ch) (n := negativeAdjust m8)
  refine ⟨fun ⟨hu, hc⟩ => ?_, fun hno => ?_, hr0, hr1, clockSweep_sweepDelay, congrArg _ clockSweep_frame⟩
  · rw [clockSweep_regs, if_pos hu]
    exact ⟨sweepCand_nonneg hadj hc, period_sweepCommit hadj hc, sweepCommit_high_bits _ _⟩
  · rw [clockSweep_regs]
    split
    case isTrue hu => exact sweepCommit_of_not_committed fun hc => hno ⟨hu, hc⟩
    case isFalse => rfl

/-- Settles O22: RUN on a square channel whose `trigger` was cleared, its timer in the words of R108. -/
theorem runSqResult : Obligations.RunSqResult := by
  intro ch time endTime s hlt
  refine ⟨_, rfl, ?_⟩
  rw [exec_runSq_next hlt, State.clearTrigger_square, State.square_setSquare, State.setSquare_setSquare,
    runSquare_eq _ _ _ _ _ rfl, period_eq, ← State.setAcc_setSquare]
  rfl

end Sys2Proof.Machine
end

section
/-! SUPPORT. The linear counter's tick in the words of R201: what it loads, which latch it clears, what it leaves. -/

namespace Sys2Proof.Machine

open Sys2Proof.Claims

theorem Regs.linearReload_toNat (r : Regs) : r.linearReload.toNat = field r.r0 6 0 := by
  rw [field_eq]; rfl

section
variable (c : Triangle)

/-- The counter after a tick: a reload on the latch of register 3, else one less down to 0 (R201). -/
theorem clockLinear_linearCounter : c.clockLinear.linearCounter.toNat =
    if c.base.written.w3 = true then field c.base.regs.r0 6 0 else c.linearCounter.toNat - 1 := by
  unfold Triangle.clockLinear
  by_cases hw : c.base.written.w3 = true
  · simp [Latches.get, hw, Regs.linearReload_toNat]
  · by_cases hzero : c.linearCounter = 0#7
    · simp [Latches.get, hw, hzero]
    · simp only [Latches.get, hw, hzero, Bool.false_eq_true, if_false, ne_eq, not_false_eq_true, if_true]
      bv_omega

/-- The latch of register 3 after a tick: cleared unless bit 7 of register 0 holds it (R201). -/
theorem clockLinear_latch : c.clockLinear.base.written.w3 =
    if bit c.base.regs.r0 7 = 0 then false else c.base.written.w3 := by
  simp only [Triangle.clockLinear, ← Regs.controlHalt_eq_false_iff]
  cases c.base.regs.controlHalt <;> rfl

/-- A tick moves the counter and the latch of register 3, nothing else (R201). -/
theorem clockLinear_frame : c.clockLinear = { c with
    linearCounter := c.clockLinear.linearCounter
    base := { c.base with written := { c.base.written with w3 := c.clockLinear.base.written.w3 } } } := by
  unfold Triangle.clockLinear
  cases c.base.regs.controlHalt <;> rfl

end

end Sys2Proof.Machine
end

section
/-! PROOF. The statements about the triangle channel: the linear counter's tick (R201) and RUN (R204). -/

namespace Sys2Proof.Machine

open Sys2Proof.Claims

/-- Settles O23: RUN on a triangle whose `trigger` was cleared, its phase walk in closed form. -/
theorem runTriResult : Obligations.RunTriResult := by
  intro time endTime s hlt hlow hhigh
  refine ⟨_, _, _, _, rfl, rfl, rfl, rfl, ?_⟩
  rw [exec_runTri_next hlt, State.clearTrigger_tri, State.setTri_setTri,
    runTriangle_eq _ _ (s.setTri s.tri.untriggered).tri _ rfl hlow hhigh]
  rfl

/-- Settles O19: the counter, the latch and the frame of the tick, and the channels outside the channels column of R102. -/
theorem clkLinTicks : Obligations.ClkLinTicks :=
  ⟨fun s => ⟨_, rfl, clockLinear_linearCounter s.tri, clockLinear_latch s.tri, congrArg s.setTri (clockLinear_frame s.tri)⟩,
    rejectedOn_of_not_allowed (by simp [channelAllowed]), rejectedOn_of_not_allowed (by simp [channelAllowed]),
    rejectedOn_of_not_allowed (by simp [channelAllowed]), rejectedOn_of_not_allowed (by simp [channelAllowed])⟩

end Sys2Proof.Machine
end

section
/-! SUPPORT. The memory addresses of the sample player as numbers (R74, R110, R219), and the commands around RUN DMC as `exec`
answers them. -/

namespace Sys2Proof.Machine

open Sys2Proof.Claims

/-! ### Addresses -/

/-- The high bank starts at 0x8000 and a cursor never leaves it (R74). -/
theorem bankAddr_eq (cursor : BitVec 15) : bankAddr cursor = BitVec.ofNat 16 (0x8000 + cursor.toNat) := by
  unfold bankAddr
  bv_omega

/-- The start of a sample is inside the 15-bit cursor (R110). -/
theorem Regs.sampleStart_toNat (r : Regs) : r.sampleStart.toNat = 0x4000 + 64 * r.r2.toNat := by
  have := r.r2.isLt
  simp only [Regs.sampleStart, BitVec.toNat_ofNat]
  omega

/-- `dac_load` as a number (R107). -/
theorem dmcDacLoad_toNat (data : Byte) : (dmcDacLoad data).toNat = field data 6 0 := by
  rw [field_eq]; rfl

/-- A sample's length as a number (R110). -/
theorem Regs.sampleLength_eq (r : Regs) : r.sampleLength = 16 * r.r3.toNat + 1 := by
  rw [Regs.sampleLength, Nat.mul_comm]

/-! ### A read of FILL_BUFFER in the words of the statements (R74, R220) -/

section
variable {s v : State} (hb : s.dmc.bufFull = false) (h : fillBuffer s = .goOn v)
include hb h

/-- The byte read, its address and the buffer, whichever byte of the sample it is. -/
theorem fillBuffer_fetches (hl : 0 < s.dmc.base.lengthCounter) : v.dmc.bufFull = true ∧
    v.memReads = s.memReads ++ [BitVec.ofNat 16 (0x8000 + s.dmc.address.toNat)] ∧
    v.dmc.buf = s.readerAnswer (BitVec.ofNat 16 (0x8000 + s.dmc.address.toNat)) := by
  rw [← bankAddr_eq]
  rcases fillBuffer_cases s with ⟨hidle, -⟩ | ⟨-, -, -, hf⟩ | ⟨-, -, -, hf⟩ | ⟨-, -, -, -, hf⟩ | ⟨-, -, -, -, hf⟩
  · exact absurd (hidle.resolve_left (by simp [hb])) (by omega)
  all_goals
    rw [hf] at h
    cases h
  · exact ⟨rfl, rfl, rfl⟩
  · exact ⟨rfl, rfl, rfl⟩
  · rw [endSample_eq]
    exact ⟨rfl, rfl, rfl⟩

/-- A reader was there, if a byte was due. -/
theorem fillBuffer_goOn_reader (hl : 0 < s.dmc.base.lengthCounter) : s.params.memReaderPresent = true := by
  by_contra hr
  rw [fillBuffer_fatal hb hl (by simpa using hr)] at h
  cases h

/-- A byte before the last. -/
theorem fillBuffer_reads_more (hl : 1 < s.dmc.base.lengthCounter) :
    v.dmc.address.toNat = (s.dmc.address.toNat + 1) % 0x8000 ∧ v.dmc.base.lengthCounter = s.dmc.base.lengthCounter - 1 ∧
      v.dmc.irqFlag = s.dmc.irqFlag ∧ v.dmc.nextIrq = s.dmc.nextIrq ∧ v.notifications = s.notifications := by
  rw [fillBuffer_more hb hl (fillBuffer_goOn_reader hb h (by omega))] at h
  cases h
  exact ⟨BitVec.toNat_add _ _, rfl, rfl, rfl, rfl⟩

/-- The last byte of a looping sample. -/
theorem fillBuffer_reads_loop (hl : s.dmc.base.lengthCounter = 1) (hloop : bit s.dmc.base.regs.r0 6 = 1) :
    v.dmc.address.toNat = 0x4000 + 64 * s.dmc.base.regs.r2.toNat ∧
      v.dmc.base.lengthCounter = 16 * s.dmc.base.regs.r3.toNat + 1 ∧
      v.dmc.irqFlag = s.dmc.irqFlag ∧ v.dmc.nextIrq = s.dmc.nextIrq ∧ v.notifications = s.notifications := by
  obtain ⟨hloop', -⟩ := dmcLoop_iff s.dmc.base.regs.r0
  rw [fillBuffer_loop hb hl (fillBuffer_goOn_reader hb h (by omega)) (hloop'.mpr hloop)] at h
  cases h
  exact ⟨Regs.sampleStart_toNat _, Regs.sampleLength_eq _, rfl, rfl, rfl⟩

/-- The last byte of a sample that does not loop. -/
theorem fillBuffer_reads_last (hl : s.dmc.base.lengthCounter = 1) (hloop : bit s.dmc.base.regs.r0 6 = 0) :
    v.dmc.address.toNat = (s.dmc.address.toNat + 1) % 0x8000 ∧ v.dmc.base.lengthCounter = 0 ∧
      v.dmc.irqFlag = (s.dmc.irqFlag || s.dmc.irqEnabled) ∧ v.dmc.nextIrq = none ∧
      v.notifications = s.notifications ++ .dmcDisabled :: (if s.dmc.irqEnabled then [.irqChanged] else []) := by
  obtain ⟨-, hend⟩ := dmcLoop_iff s.dmc.base.regs.r0
  rw [fillBuffer_end hb hl (fillBuffer_goOn_reader hb h (by omega)) (hend.mpr hloop), endSample_eq] at h
  cases h
  exact ⟨BitVec.toNat_add _ _, show s.dmc.base.lengthCounter - 1 = 0 by omega, rfl, rfl, rfl⟩

end

/-! ### What RECALC_IRQ leaves, field by field (R222) -/

/-- With no byte left nothing is due (R222). -/
theorem predictIrq_of_no_byte {c : Dmc} (h : c.base.lengthCounter = 0) : predictIrq c = none := if_neg (by simp [h])

section
variable (m : State)

theorem recalcIrq_nextIrq : (recalcIrq m).dmc.nextIrq = predictIrq m.dmc := by rw [recalcIrq_eq]

theorem recalcIrq_notifications : (recalcIrq m).notifications =
    m.notifications ++ (if predictIrq m.dmc = m.dmc.nextIrq then [] else [.irqChanged]) := by rw [recalcIrq_eq]

theorem recalcIrq_reader : (recalcIrq m).dmc.address = m.dmc.address ∧ (recalcIrq m).dmc.buf = m.dmc.buf ∧
    (recalcIrq m).dmc.bufFull = m.dmc.bufFull ∧ (recalcIrq m).dmc.irqFlag = m.dmc.irqFlag ∧
    (recalcIrq m).memReads = m.memReads := by
  rw [recalcIrq_eq]; exact ⟨rfl, rfl, rfl, rfl, rfl⟩

theorem predictedIrq_recalcIrq : predictedIrq (recalcIrq m).dmc = predictedIrq m.dmc := by rw [recalcIrq_eq]; rfl

end

/-! ### DMCSTART (R224) -/

/-- DMCSTART once FILL_BUFFER has gone on: the schedule is recomputed. -/
theorem exec_dmcStart_of_fillBuffer {s m : State} (h : fillBuffer (reloadSample s) = .goOn m) :
    exec .dmcStart s = .next (recalcIrq m) := by
  rw [exec, execDmcStart, h]
  rfl

/-- DMCSTART completes with a reader, or with a byte buffered so that none is due (R281). -/
theorem fillBuffer_reloadSample_goOn {s : State} (h : s.params.memReaderPresent = true ∨ s.dmc.bufFull = true) :
    ∃ m, fillBuffer (reloadSample s) = .goOn m := by
  rcases h with hr | hb
  · exact ⟨_, fillBuffer_goOn (s := reloadSample s) hr⟩
  · exact ⟨_, fillBuffer_idle (.inl hb)⟩

/-- After DMCSTART a byte is buffered, the old one or the first of the sample. -/
theorem fillBuffer_reloadSample_bufFull {s m : State} (h : fillBuffer (reloadSample s) = .goOn m) : m.dmc.bufFull = true := by
  cases hb : s.dmc.bufFull
  · obtain ⟨hfull, -⟩ := fillBuffer_fetches (s := reloadSample s) hb h (Nat.succ_pos _)
    exact hfull
  · rw [fillBuffer_idle (s := reloadSample s) (.inl hb)] at h
    cases h
    exact hb

/-- FILL_BUFFER after the reload leaves bytes to read and ends no sample, or it ends the sample (R220). -/
theorem fillBuffer_reloadSample_end {s m : State} (h : fillBuffer (reloadSample s) = .goOn m) :
    (m.dmc.base.lengthCounter ≠ 0 ∧ m.notifications = s.notifications ∧ m.dmc.nextIrq = s.dmc.nextIrq) ∨
    (m.dmc.base.lengthCounter = 0 ∧ m.dmc.nextIrq = none ∧
      m.notifications = s.notifications ++ .dmcDisabled :: (if s.dmc.irqEnabled then [.irqChanged] else [])) := by
  rcases fillBuffer_cases (reloadSample s) with ⟨-, hf⟩ | ⟨-, -, -, hf⟩ | ⟨-, hl, -, hf⟩ | ⟨-, -, -, -, hf⟩ | ⟨-, hl, -, -, hf⟩
  all_goals
    rw [hf] at h
    cases h
  · exact .inl ⟨Nat.succ_ne_zero _, rfl, rfl⟩
  · exact .inl ⟨Nat.sub_ne_zero_of_lt hl, rfl, rfl⟩
  · exact .inl ⟨Nat.succ_ne_zero _, rfl, rfl⟩
  · rw [endSample_eq]
    exact .inr ⟨Nat.sub_eq_zero_of_le (Nat.le_of_eq hl), rfl, rfl⟩

/-! ### Sequences of commands -/

/-- A list of commands that completes executed its first command and then the others. -/
theorem execAll_cons_eq_next {i : Instr} {rest : List Instr} {s u : State} (h : execAll (i :: rest) s = .next u) :
    ∃ m, exec i s = .next m ∧ execAll rest m = .next u := by
  rw [execAll] at h
  cases hm : exec i s with
  | next m => rw [hm] at h; exact ⟨m, rfl, h⟩
  | fault f => rw [hm] at h; cases h
  | refused r => rw [hm] at h; cases h

/-- Windows of an unbound DMC, whatever follows them, keep the parked level, `last_amp` and the accumulator (R231). -/
theorem execAll_runDmc_unbound_keeps {windows : List (Nat × Nat)} {rest : List Instr} {s u : State}
    (ho : s.dmc.base.outEn = false) (h : execAll (windows.map (fun w => .runDmc w.1 w.2) ++ rest) s = .next u) :
    ∃ m, execAll rest m = .next u ∧ m.dmc.pausedDac = s.dmc.pausedDac ∧ m.dmc.base.lastAmp = s.dmc.base.lastAmp ∧
      m.dmc.base.outEn = false ∧ m.acc = s.acc := by
  induction windows generalizing s with
  | nil => exact ⟨s, h, rfl, rfl, ho, rfl⟩
  | cons w windows ih =>
    obtain ⟨v, hv, hrest⟩ := execAll_cons_eq_next h
    obtain ⟨hpaused, hamp, hout, hacc⟩ := runDmc_unbound_keeps ho hv
    obtain ⟨m, hm, hpaused', hamp', hout', hacc'⟩ := ih hout hrest
    exact ⟨m, hm, hpaused'.trans hpaused, hamp'.trans hamp, hout', hacc'.trans hacc⟩

end Sys2Proof.Machine
end

section
/-! PROOF. The statements about the sample player's registers, its start, stop and acknowledge, and its binding (R216 to R226,
R231). -/

namespace Sys2Proof.Machine

open Sys2Proof.Claims

/-- Settles O8, by the register write of R144. -/
theorem wrDmc23StoresOnly : Obligations.WrDmc23StoresOnly :=
  fun _ _ => ⟨rfl, rfl⟩

/-- Settles O9: the fields of R216, then RECALC_IRQ. -/
theorem wrDmc0Reconfigures : Obligations.WrDmc0Reconfigures := by
  intro data s
  refine ⟨_, rfl, ?_⟩
  rw [dmcWrite0, recalcIrq_eq, predictIrq_eq]
  refine ⟨dmcPeriodRow_rate _ _, dmcIrqEnable_iff data, ?_, rfl, rfl, rfl⟩
  exact (Bool.and_eq_true _ _).to_iff

/-- Settles O10: the level and, in the linear mode, `last_amp`. -/
theorem wrDmc1SetsLevel : Obligations.WrDmc1SetsLevel := by
  intro data s
  refine ⟨_, rfl, ?_⟩
  rw [dmcWrite1_eq]
  refine ⟨dmcDacLoad_toNat data, ?_, rfl⟩
  rw [← dmcDacLoad_toNat]
  rfl

/-- Settles O26: FILL_BUFFER after the reload, with the buffer full or with the first byte read, then RECALC_IRQ. -/
theorem dmcStartResult : Obligations.DmcStartResult := by
  intro s hgo
  obtain ⟨m, hm⟩ := fillBuffer_reloadSample_goOn hgo
  have hbuffered := fillBuffer_reloadSample_bufFull hm
  have hkeep := fillBuffer_keeps (reloadSample s)
  rw [hm, Flow.state_goOn, hbuffered] at hkeep
  have henabled : m.dmc.irqEnabled = s.dmc.irqEnabled := by rw [hkeep]; rfl
  have hlength : (reloadSample s).dmc.base.lengthCounter = 16 * s.dmc.base.regs.r3.toNat + 1 := Regs.sampleLength_eq _
  have hcursor : (reloadSample s).dmc.address.toNat = 0x4000 + 64 * s.dmc.base.regs.r2.toNat := Regs.sampleStart_toNat _
  have hbyte := s.dmc.base.regs.r2.isLt
  obtain ⟨haddress, hbuf, hbufFull, hflag, hreads⟩ := recalcIrq_reader m
  have hframe : recalcIrq m = { s with
      memReads := m.memReads, notifications := (recalcIrq m).notifications
      dmc := { s.dmc with
        address := m.dmc.address, buf := m.dmc.buf, bufFull := true, irqFlag := m.dmc.irqFlag, nextIrq := predictIrq m.dmc
        base := { s.dmc.base with lengthCounter := m.dmc.base.lengthCounter } } } := by
    rw [recalcIrq_eq, hkeep]
    rfl
  refine ⟨_, exec_dmcStart_of_fillBuffer hm, ?_⟩
  rw [haddress, hbuf, hbufFull, hflag, hreads, recalcIrq_base, recalcIrq_nextIrq, predictedIrq_recalcIrq]
  refine ⟨fun hb => ?_, fun hb => ?_, hbuffered, by rw [← henabled, predictIrq_eq], ?_, hframe⟩
  · rw [fillBuffer_idle (s := reloadSample s) (.inl hb)] at hm
    cases hm
    exact ⟨hcursor, hlength, rfl, rfl, rfl⟩
  · obtain ⟨-, hread, hbyteRead⟩ := fillBuffer_fetches (s := reloadSample s) hb hm (by omega)
    rw [hcursor, ← Nat.add_assoc] at hread hbyteRead
    refine ⟨hread, hbyteRead, fun h3 => ?_, fun h3 hloop => ?_, fun h3 hloop => ?_⟩
    · obtain ⟨haddr, hlen, hkept, -⟩ := fillBuffer_reads_more (s := reloadSample s) hb hm (by omega)
      exact ⟨by omega, by omega, hkept⟩
    · obtain ⟨haddr, hlen, hkept, -⟩ := fillBuffer_reads_loop (s := reloadSample s) hb hm (by omega) hloop
      exact ⟨haddr, hlen.trans (show 16 * s.dmc.base.regs.r3.toNat + 1 = 1 by omega), hkept⟩
    · obtain ⟨haddr, hlen, hset, -⟩ := fillBuffer_reads_last (s := reloadSample s) hb hm (by omega) hloop
      exact ⟨by omega, hlen, hset⟩
  · rw [recalcIrq_notifications]
    rcases fillBuffer_reloadSample_end hm with ⟨hleft, hnotes, hnext⟩ | ⟨hnone, hnext, hnotes⟩
    · rw [if_neg hleft, hnotes, hnext]
    · rw [if_pos hnone, predictIrq_of_no_byte hnone, hnext, if_pos rfl, hnotes, List.append_nil]

/-- Settles O28: with no byte left RECALC_IRQ predicts nothing; the channels outside the channels column of R102. -/
theorem dmcStopResult : Obligations.DmcStopResult := by
  refine ⟨fun s => ?_, rejectedOn_of_not_allowed (by simp [channelAllowed]),
    rejectedOn_of_not_allowed (by simp [channelAllowed]), rejectedOn_of_not_allowed (by simp [channelAllowed]),
    rejectedOn_of_not_allowed (by simp [channelAllowed])⟩
  rw [exec, execDmcStop, recalcIrq_eq, predictIrq_of_no_byte rfl]
  simp only [@eq_comm _ none]
  rfl

/-- Settles O29, by the meaning of IRQACK and the channels column of R102. -/
theorem irqAckResult : Obligations.IrqAckResult :=
  ⟨fun _ => ⟨_, rfl, rfl, rfl, rfl⟩, rejectedOn_of_not_allowed (by simp [channelAllowed]),
    rejectedOn_of_not_allowed (by simp [channelAllowed]), rejectedOn_of_not_allowed (by simp [channelAllowed]),
    rejectedOn_of_not_allowed (by simp [channelAllowed])⟩

/-- Settles O60: the tables as written, and RESET's period. -/
theorem periodTables : Obligations.PeriodTables :=
  ⟨rfl, rfl, rfl, rfl, rfl, fun _ => ⟨_, rfl, rfl⟩⟩

/-- Settles O14: the unbinding parks the level, the windows keep it parked, the rebinding exchanges it back. -/
theorem rebindRestoresDmcLevel : Obligations.RebindRestoresDmcLevel := by
  intro s u windows ho h
  obtain ⟨v, hv, hrest⟩ := execAll_cons_eq_next h
  rw [exec_setOutDmc, if_neg (by simp [ho])] at hv
  cases hv
  obtain ⟨m, hm, hpaused, hamp, hout, hacc⟩ := execAll_runDmc_unbound_keeps rfl hrest
  obtain ⟨w, hw, hnil⟩ := execAll_cons_eq_next hm
  rw [exec_setOutDmc, if_neg (by simp [hout])] at hw
  cases hw
  cases hnil
  exact ⟨hpaused, hamp, rfl, hacc⟩

end Sys2Proof.Machine
end

section
/-! SUPPORT. RUN DMC by the edges of the unbound run: what its next state keeps, and the edges before the reload step, of one
cycle, and of a silent output unit (R227, R232). -/

namespace Sys2Proof.Machine

open Sys2Proof.Claims

/-! ### The next state of a RUN -/

/-- A RUN keeps what R227 does not list as written: its next state has the frame of its unbound edges and the old binding. -/
theorem afterRunDmc_frame {p n first : Nat} {s v : State} (hv : dmcEdges p n first s.unbind = .goOn v) (time endTime : Nat)
    (e : EdgeSet) (level : Nat → Int) : dmcRunFrame s (s.afterRunDmc v time endTime e level) := by
  obtain ⟨hrest, hregs, hwritten, -, hkept⟩ := unbound_edges_frame hv
  refine ⟨?_, hregs, hwritten, rfl, hkept⟩
  rw [hrest]
  rfl

/-- The last level of the edges is the level of the state they reach. -/
theorem dmcLevel_of_goOn {p n first : Nat} {u v : State} (hv : dmcEdges p n first u = .goOn v) :
    dmcLevel p first u n = (v.dmc.dac.toNat : Int) := by
  rw [dmcLevel, hv]
  rfl

/-- With a reader the edges of every window are all made (R281). -/
theorem unbound_edges_goOn {s : State} (hr : s.params.memReaderPresent = true) (p n first : Nat) :
    ∃ v, dmcEdges p n first s.unbind = .goOn v :=
  ⟨_, dmcEdges_goOn (s := s.unbind) hr p n first⟩

/-- A RUN that completes has a completing unbound run, and is given by it. -/
theorem exec_runDmc_eq_next {time endTime : Nat} {s t : State} (hlt : time < endTime)
    (h : exec (.runDmc time endTime) s = .next t) : ∃ v,
      dmcEdges s.dmc.period (edges time endTime s.dmc.base.delay s.dmc.period).count (time + s.dmc.base.delay) s.unbind =
        .goOn v ∧
      t = s.afterRunDmc v time endTime (edges time endTime s.dmc.base.delay s.dmc.period)
        (dmcLevel s.dmc.period (time + s.dmc.base.delay) s.unbind) := by
  have hrun := h
  rw [exec_runDmc hlt] at hrun
  obtain ⟨v, hv⟩ := runDmc_goOn_unbind (Flow.toResult_eq_next hrun)
  rw [exec_runDmc_afterRunDmc (s := s) hlt hv] at h
  cases h
  exact ⟨v, hv, rfl⟩

/-! ### Waveforms that agree up to the last edge -/

theorem waveAcc_congr (a : Accum) (ch : Channel) (time first p : Nat) (lastAmp : Int) {n : Nat} {l l' : Nat → Int}
    (h : ∀ k, k ≤ n → l' k = l k) : waveAcc a ch time first p n lastAmp l' = waveAcc a ch time first p n lastAmp l := by
  rw [waveAcc, waveAcc, waveLog_congr ch first p h, h 0 (Nat.zero_le n), h n (Nat.le_refl n)]

theorem waveBase_congr (b : Base) (carry : Nat) {n : Nat} {l l' : Nat → Int} (h : ∀ k, k ≤ n → l' k = l k) :
    waveBase b carry n l' = waveBase b carry n l := by
  rw [waveBase, waveBase, waveRises_congr h, h n (Nat.le_refl n)]

/-! ### Before the reload step -/

/-- Up to the reload step the levels of the unbound edges are those of the shift register (R227). -/
theorem dmcLevel_unbind_beforeReload {s : State} (p first : Nat) {k : Nat} (h : k ≤ s.dmc.bitsRemain) :
    dmcLevel p first s.unbind k = dmcLevels s.dmc k := by
  rw [dmcLevel_beforeReload (u := s.unbind) rfl p first h, dmcLevels_unbind]

/-- The shift register after `n` shifts, as a number (R227). -/
theorem ushiftRight_eq_ofNat (b : Byte) (n : Nat) : b >>> n = BitVec.ofNat 8 (b.toNat / 2 ^ n) := by
  apply BitVec.eq_of_toNat_eq
  have hle := Nat.div_le_self b.toNat (2 ^ n)
  have hlt := b.isLt
  rw [BitVec.toNat_ushiftRight, Nat.shiftRight_eq_div_pow, BitVec.toNat_ofNat, Nat.mod_eq_of_lt (by omega)]

/-- A window whose end the delay reaches has no edge and uses up the delay only (R142). -/
theorem edges_none {time endTime delay : Nat} (p : Nat) (hlt : time < endTime) (h : endTime ≤ time + delay) :
    (edges time endTime delay p).count = 0 ∧ (edges time endTime delay p).carry + (endTime - time) = delay := by
  have hcount : (edges time endTime delay p).count = 0 := if_pos h
  have hcarry := edges_carry_def time endTime delay p
  rw [hcount] at hcarry
  omega

/-! ### A silent output unit (R232) -/

/-- `bits_remain` after `n` silent edges. -/
def silentRemain (r n : Nat) : Nat := (r - 1 + 8 - n % 8) % 8 + 1

/-- The state with another `bits_remain`. -/
def State.withRemain (u : State) (r : Nat) : State := { u with dmc := { u.dmc with bitsRemain := r } }

/-- A silent edge with the buffer empty lowers `bits_remain` or wraps it to 8. -/
theorem dmcEdge_silent {u : State} (t : Nat) (hs : u.dmc.silence = true) (hb : u.dmc.bufFull = false) :
    dmcEdge t u = .goOn (u.withRemain (if u.dmc.bitsRemain - 1 = 0 then 8 else u.dmc.bitsRemain - 1)) := by
  have hshift : dmcShift t u = u := by rw [dmcShift, if_pos hs]
  rw [dmcEdge, hshift]
  by_cases hr : u.dmc.bitsRemain - 1 = 0
  · rw [dmcCount_empty hr hb, if_pos hr, ← hs]
    rfl
  · rw [dmcCount_tick hr, if_neg hr]
    rfl

/-- `n` silent edges with the buffer empty, whole: only `bits_remain` moves. -/
theorem dmcEdges_silent {u : State} (p n first : Nat) (hs : u.dmc.silence = true) (hb : u.dmc.bufFull = false)
    (h1 : 1 ≤ u.dmc.bitsRemain) (h8 : u.dmc.bitsRemain ≤ 8) :
    dmcEdges p n first u = .goOn (u.withRemain (silentRemain u.dmc.bitsRemain n)) := by
  induction n with
  | zero =>
    have hzero : silentRemain u.dmc.bitsRemain 0 = u.dmc.bitsRemain := by unfold silentRemain; omega
    rw [hzero]
    rfl
  | succ n ih =>
    have hstep : silentRemain u.dmc.bitsRemain (n + 1) =
        if silentRemain u.dmc.bitsRemain n - 1 = 0 then 8 else silentRemain u.dmc.bitsRemain n - 1 := by
      unfold silentRemain
      split <;> omega
    rw [dmcEdges_succ_right, ih, Flow.bind_goOn,
      dmcEdge_silent (u := u.withRemain (silentRemain u.dmc.bitsRemain n)) _ hs hb, hstep]
    rfl

/-- A level that does not move emits nothing. -/
theorem waveLog_of_const (ch : Channel) (first p n : Nat) {level : Nat → Int} (h : ∀ k, level k = level 0) :
    waveLog ch first p n level = [] := by
  induction n with
  | zero => rfl
  | succ n ih => rw [waveLog_succ, ih, h n, h (n + 1), deltaAt, if_pos rfl]; rfl

theorem waveLog_one (ch : Channel) (first p : Nat) (level : Nat → Int) :
    waveLog ch first p 1 level = deltaAt ch first (level 0) (level 1) := by simp [waveLog]

theorem waveRises_one (level : Nat → Int) : waveRises 1 level = decide (level 0 < level 1) := by simp [waveRises]

/-! ### One cycle with an edge in it -/

/-- A window of one cycle that starts at an edge holds that edge alone (R142). -/
theorem edges_one (time : Nat) {p : Nat} (hp : 1 ≤ p) :
    edges time (time + 1) 0 p = { first := time, period := p, count := 1, carry := p - 1 } := by
  have hcount : (edges time (time + 1) 0 p).count = 1 := by
    refine edges_count_eq hp fun k => ⟨fun hk => ?_, fun hk => ?_⟩
    · have hzero : k = 0 := by omega
      subst hzero
      omega
    · have := Nat.le_mul_of_pos_right k hp
      omega
  have hcarry : (edges time (time + 1) 0 p).carry = p - 1 := by
    rw [edges_carry_def, hcount]
    omega
  exact congrArg₂ (fun n d => { first := time, period := p, count := n, carry := d : EdgeSet }) hcount hcarry

/-- The unbound state after the shift of one edge, before its countdown (R227). -/
def State.shiftedOnce (u : State) : State := (u.shifted 1).withRemain u.dmc.bitsRemain

theorem dmcEdge_unbound {u : State} (hu : u.dmc.base.outEn = false) (t : Nat) : dmcEdge t u = dmcCount u.shiftedOnce := by
  have hshift := shifted_dmcShift hu t 0
  rw [State.shifted_zero] at hshift
  rw [dmcEdge, hshift]
  rfl

/-- The shift of an edge leaves the reader's side alone (R227). -/
theorem shiftedOnce_readerSame (s : State) : readerSame s s.unbind.shiftedOnce := ⟨rfl, rfl, rfl, rfl, rfl, rfl, rfl⟩

/-- The wave and the clock of a RUN leave the reader's side as the unbound edges left it, from `w` with the side of `s`. -/
theorem readerSame_afterRunDmc {s w v : State} (hw : readerSame s w) (h : readerSame w v) (time endTime : Nat) (e : EdgeSet)
    (level : Nat → Int) : readerSame s (s.afterRunDmc v time endTime e level) := by
  obtain ⟨haddr, hlen, hbuf, hflag, hnext, hreads, hnotes⟩ := hw
  obtain ⟨haddr', hlen', hbuf', hflag', hnext', hreads', hnotes'⟩ := h
  exact ⟨haddr'.trans haddr, hlen'.trans hlen, hbuf'.trans hbuf, hflag'.trans hflag, hnext'.trans hnext, hreads'.trans hreads,
    hnotes'.trans hnotes⟩

theorem dmcEdges_one (p t : Nat) (u : State) : dmcEdges p 1 t u = dmcEdge t u := Flow.bind_goOn_right _

/-- Away from a reload out of the buffer the countdown lowers `bits_remain` or wraps it and turns the unit silent. -/
theorem dmcCount_no_reload {u : State} (h1 : 1 ≤ u.dmc.bitsRemain) (h : u.dmc.bitsRemain ≠ 1 ∨ u.dmc.bufFull = false) :
    dmcCount u = .goOn { u with dmc := { u.dmc with
      bitsRemain := if u.dmc.bitsRemain = 1 then 8 else u.dmc.bitsRemain - 1
      silence := u.dmc.silence || decide (u.dmc.bitsRemain = 1) } } := by
  by_cases hr : u.dmc.bitsRemain = 1
  · rw [dmcCount_empty (by omega) (h.resolve_left (by simp [hr])), if_pos hr, decide_eq_true hr, Bool.or_true]
  · rw [dmcCount_tick (by omega), if_neg hr, decide_eq_false hr, Bool.or_false]

/-- What it leaves then: the shift register, the buffer and the reader's side. -/
theorem dmcCount_no_reload_keeps {u v : State} (h1 : 1 ≤ u.dmc.bitsRemain) (hno : u.dmc.bitsRemain ≠ 1 ∨ u.dmc.bufFull = false)
    (h : dmcCount u = .goOn v) : v.dmc.bits = u.dmc.bits ∧ v.dmc.bufFull = u.dmc.bufFull ∧
      v.dmc.silence = (u.dmc.silence || decide (u.dmc.bitsRemain = 1)) ∧ readerSame u v := by
  rw [dmcCount_no_reload h1 hno] at h
  cases h
  exact ⟨rfl, rfl, rfl, rfl, rfl, rfl, rfl, rfl, rfl, rfl⟩

/-- The reload step out of the buffer, whatever FILL_BUFFER then reads. -/
theorem dmcCount_reload_keeps {u v : State} (hr : u.dmc.bitsRemain = 1) (hb : u.dmc.bufFull = true) (h : dmcCount u = .goOn v) :
    fillBuffer u.reloaded = .goOn v ∧ v.dmc.bitsRemain = 8 ∧ v.dmc.bits = u.dmc.buf ∧ v.dmc.silence = false := by
  rw [dmcCount_full (by omega) hb] at h
  have hkeep := fillBuffer_keeps u.reloaded
  rw [h, Flow.state_goOn] at hkeep
  refine ⟨h, ?_⟩
  rw [hkeep]
  exact ⟨rfl, rfl, rfl⟩

/-- With no byte left the reload step empties the buffer and reads nothing. -/
theorem dmcCount_reload_idle {u v : State} (hr : u.dmc.bitsRemain = 1) (hb : u.dmc.bufFull = true)
    (h0 : u.dmc.base.lengthCounter = 0) (h : dmcCount u = .goOn v) : v.dmc.bufFull = false ∧ readerSame u v := by
  rw [dmcCount_full (by omega) hb, fillBuffer_idle (s := u.reloaded) (.inr h0)] at h
  cases h
  exact ⟨rfl, rfl, rfl, rfl, rfl, rfl, rfl, rfl⟩

/-- An edge takes the reload step out of the buffer, or it does not. -/
theorem reload_or_not (u : State) : (u.dmc.bitsRemain = 1 ∧ u.dmc.bufFull = true) ∨
    (u.dmc.bitsRemain ≠ 1 ∨ u.dmc.bufFull = false) := by
  cases u.dmc.bufFull
  · exact .inr (.inr rfl)
  · exact (em _).imp (fun hr => ⟨hr, rfl⟩) .inl

/-- The countdown goes on when a reader is there in case a byte is due (R281). -/
theorem dmcCount_goOn_of_due {u : State} (h1 : 1 ≤ u.dmc.bitsRemain)
    (h : u.dmc.bitsRemain = 1 → u.dmc.bufFull = true → 0 < u.dmc.base.lengthCounter → u.params.memReaderPresent = true) :
    ∃ v, dmcCount u = .goOn v := by
  rcases reload_or_not u with ⟨hr, hb⟩ | hno
  · rw [dmcCount_full (by omega) hb]
    by_cases hl : u.dmc.base.lengthCounter = 0
    · exact ⟨_, fillBuffer_idle (.inr hl)⟩
    · exact ⟨_, fillBuffer_goOn (s := u.reloaded) (h hr hb (by omega))⟩
  · exact ⟨_, dmcCount_no_reload h1 hno⟩

/-- `bits_remain` after the countdown. -/
theorem dmcCount_bitsRemain {u v : State} (h1 : 1 ≤ u.dmc.bitsRemain) (h : dmcCount u = .goOn v) :
    v.dmc.bitsRemain = if u.dmc.bitsRemain = 1 then 8 else u.dmc.bitsRemain - 1 := by
  rcases reload_or_not u with ⟨hr, hb⟩ | hno
  · obtain ⟨-, hremain, -⟩ := dmcCount_reload_keeps hr hb h
    rw [hremain, if_pos hr]
  · rw [dmcCount_no_reload h1 hno] at h
    cases h
    rfl

/-- A RUN over one cycle that starts at an edge: that edge of the unbound DMC, with its step of the level tracked (R227). -/
theorem exec_runDmc_one {s v : State} (time : Nat) (hp : 1 ≤ s.dmc.period) (h1 : 1 ≤ s.dmc.bitsRemain)
    (hdelay : s.dmc.base.delay = 0) (hv : dmcEdge time s.unbind = .goOn v) :
    exec (.runDmc time (time + 1)) s = .next (s.afterRunDmc v time (time + 1)
      { first := time, period := s.dmc.period, count := 1, carry := s.dmc.period - 1 } (dmcLevels s.dmc)) := by
  have hedges := edges_one time hp
  have hlevel : ∀ k, k ≤ 1 → dmcLevel s.dmc.period time s.unbind k = dmcLevels s.dmc k := fun k hk =>
    dmcLevel_unbind_beforeReload _ _ (Nat.le_trans hk h1)
  have hrun := exec_runDmc_afterRunDmc (s := s) (v := v) (Nat.lt_succ_self time) (by
    rw [hdelay, hedges, dmcEdges_one]; exact hv)
  rw [hrun, hdelay, hedges, State.afterRunDmc, State.afterRunDmc, Nat.add_zero, waveAcc_congr _ _ _ _ _ _ hlevel,
    waveBase_congr _ _ hlevel]

end Sys2Proof.Machine
end

section
/-! PROOF. The statements about RUN on the sample player (R227, R232). -/

namespace Sys2Proof.Machine

open Sys2Proof.Claims

/-- Settles O30, from the unbound run: bound, `last_amp` is its last level. -/
theorem runDmcCompletes : Obligations.RunDmcCompletes := by
  intro time endTime s hlt hr
  obtain ⟨v, hv⟩ := unbound_edges_goOn hr s.dmc.period (edges time endTime s.dmc.base.delay s.dmc.period).count
    (time + s.dmc.base.delay)
  refine ⟨_, exec_runDmc_afterRunDmc hlt hv, rfl, rfl, afterRunDmc_frame hv _ _ _ _, fun ho => ?_, fun ho => ⟨?_, ?_, ?_⟩⟩
  · exact (if_pos ho).trans (dmcLevel_of_goOn (v := v) hv)
  · exact if_neg (by simp [ho])
  · exact if_neg (by simp [ho])
  · show (s.dmc.base.outEn && _) = false
    rw [ho]
    rfl

/-- Settles O59: the unbound edges shift one bit each, and the levels they go through are those of the shift register. -/
theorem runDmcBeforeReload : Obligations.RunDmcBeforeReload := by
  intro time endTime s hlt hn
  refine ⟨_, _, rfl, rfl, edges_none _ hlt, ?_⟩
  have hlevel : ∀ k, k ≤ (edges time endTime s.dmc.base.delay s.dmc.period).count →
      dmcLevel s.dmc.period (time + s.dmc.base.delay) s.unbind k = dmcLevels s.dmc k := fun k hk =>
    dmcLevel_unbind_beforeReload _ _ (Nat.le_trans hk (Nat.le_of_lt hn))
  rw [exec_runDmc_afterRunDmc hlt (dmcEdges_beforeReload rfl _ _ hn), State.afterRunDmc, waveAcc_congr _ _ _ _ _ _ hlevel,
    waveBase_congr _ _ hlevel, ← ushiftRight_eq_ofNat, ← dacAfter_unbind]
  rfl

/-- Settles O33: a silent unit with the buffer empty only counts, so that its level emits nothing after the synchronisation. -/
theorem silentDmcBatching : Obligations.SilentDmcBatching := by
  intro time endTime s hlt hs hb h1 h8
  have hedges := fun n => dmcEdges_silent (u := s.unbind) s.dmc.period n (time + s.dmc.base.delay) hs hb h1 h8
  have hconst : ∀ k, dmcLevel s.dmc.period (time + s.dmc.base.delay) s.unbind k =
      dmcLevel s.dmc.period (time + s.dmc.base.delay) s.unbind 0 := fun k =>
    dmcLevel_of_goOn (v := s.unbind.withRemain (silentRemain s.dmc.bitsRemain k)) (hedges k)
  refine ⟨_, _, rfl, exec_runDmc_afterRunDmc hlt (hedges _), rfl, rfl, rfl, hs, hb, ⟨rfl, rfl, rfl, rfl, rfl, rfl, rfl⟩, ?_,
    afterRunDmc_frame (hedges _) _ _ _ _⟩
  refine (waveAcc_log _ _ _ _ _ _ _ _ _).trans ?_
  rw [waveLog_of_const _ _ _ _ hconst, List.append_nil]
  rfl

/-- Settles O31: the shift of the edge, then the countdown and, out of the buffer, the reload step with its read. -/
theorem runDmcOneEdge : Obligations.RunDmcOneEdge := by
  intro time s hreader hp h1 hdelay
  obtain ⟨v, hv⟩ := dmcCount_goOn_of_due (u := s.unbind.shiftedOnce) h1 hreader
  have hedge : dmcEdge time s.unbind = .goOn v := (dmcEdge_unbound rfl time).trans hv
  have hedges := (dmcEdges_one s.dmc.period time s.unbind).trans hedge
  have hlevel : (v.dmc.dac.toNat : Int) = dmcLevels s.dmc 1 := by
    rw [← dmcLevel_of_goOn hedges, dmcLevel_unbind_beforeReload _ _ h1]
  have hempty : s.unbind.shiftedOnce.reloaded.dmc.bufFull = false := rfl
  have hremain := dmcCount_bitsRemain (u := s.unbind.shiftedOnce) h1 hv
  refine ⟨_, exec_runDmc_one time hp h1 hdelay hedge, afterRunDmc_frame hedges _ _ _ _, rfl, rfl, Int.ofNat_inj.mp hlevel, ?_,
    ?_, hremain, fun hno => ?_, fun hr hb => ?_, fun hr hb h0 => ?_, fun hr hb hpos => ?_⟩
  · simp only [State.afterRunDmc, waveAcc, waveLog_one, ← hlevel]
    rfl
  · show (s.dmc.base.outEn && waveRises 1 (dmcLevels s.dmc)) = _
    rw [waveRises_one, ← hlevel]
    exact congrArg _ (decide_eq_decide.mpr Int.ofNat_lt)
  · obtain ⟨hbits, hfull, hsilence, hsame⟩ := dmcCount_no_reload_keeps (u := s.unbind.shiftedOnce) h1 hno hv
    refine ⟨hbits.trans ?_, hfull, hsilence, readerSame_afterRunDmc (shiftedOnce_readerSame s) hsame _ _ _ _⟩
    exact congrArg (fun b => if s.dmc.silence = true then s.dmc.bits else b) (ushiftRight_eq_ofNat s.dmc.bits 1)
  · obtain ⟨-, -, hbits, hsilence⟩ := dmcCount_reload_keeps (u := s.unbind.shiftedOnce) hr hb hv
    exact ⟨hbits, hsilence⟩
  · obtain ⟨hempty, hsame⟩ := dmcCount_reload_idle (u := s.unbind.shiftedOnce) hr hb h0 hv
    exact ⟨hempty, readerSame_afterRunDmc (shiftedOnce_readerSame s) hsame _ _ _ _⟩
  · obtain ⟨hfill, -⟩ := dmcCount_reload_keeps (u := s.unbind.shiftedOnce) hr hb hv
    obtain ⟨hfull, hreads, hbuf⟩ := fillBuffer_fetches hempty hfill hpos
    have hmore := fillBuffer_reads_more hempty hfill
    have hloop := fillBuffer_reads_loop hempty hfill
    have hlast := fillBuffer_reads_last hempty hfill
    exact ⟨hfull, hreads, hbuf, hmore, hloop, hlast⟩

end Sys2Proof.Machine
end

section
/-! SUPPORT. When the sample player reads and when its sample ends, on the clock of a RUN (R222, R223, R228, R229): the reload
edges as times, and what the unbound edges of a RUN from `last_time` leave. -/

namespace Sys2Proof.Machine

open Sys2Proof.Claims

/-! ### Reload edges as times -/

/-- The `L`-th reload edge is inside the window exactly when its time is (R223). -/
theorem le_reloads_edges_iff {time endTime delay p r L : Nat} (hp : 1 ≤ p) (hr : 1 ≤ r) (hL : 0 < L) :
    L ≤ reloads r (edges time endTime delay p).count ↔ time + delay + ((L - 1) * 8 + r - 1) * p < endTime := by
  rw [reloads_iff _ _ _ hL, ← edges_lt_iff time endTime delay hp]
  omega

/-- The reload edges of a window in closed form, `first` the time of the first (R229). -/
theorem reloads_edges_eq {time endTime delay p r : Nat} (hp : 1 ≤ p) (hr : 1 ≤ r) :
    reloads r (edges time endTime delay p).count =
      if endTime ≤ time + delay + (r - 1) * p then 0 else (endTime - (time + delay + (r - 1) * p) - 1) / (8 * p) + 1 := by
  have hiff : ∀ k, k + 1 ≤ reloads r (edges time endTime delay p).count ↔
      time + delay + (r - 1) * p + k * (8 * p) < endTime := by
    intro k
    have hmul : ((k + 1 - 1) * 8 + r - 1) * p = (r - 1) * p + k * (8 * p) := by
      rw [show (k + 1 - 1) * 8 + r - 1 = (r - 1) + k * 8 by omega]
      ring
    rw [le_reloads_edges_iff hp hr (Nat.succ_pos k), hmul, ← Nat.add_assoc]
  generalize time + delay + (r - 1) * p = first at *
  refine eq_of_forall_le_iff fun c => ?_
  cases c with
  | zero => simp
  | succ k =>
    rw [hiff]
    split
    case isTrue hle => omega
    case isFalse hlt =>
      rw [Nat.add_le_add_iff_right, Nat.le_div_iff_mul_le (by omega)]
      omega

/-- While bytes are left, the edges made and those to the last byte's reload edge are those that were to make (R223). -/
theorem edges_to_last_byte {r n L : Nat} (h1 : 1 ≤ r) (h8 : r ≤ 8) (hq : reloads r n < L) :
    (L - reloads r n - 1) * 8 + ((r + 7 - n % 8) % 8 + 1) - 1 + n = (L - 1) * 8 + r - 1 := by
  unfold reloads at *
  omega

/-- The predicted time is reached exactly when the last byte's reload edge is inside the window (R223). -/
theorem predictedIrq_le_iff {c : Dmc} {endTime : Nat} (hp : 1 ≤ c.period) (hr : 1 ≤ c.bitsRemain)
    (hL : 0 < c.base.lengthCounter) :
    predictedIrq c ≤ endTime ↔
      c.base.lengthCounter ≤ reloads c.bitsRemain (edges c.lastTime endTime c.base.delay c.period).count := by
  rw [le_reloads_edges_iff hp hr hL, predictedIrq]
  exact Nat.succ_le_iff

/-! ### What the unbound edges of a RUN leave -/

/-- An enabled interrupt and a looping sample exclude each other (R216). -/
theorem inv_irqEnabled_loop {s : State} (hs : s.Inv) (hen : s.dmc.irqEnabled = true) : dmcLoop s.dmc.base.regs.r0 = false := by
  obtain ⟨-, -, henable, -⟩ := hs.dmc
  rw [henable, dmcIrqEnable, Bool.and_eq_true] at hen
  simpa using hen.2

/-- The unbound edges of a sample with its interrupt enabled: one byte for each reload edge; before the last byte's the sample does
not end, from it on the flag is set (R220, R223). -/
theorem unbound_edges_sample {s v : State} {p n first : Nat} (hs : s.Inv) (hv : dmcEdges p n first s.unbind = .goOn v)
    (hen : s.dmc.irqEnabled = true) :
    v.dmc.bitsRemain = (s.dmc.bitsRemain + 7 - n % 8) % 8 + 1 ∧
      v.dmc.base.lengthCounter = s.dmc.base.lengthCounter - reloads s.dmc.bitsRemain n ∧
      (reloads s.dmc.bitsRemain n < s.dmc.base.lengthCounter →
        v.dmc.irqFlag = s.dmc.irqFlag ∧ v.dmc.nextIrq = s.dmc.nextIrq ∧ v.notifications = s.notifications) ∧
      (0 < s.dmc.base.lengthCounter → s.dmc.base.lengthCounter ≤ reloads s.dmc.bitsRemain n → v.dmc.irqFlag = true) := by
  obtain ⟨⟨h1, h8⟩, -⟩ := hs.dmc
  have hview := dmcEdges_view (s := s.unbind.withReader) p n first rfl h1 h8 hs.reader.1
  rw [dmcEdges_withReader hv] at hview
  obtain ⟨hbits, -, -, hsample⟩ := hview
  obtain ⟨hlen, -, hquiet, hend⟩ := hsample (.inl (inv_irqEnabled_loop (s := s) hs hen))
  refine ⟨hbits, hlen, fun hq => hquiet (.inl hq), fun hL hq => ?_⟩
  obtain ⟨hflag, -⟩ := hend hL hq
  exact hflag.trans (Bool.or_eq_true_iff.mpr (.inr hen))

/-- The reads of `n` unbound edges with a reader: one at each reload edge while bytes are left (R229). -/
theorem unbound_edges_reads {s : State} (hs : s.Inv) (p n first : Nat) :
    (dmcEdges p n first s.withReader.unbind).state.memReads.length = s.memReads.length +
      (if s.dmc.base.lengthCounter = 0 then 0
       else if bit s.dmc.base.regs.r0 6 = 0 then min (reloads s.dmc.bitsRemain n) s.dmc.base.lengthCounter
       else reloads s.dmc.bitsRemain n) := by
  obtain ⟨⟨h1, h8⟩, -⟩ := hs.dmc
  obtain ⟨-, -, hlooping, hsample⟩ := dmcEdges_view (s := s.withReader.unbind) p n first rfl h1 h8 hs.reader.1
  obtain ⟨-, hnoloop⟩ := dmcLoop_iff s.dmc.base.regs.r0
  by_cases hL : s.dmc.base.lengthCounter = 0
  · obtain ⟨-, hreads, -⟩ := hsample (.inr hL)
    rw [if_pos hL, hreads]
    show _ + min _ s.dmc.base.lengthCounter = _
    rw [hL, Nat.min_zero]
    rfl
  · rw [if_neg hL]
    cases hloop : dmcLoop s.dmc.base.regs.r0
    · obtain ⟨-, hreads, -⟩ := hsample (.inl hloop)
      rw [if_pos (hnoloop.mp hloop)]
      exact hreads
    · obtain ⟨-, hreads, -⟩ := hlooping hloop (Nat.pos_of_ne_zero hL)
      rw [if_neg (mt hnoloop.mpr (by simp [hloop]))]
      exact hreads

end Sys2Proof.Machine
end

section
/-! PROOF. The statements about the interrupt schedule and the read-count query (R222, R223, R228, R229). -/

namespace Sys2Proof.Machine

open Sys2Proof.Claims

/-- Settles O34: the flag rises at the last byte's reload edge, which is inside the window from the predicted time on. -/
theorem nextIrqIsLeastEndTime : Obligations.NextIrqIsLeastEndTime := by
  intro s irq endTime hs hr hnext hirq hflag hle
  obtain ⟨hen, hL⟩ := hs.reader.2.mp (by rw [hnext]; rfl)
  obtain ⟨⟨h1, -⟩, -⟩ := hs.dmc
  obtain ⟨hp, -⟩ := inv_dmc_period hs
  have hiff := predictedIrq_le_iff (endTime := endTime) hp h1 hL
  rw [← hirq] at hiff
  rcases Nat.eq_or_lt_of_le hle with heq | hlt
  · subst heq
    refine ⟨s, exec_runOf_empty (ch := .dmc), ?_⟩
    rw [hflag, hirq, predictedIrq]
    exact iff_of_false Bool.false_ne_true (by omega)
  · obtain ⟨v, hv⟩ := unbound_edges_goOn hr s.dmc.period (edges s.dmc.lastTime endTime s.dmc.base.delay s.dmc.period).count
      (s.dmc.lastTime + s.dmc.base.delay)
    obtain ⟨-, -, hquiet, hend⟩ := unbound_edges_sample hs hv hen
    refine ⟨_, exec_runDmc_afterRunDmc hlt hv, ?_⟩
    show v.dmc.irqFlag = true ↔ _
    rw [hiff]
    by_cases hq : s.dmc.base.lengthCounter ≤
        reloads s.dmc.bitsRemain (edges s.dmc.lastTime endTime s.dmc.base.delay s.dmc.period).count
    · exact iff_of_true (hend hL hq) hq
    · obtain ⟨hkept, -⟩ := hquiet (Nat.lt_of_not_le hq)
      exact iff_of_false (by rw [hkept, hflag]; decide) hq

/-- Settles O35: short of the predicted time every edge made is one edge less to make. -/
theorem runKeepsPrediction : Obligations.RunKeepsPrediction := by
  intro s t irq endTime hs hnext hirq hle hshort h
  obtain ⟨hen, hL⟩ := hs.reader.2.mp (by rw [hnext]; rfl)
  obtain ⟨⟨h1, h8⟩, -⟩ := hs.dmc
  obtain ⟨hp, -⟩ := inv_dmc_period hs
  rcases Nat.eq_or_lt_of_le hle with heq | hlt
  · subst heq
    have hsame := h.symm.trans (exec_runOf_empty (ch := .dmc))
    cases hsame
    exact ⟨hnext, hirq.symm, rfl⟩
  · obtain ⟨v, hv, rfl⟩ := exec_runDmc_eq_next hlt h
    have hq := (predictedIrq_le_iff (endTime := endTime) hp h1 hL).not.mp (by omega)
    obtain ⟨hbits, hlen, hquiet, -⟩ := unbound_edges_sample hs hv hen
    obtain ⟨-, hnext', hnotes⟩ := hquiet (Nat.lt_of_not_le hq)
    obtain ⟨-, -, -, -, hperiod, -⟩ := unbound_edges_frame hv
    have hcarry := edges_carry s.dmc.lastTime endTime s.dmc.base.delay hp
    have hleft := congrArg (· * s.dmc.period) (edges_to_last_byte h1 h8 (Nat.lt_of_not_le hq))
    simp only [Nat.add_mul _ _ s.dmc.period] at hleft
    refine ⟨hnext'.trans hnext, ?_, hnotes⟩
    show endTime + (edges s.dmc.lastTime endTime s.dmc.base.delay s.dmc.period).carry +
      ((v.dmc.base.lengthCounter - 1) * 8 + v.dmc.bitsRemain - 1) * v.dmc.period + 1 = _
    rw [hlen, hbits, show v.dmc.period = s.dmc.period from hperiod, hirq, predictedIrq, ← hleft]
    omega

/-- Settles O36: CNTRD counts the reads of the unbound edges, one at each reload edge while bytes are left. -/
theorem countReadsClosedForm : Obligations.CountReadsClosedForm := by
  intro s t hs
  refine ⟨_, _, rfl, rfl, ?_⟩
  obtain ⟨⟨h1, -⟩, -⟩ := hs.dmc
  obtain ⟨hp, -⟩ := inv_dmc_period hs
  show Host.Outcome.next { s with respCount := readsBy t s } = _
  rw [readsBy_eq, unbound_edges_reads hs, reloads_edges_eq hp h1, Nat.add_sub_cancel_left]
  congr 2
  by_cases hL : s.dmc.base.lengthCounter = 0
  · simp [hL]
  by_cases hf : t ≤ s.dmc.lastTime + s.dmc.base.delay + (s.dmc.bitsRemain - 1) * s.dmc.period
  · simp [hf]
  · have hlast : ¬t ≤ s.dmc.lastTime := by omega
    simp [hL, hf, hlast]

/-- Settles O37: a run that completes makes the same edges on CNTRD's copy with a reader; the channels outside the channels
column of R102. -/
theorem cntRdCountsTheReadsOfARun : Obligations.CntRdCountsTheReadsOfARun := by
  refine ⟨fun s t => ⟨readsBy t s, rfl, fun hle => if_pos hle, fun u hlt h => ?_⟩,
    rejectedOn_of_not_allowed (by simp [channelAllowed]), rejectedOn_of_not_allowed (by simp [channelAllowed]),
    rejectedOn_of_not_allowed (by simp [channelAllowed]), rejectedOn_of_not_allowed (by simp [channelAllowed])⟩
  obtain ⟨v, hv, rfl⟩ := exec_runDmc_eq_next hlt h
  have hcopy := dmcEdges_withReader hv
  obtain ⟨-, new, hnew⟩ := dmcEdges_adds s.dmc.period (edges s.dmc.lastTime t s.dmc.base.delay s.dmc.period).count
    (s.dmc.lastTime + s.dmc.base.delay) s.unbind
  rw [hv] at hnew
  have hlen : v.memReads.length = s.memReads.length + new.length := (congrArg List.length hnew).trans List.length_append
  rw [readsBy_eq, if_neg (by omega)]
  show v.memReads.length = _ + ((dmcEdges _ _ _ s.unbind.withReader).state.memReads.length - _)
  rw [hcopy]
  show v.memReads.length = _ + (v.memReads.length - _)
  omega

end Sys2Proof.Machine
end

section
/-! SUPPORT. The noise channel's mode, level and shift in the words of the statements (R106, R251, R254). -/

namespace Sys2Proof.Machine

open Sys2Proof.Claims

/-- `mode` is bit 7 of register 2 (R106). -/
theorem Regs.noiseMode_eq (r : Regs) : r.noiseMode = decide (bit r.r2 7 = 1) := by
  simp [Regs.noiseMode, bit_eq]

/-- The level is 0 when bit 0 of the register is set, else the volume (R254). -/
theorem noiseAmp_eq (n : BitVec 15) (vol : Nat) : noiseAmp n vol = if bit n 0 = 1 then 0 else (vol : Int) := by
  simp [noiseAmp, bit_eq]

/-- The XOR of two bits is their sum modulo 2. -/
theorem xor_toNat (a b : Bool) : (Bool.xor a b).toNat = (a.toNat + b.toNat) % 2 := by
  cases a <;> cases b <;> rfl

/-- The tap is bit 6 in the short mode, else bit 1 (R251). -/
theorem noise_tap_eq (n : BitVec 15) (mode : Bool) :
    (if mode then n.getLsbD 6 else n.getLsbD 1) = n.getLsbD (if mode then 6 else 1) := by
  cases mode <;> rfl

end Sys2Proof.Machine
end

section
/-! PROOF. The statements about the noise channel: the shift of its register (R251) and RUN (R253). -/

namespace Sys2Proof.Machine

open Sys2Proof.Claims

/-- Settles O24: the bit shifted in is the XOR of bit 0 and the tap, a sum modulo 2. -/
theorem lfsrStepShifts : Obligations.LfsrStepShifts := by
  intro noise mode
  rw [bit_eq, bit_eq, ← xor_toNat, ← noise_tap_eq]
  exact noise_shift_in noise _

/-- Settles O25: RUN on a noise channel whose `trigger` was cleared, its period an entry of its row, its mode and its levels in the
words of R106 and R254. -/
theorem runNoiResult : Obligations.RunNoiResult := by
  intro time endTime s hlt
  refine ⟨_, _, noiseAfter s.noi.noise (decide (bit s.noi.base.regs.r2 7 = 1)), _,
    noisePeriodRow_index s.params.palNoi s.noi.base.regs, rfl, rfl, fun _ => rfl, rfl, ?_⟩
  simp only [← noiseAmp_eq, ← Regs.noiseMode_eq]
  rw [exec_runNoi_next hlt, State.clearTrigger_noi, State.setNoi_setNoi, runNoise_eq _ _ _ (s.setNoi s.noi.untriggered).noi _ rfl]
  rfl

end Sys2Proof.Machine
end

section
/-! PROOF. The statements about the accumulator's read side and its time conversions (R265 to R269). -/

namespace Sys2Proof.Machine

open Sys2Proof.Claims

/-- At and after everything emitted the time test of `Level(t)` lets the whole log through (R269). -/
theorem Accum.level_of_time_le {a : Accum} {t : Nat} (h : ∀ e ∈ a.log, e.time ≤ t) : a.level t = sumDeltas a.log := by
  rw [Accum.level, List.filter_eq_self.mpr fun e he => decide_eq_true (h e he)]

/-- At and after everything emitted only the channel test of `Level(ch, t)` is left (R269). -/
theorem Accum.levelOf_of_time_le {a : Accum} {t : Nat} (h : ∀ e ∈ a.log, e.time ≤ t) (ch : Channel) :
    a.levelOf ch t = channelSum ch a.log := by
  rw [Accum.levelOf, channelSum, List.filter_congr fun e he => by rw [decide_eq_true (h e he), Bool.and_true]]

/-- Settles O57: the time test falls away, the balance gives the total, and the log is its five channels' logs put together. -/
theorem levelIsRunningSum : Obligations.LevelIsRunningSum := by
  intro s t ⟨hsum, _⟩ ht
  refine ⟨(Accum.level_of_time_le ht).trans hsum.symm, Accum.levelOf_of_time_le ht, ?_⟩
  simp only [Accum.levelOf_of_time_le ht]
  exact hsum.trans (sumDeltas_channels s.acc.log)

/-- Settles O56: a conversion scales and offsets the time, a duration is only scaled, so the law is distributivity with the
offset counted once. -/
theorem resampledTimeLaw : Obligations.ResampledTimeLaw := by
  intro t n
  rw [resampledTime, resampledTime, resampledDuration, Nat.add_mul, Nat.add_right_comm]

end Sys2Proof.Machine
end

section
/-! SUPPORT. The commands a faulted block ignores, where a command without a reader stops, and that no other command does (R280,
R281, R283). -/

namespace Sys2Proof.Machine

open Sys2Proof.Claims

/-! ### A faulted block (R283) -/

/-- A faulted block only takes the next command from the port, if there is one. -/
theorem step_of_faulted {s : State} (hf : s.faulted = true) : step s = .next { s with pending := s.pending.drop 1 } := by
  unfold step
  split
  · next hp => rw [hp, List.drop_nil, ← hp]
  · next c rest hp => simp [admission, hf, hp]

/-- A run whose first step completes goes on from there. -/
theorem core_run_succ {M : Host.Core} {s t : M.State} (h : M.step s = .next t) (k : Nat) : M.run (k + 1) s = M.run k t := by
  rw [Host.Core.run, h]

/-! ### DMCSTART without a reader (R224, R281) -/

/-- With a byte due and no reader DMCSTART stops at the read, after the reload. -/
theorem exec_dmcStart_fatal {s : State} (hr : s.params.memReaderPresent = false) (hb : s.dmc.bufFull = false) :
    exec .dmcStart s = raiseFatal (reloadSample s) := by
  rw [exec, execDmcStart, fillBuffer_fatal (s := reloadSample s) hb (Nat.succ_pos _) hr]
  rfl

/-! ### RUN DMC without a reader (R227, R281) -/

/-- A flow that stopped did so in its first part, if the second part never stops. -/
theorem Flow.bind_eq_fatal {f : Flow} {g : State → State} {m : State} (h : (f.bind fun s => .goOn (g s)) = .fatal m) :
    f = .fatal m := by
  cases f with
  | goOn s => cases h
  | fatal s => exact h

/-- Edges that stop keep whatever later edges there were to make from being made. -/
theorem dmcEdges_fatal_add {p m first : Nat} {u v : State} (h : dmcEdges p m first u = .fatal v) (n : Nat) :
    dmcEdges p (m + n) first u = .fatal v := by
  rw [dmcEdges_add, h]
  rfl

/-- The base state after the synchronisation of a window, tracked on over its edges, is that of the wave. -/
theorem levelBase_sync (b : Base) (n : Nat) (level : Nat → Int) :
    levelBase { b with trigger := false, lastAmp := if b.outEn = true then level 0 else b.lastAmp } n level =
      waveBase b b.delay n level := by
  cases ho : b.outEn <;> simp [levelBase, waveBase, ho]

/-- The accumulator after the synchronisation of a window, carried on over its edges, is that of the wave. -/
theorem levelAcc_sync (b : Base) (a : Accum) (time first p n : Nat) (level : Nat → Int) :
    levelAcc b
        (if b.outEn = true then ⟨a.log ++ deltaAt .dmc time b.lastAmp (level 0), a.sum + (level 0 - b.lastAmp)⟩ else a)
        first p n level =
      if b.outEn = true then waveAcc a .dmc time first p n b.lastAmp level else a := by
  cases ho : b.outEn
  · simp [levelAcc, ho]
  · simp [levelAcc, waveAcc, ho]
    omega

/-- Without a reader, with bytes left and the buffer full, the edges of a tracked channel stop at the reload step as the unbound
ones do, with the waveform of the level emitted (R281). -/
theorem dmcEdges_withWave_noReader {u : State} {b : Base} {a : Accum} (hu : u.dmc.base.outEn = false)
    (tracked : b.outEn = true → b.lastAmp = (u.dmc.dac.toNat : Int)) (p first : Nat) (h1 : 1 ≤ u.dmc.bitsRemain)
    (hr : u.params.memReaderPresent = false) (hb : u.dmc.bufFull = true) (hl : 0 < u.dmc.base.lengthCounter) :
    dmcEdges p u.dmc.bitsRemain first (u.withWave b a) = .fatal ((u.shifted u.dmc.bitsRemain).reloaded.withWave
      (levelBase b u.dmc.bitsRemain (dmcLevel p first u)) (levelAcc b a first p u.dmc.bitsRemain (dmcLevel p first u))) := by
  have hstop := dmcEdges_noReader hu p first h1 hr hb hl
  obtain ⟨r, hn⟩ : ∃ r, u.dmc.bitsRemain = r + 1 := ⟨u.dmc.bitsRemain - 1, by omega⟩
  have hbefore := dmcEdges_beforeReload hu p first (show r < u.dmc.bitsRemain by omega)
  rw [hn] at hstop ⊢
  rw [dmcEdges_withWave_next hu hbefore (dmcEdges_withWave b a hu tracked hbefore), hstop]
  rfl

/-- The state a RUN DMC without a reader stops in at its first reload step, before the read: the level synchronised at `time`, the
edges up to that step made and tracked, the shift register reloaded (R281). -/
def State.stoppedRunDmc (s : State) (time : Nat) : State :=
  (s.unbind.shifted s.dmc.bitsRemain).reloaded.withWave
    (waveBase s.dmc.base s.dmc.base.delay s.dmc.bitsRemain (dmcLevels s.dmc))
    (if s.dmc.base.outEn = true then
      waveAcc s.acc .dmc time (time + s.dmc.base.delay) s.dmc.period s.dmc.bitsRemain s.dmc.base.lastAmp (dmcLevels s.dmc)
    else s.acc)

section
variable {s : State} (h1 : 1 ≤ s.dmc.bitsRemain) (hr : s.params.memReaderPresent = false) (hb : s.dmc.bufFull = true)
  (hl : 0 < s.dmc.base.lengthCounter)
include h1 hr hb hl

/-- The synchronisation and the edges up to the first reload step, from cleared `trigger` (R141, R227). -/
theorem dmcEdges_sync_noReader (time : Nat) :
    dmcEdges s.dmc.period s.dmc.bitsRemain (time + s.dmc.base.delay) (dmcSync time (s.clearTrigger .dmc)) =
      .fatal (s.stoppedRunDmc time) := by
  have hlevel : ∀ k, k ≤ s.dmc.bitsRemain → dmcLevel s.dmc.period (time + s.dmc.base.delay) s.unbind k = dmcLevels s.dmc k :=
    fun k hk => dmcLevel_unbind_beforeReload _ _ hk
  rw [dmcSync_unbind]
  refine (dmcEdges_withWave_noReader (u := s.unbind) rfl (fun ho => if_pos ho) _ _ h1 hr hb hl).trans ?_
  rw [State.stoppedRunDmc, ← waveBase_congr _ _ hlevel, ← waveAcc_congr _ _ _ _ _ _ hlevel, ← levelBase_sync,
    ← levelAcc_sync s.dmc.base]
  rfl

/-- RUN DMC without a reader, with its first reload step inside the window (R281). -/
theorem exec_runDmc_noReader {time endTime : Nat} (hp : 1 ≤ s.dmc.period)
    (hin : time + s.dmc.base.delay + (s.dmc.bitsRemain - 1) * s.dmc.period < endTime) :
    exec (.runDmc time endTime) s = raiseFatal (s.stoppedRunDmc time) := by
  have hcount := (edges_lt_iff time endTime s.dmc.base.delay hp _).mpr hin
  obtain ⟨n, hn⟩ : ∃ n, (edges time endTime s.dmc.base.delay s.dmc.period).count = s.dmc.bitsRemain + n :=
    ⟨_, (Nat.add_sub_of_le (by omega)).symm⟩
  have hstop := dmcEdges_fatal_add (dmcEdges_sync_noReader h1 hr hb hl time) n
  rw [← hn] at hstop
  rw [exec_runDmc (by omega), runDmc]
  refine congrArg Flow.toResult (?_ : _ = Flow.fatal (s.stoppedRunDmc time))
  exact congrArg (Flow.bind · _) hstop

end

/-! ### Every command completes, or stops for want of a reader (R280, R281) -/

/-- The fatal fault with the state `t`, raised from `s` (R281): no reader, no byte read, `faulted` set, and no other channel and no
parameter changed. -/
structure StopsForReader (s t : State) : Prop where
  noReader : s.params.memReaderPresent = false
  faulted : t.faulted = true
  reads : t.memReads = s.memReads
  others : othersSame .dmc s t
  params : t.params = s.params

/-- DMCSTART completes, or stops at the read of its first byte (R224, R281). -/
theorem exec_dmcStart_outcome (s : State) : (∃ t, exec .dmcStart s = .next t) ∨
    ∃ t, exec .dmcStart s = .fault (.noMemReader t) ∧ StopsForReader s t := by
  by_cases hgo : s.params.memReaderPresent = true ∨ s.dmc.bufFull = true
  · obtain ⟨m, hm⟩ := fillBuffer_reloadSample_goOn hgo
    exact .inl ⟨_, exec_dmcStart_of_fillBuffer hm⟩
  · obtain ⟨hr, hb⟩ := not_or.mp hgo
    simp only [Bool.not_eq_true] at hr hb
    exact .inr ⟨_, exec_dmcStart_fatal hr hb, hr, rfl, rfl, by simp [othersSame, reloadSample], rfl⟩

/-- RUN DMC completes, or stops at a read (R227, R281). -/
theorem exec_runDmc_outcome (time endTime : Nat) (s : State) : (∃ t, exec (.runDmc time endTime) s = .next t) ∨
    ∃ t, exec (.runDmc time endTime) s = .fault (.noMemReader t) ∧ StopsForReader s t := by
  rcases window_cases time endTime with hw | rfl | hw
  · exact .inl ⟨_, exec_runOf_reversed (ch := .dmc) hw⟩
  · exact .inl ⟨_, exec_runOf_empty (ch := .dmc)⟩
  rw [exec_runDmc hw]
  rcases toResult_cases (runDmc time endTime (s.clearTrigger .dmc)) with ⟨t, -, ht⟩ | ⟨m, hm, ht⟩
  · exact .inl ⟨t, ht⟩
  · have hframe := runDmc_frame time endTime (s.clearTrigger .dmc)
    rw [hm] at hframe
    obtain ⟨⟨hsq1, hsq2, htri, hnoi, -⟩, hparams, -⟩ := frame_othersSame hframe
    obtain ⟨hr, hreads⟩ := dmcEdges_fatal (Flow.bind_eq_fatal hm)
    rw [dmcSync_eq] at hr hreads
    exact .inr ⟨_, ht, hr, rfl, hreads, ⟨hsq1, hsq2, htri, hnoi, fun hne => absurd rfl hne⟩, hparams⟩

end Sys2Proof.Machine
end

section
/-! SUPPORT. What a command can do to the interrupt flag and to the notifications, said once (R285, R287 to R289). -/

namespace Sys2Proof.Machine

open Sys2Proof.Claims

/-- The notifications of FILL_BUFFER at the end of a sample (R287). -/
def endNotes (enabled : Bool) : List Notification := .dmcDisabled :: (if enabled then [.irqChanged] else [])

/-- Between `s` and `t` RECALC_IRQ notified at most: one `IrqChanged`, or nothing (R222). -/
def recalcNotes (s t : State) : Prop := ∃ l, t.notifications = s.notifications ++ l ∧ (l = [] ∨ l = [.irqChanged])

/-- The command clears the interrupt flag (R285). -/
def clearsIrqFlag (i : Instr) : Prop :=
  (∃ data, i = .wrDmc0 data ∧ dmcIrqEnable data = false) ∨ i = .irqAck ∨ i = .resetDmc

/-- The command can read a sample byte (R220). -/
def readsSample (i : Instr) : Prop := i = .dmcStart ∨ ∃ time endTime, i = .runDmc time endTime

/-- Everything a command can do to the interrupt flag and the notifications, from `s` to `t` (R285, R288, R289). -/
inductive InterruptStep (i : Instr) (s t : State) : Prop
  | keep (flag : t.dmc.irqFlag = s.dmc.irqFlag) (notes : recalcNotes s t)
  | clear (cmd : clearsIrqFlag i) (flag : t.dmc.irqFlag = false) (notes : recalcNotes s t)
  | sampleEnd (cmd : readsSample i) (loop : dmcLoop s.dmc.base.regs.r0 = false) (length : t.dmc.base.lengthCounter = 0)
      (flag : t.dmc.irqFlag = (s.dmc.irqFlag || s.dmc.irqEnabled))
      (notes : t.notifications = s.notifications ++ endNotes s.dmc.irqEnabled)

theorem recalcNotes_refl {s t : State} (h : t.notifications = s.notifications) : recalcNotes s t :=
  ⟨[], by rw [h, List.append_nil], .inl rfl⟩

theorem recalcIrq_notes (m : State) : recalcNotes m (recalcIrq m) := by
  refine ⟨_, recalcIrq_notifications m, ?_⟩
  split
  · exact .inl rfl
  · exact .inr rfl

theorem recalcIrq_irqFlag (m : State) : (recalcIrq m).dmc.irqFlag = m.dmc.irqFlag := by rw [recalcIrq_eq]

/-- A command of another channel touches neither the DMC nor the notifications (R294). -/
theorem frameOf_keeps_dmc {ch : Channel} {s t : State} (h : frameOf ch s t) (hch : ch ≠ .dmc) :
    t.dmc = s.dmc ∧ t.notifications = s.notifications := by
  cases ch with
  | dmc => exact absurd rfl hch
  | sq1 | sq2 | tri | noi => unfold frameOf at h; rw [h]; exact ⟨rfl, rfl⟩

/-- RUN DMC ends a sample or leaves the flag and the notifications (R227). -/
theorem exec_runDmc_interruptStep {time endTime : Nat} {s t : State} (h : exec (.runDmc time endTime) s = .next t) :
    InterruptStep (.runDmc time endTime) s t := by
  rcases exec_runDmc_adds h with ⟨hnotes, hflag, -, -⟩ | ⟨-, hlength, hloop, hflag, -, hnotes⟩
  · exact .keep hflag (recalcNotes_refl hnotes)
  · exact .sampleEnd (.inr ⟨_, _, rfl⟩) hloop hlength hflag hnotes

/-- DMCSTART ends a sample, after which RECALC_IRQ has nothing to change, or leaves the flag (R224, R288). -/
theorem exec_dmcStart_interruptStep {s t : State} (h : exec .dmcStart s = .next t) : InterruptStep .dmcStart s t := by
  obtain ⟨m, hend, rfl, -⟩ := exec_dmcStart_adds h
  rcases hend with ⟨hnotes, hflag, -, -⟩ | ⟨-, hlength, hloop, hflag, hnext, hnotes⟩
  · obtain ⟨l, hl, hcases⟩ := recalcIrq_notes m
    exact .keep ((recalcIrq_irqFlag m).trans hflag) ⟨l, by rw [hl, hnotes]; rfl, hcases⟩
  · refine .sampleEnd (.inl rfl) hloop (by rw [recalcIrq_base]; exact hlength) ((recalcIrq_irqFlag m).trans hflag) ?_
    rw [recalcIrq_notifications, predictIrq_of_no_byte hlength, hnext, if_pos rfl, List.append_nil]
    exact hnotes

/-- `WR DMC, 0` keeps the flag, or leaves the IRQ disabled and the flag clear (R216). -/
theorem exec_wrDmc0_interruptStep {data : Byte} {s t : State} (h : exec (.wrDmc0 data) s = .next t) :
    InterruptStep (.wrDmc0 data) s t := by
  cases h
  rw [dmcWrite0]
  cases hen : dmcIrqEnable data
  · refine .clear (.inl ⟨data, rfl, hen⟩) ?_ (recalcIrq_notes _)
    rw [recalcIrq_irqFlag]
    exact Bool.and_false _
  · refine .keep ?_ (recalcIrq_notes _)
    rw [recalcIrq_irqFlag]
    exact Bool.and_true _

/-- What a command does to the interrupt flag and the notifications. -/
theorem exec_interruptStep {i : Instr} {s t : State} (h : exec i s = .next t) : InterruptStep i s t := by
  by_cases hch : i.channel = .dmc
  swap
  · obtain ⟨hframe, -⟩ := exec_frame h
    obtain ⟨hdmc, hnotes⟩ := frameOf_keeps_dmc hframe hch
    exact .keep (by rw [hdmc]) (recalcNotes_refl hnotes)
  cases i with
  | reset ch | wr ch _ _ | clkLen ch _ | setOut ch _ | setLen ch _ | runSq ch _ _ | clkEnvSq ch | clkSwp ch _ =>
    cases ch <;> cases hch
  | runTri | runNoi | clkEnvNoi | clkLin => cases hch
  | resetDmc => cases h; exact .clear (.inr (.inr rfl)) rfl (recalcNotes_refl rfl)
  | wrDmc0 data => exact exec_wrDmc0_interruptStep h
  | wrDmc1 data => cases h; rw [dmcWrite1_eq]; exact .keep rfl (recalcNotes_refl rfl)
  | wrDmc2 data => cases h; exact .keep rfl (recalcNotes_refl rfl)
  | wrDmc3 data => cases h; exact .keep rfl (recalcNotes_refl rfl)
  | runDmc time endTime => exact exec_runDmc_interruptStep h
  | setOutDmc en => cases h; exact .keep (by rw [Dmc.setOut_eq]; split <;> rfl) (recalcNotes_refl rfl)
  | dmcStart => exact exec_dmcStart_interruptStep h
  | dmcStop => cases h; exact .keep (recalcIrq_irqFlag _) (recalcIrq_notes _)
  | irqAck => cases h; exact .clear (.inr (.inl rfl)) rfl (recalcNotes_refl rfl)
  | cntRd n => cases h; exact .keep rfl (recalcNotes_refl rfl)

theorem recalcNotes_counts {s t : State} (h : recalcNotes s t) : ∃ new : List Notification,
    t.notifications = s.notifications ++ new ∧ new.count .irqChanged ≤ 1 ∧ new.count .dmcDisabled ≤ 1 := by
  obtain ⟨l, hl, hcases⟩ := h
  refine ⟨l, hl, ?_⟩
  rcases hcases with rfl | rfl <;> decide

theorem endNotes_counts (enabled : Bool) :
    (endNotes enabled).count .irqChanged ≤ 1 ∧ (endNotes enabled).count .dmcDisabled ≤ 1 := by
  cases enabled <;> decide

end Sys2Proof.Machine
end

section
/-! SUPPORT. What a command does depends on its own channel, the parameters and the memory reader alone (R294). -/

namespace Sys2Proof.Machine

open Sys2Proof.Claims

/-- What a command of channel `ch` can read is the same in `s` and `s'`: that channel, the parameters, and what decides the memory
reader's answers (R75, R294). -/
structure AgreesOn (ch : Channel) (s s' : State) : Prop where
  params : s'.params = s.params
  mem : s'.mem = s.mem
  reads : s'.memReads = s.memReads
  own : channelSame ch s s'

/-- A command took `s` to `t` and `s'` to `t'` with one effect on its channel, and with the same deltas emitted. -/
structure SameEffect (ch : Channel) (s s' t t' : State) : Prop where
  own : channelSame ch t t'
  emitted : ∃ new, t.acc.log = s.acc.log ++ new ∧ t'.acc.log = s'.acc.log ++ new

/-! ### One channel updated in both states -/

theorem channelSame_sq {ch : SqChannel} {s s' : State} : channelSame ch.toChannel s s' ↔ s'.square ch = s.square ch := by
  cases ch <;> exact Iff.rfl

theorem channelSame_setBase {ch : Channel} {s s' : State} (h : channelSame ch s s') (f : Base → Base) :
    channelSame ch (s.setBase ch (f (s.base ch))) (s'.setBase ch (f (s'.base ch))) := by
  cases ch with
  | sq1 | sq2 => exact congrArg (fun c : Square => { c with base := f c.base }) h
  | tri => exact congrArg (fun c : Triangle => { c with base := f c.base }) h
  | noi => exact congrArg (fun c : Noise => { c with base := f c.base }) h
  | dmc => exact congrArg (fun c : Dmc => { c with base := f c.base }) h

theorem channelSame_setSquare {ch : SqChannel} {s s' : State} (h : channelSame ch.toChannel s s') (f : Square → Square) :
    channelSame ch.toChannel (s.setSquare ch (f (s.square ch))) (s'.setSquare ch (f (s'.square ch))) := by
  rw [channelSame_sq, State.square_setSquare, State.square_setSquare, channelSame_sq.mp h]

theorem channelSame_setTri {s s' : State} (h : channelSame .tri s s') (f : Triangle → Triangle) :
    channelSame .tri (s.setTri (f s.tri)) (s'.setTri (f s'.tri)) := congrArg f h

theorem channelSame_setNoi {s s' : State} (h : channelSame .noi s s') (f : Noise → Noise) :
    channelSame .noi (s.setNoi (f s.noi)) (s'.setNoi (f s'.noi)) := congrArg f h

theorem channelSame_setDmc {s s' : State} (h : channelSame .dmc s s') (f : Dmc → Dmc) :
    channelSame .dmc (s.setDmc (f s.dmc)) (s'.setDmc (f s'.dmc)) := congrArg f h

theorem channelSame_recalcIrq {m m' : State} (h : channelSame .dmc m m') : channelSame .dmc (recalcIrq m) (recalcIrq m') := by
  rw [recalcIrq_eq, recalcIrq_eq]
  exact congrArg (fun c : Dmc => { c with nextIrq := predictIrq c }) h

/-! ### The commands other than RUN -/

/-- RESET of a plain channel reads the binding of that channel alone (R311). -/
theorem execReset_own {ch : PlainChannel} {s s' t : State} (own : channelSame ch.toChannel s s') (h : execReset ch s = .next t) :
    ∃ t', execReset ch s' = .next t' ∧ channelSame ch.toChannel t t' := by
  cases h
  refine ⟨_, rfl, ?_⟩
  cases ch with
  | sq1 | sq2 => exact congrArg (fun c : Square => { Square.powerOn with base := c.base.resetKeepingBinding }) own
  | tri => exact congrArg (fun c : Triangle => { Triangle.powerOn with base := c.base.resetKeepingBinding }) own
  | noi => exact congrArg (fun c : Noise => { Noise.powerOn with base := c.base.resetKeepingBinding }) own

theorem sameDmc_reloadSample {s s' : State} (h : AgreesOn .dmc s s') : sameDmc (reloadSample s) (reloadSample s') :=
  ⟨congrArg (fun c : Dmc => { c with
      address := c.base.regs.sampleStart, base := { c.base with lengthCounter := c.base.regs.sampleLength } }) h.own,
    h.params, h.mem, h.reads⟩

/-- DMCSTART reads the DMC, and of the rest what FILL_BUFFER reads (R224). -/
theorem exec_dmcStart_own {s s' t : State} (h : AgreesOn .dmc s s') (ht : exec .dmcStart s = .next t) :
    ∃ t', exec .dmcStart s' = .next t' ∧ channelSame .dmc t t' := by
  obtain ⟨hfill, rfl⟩ := execDmcStart_next ht
  obtain ⟨m', hm', hdmc, -⟩ := fillBuffer_sameDmc (sameDmc_reloadSample h) hfill
  exact ⟨_, exec_dmcStart_of_fillBuffer hm', channelSame_recalcIrq hdmc⟩

/-- `WR DMC, 0` reads the DMC and `PAL[DMC]` (R216). -/
theorem dmcWrite0_own {s s' : State} (h : AgreesOn .dmc s s') (data : Byte) :
    channelSame .dmc (dmcWrite0 data (dmcWriteReg .r0 data s)) (dmcWrite0 data (dmcWriteReg .r0 data s')) := by
  have own : s'.dmc = s.dmc := h.own
  refine channelSame_recalcIrq ?_
  simp only [channelSame, dmcWriteReg, State.setDmc_dmc, State.setDmc_params, h.params, own]

/-- `WR DMC, 1` reads the DMC and `NONLINEAR` (R217). -/
theorem dmcWrite1_own {s s' : State} (h : AgreesOn .dmc s s') (data : Byte) :
    channelSame .dmc (dmcWrite1 data (dmcWriteReg .r1 data s)) (dmcWrite1 data (dmcWriteReg .r1 data s')) := by
  have own : s'.dmc = s.dmc := h.own
  rw [dmcWrite1_eq, dmcWrite1_eq]
  exact congrArg₂ (fun (p : Params) (c : Dmc) => { c with
    dac := dmcDacLoad data
    base := { c.base.writeReg .r1 data with lastAmp :=
      if p.nonlinear then c.base.lastAmp else Config.dacComp c.dac.toNat (dmcDacLoad data).toNat } }) h.params own

/-- CLKSWP reads its square channel alone, whether it is admitted or not (R181). -/
theorem execClkSwp_own {ch : SqChannel} {m8 : Byte} {s s' t : State} (own : channelSame ch.toChannel s s')
    (h : execClkSwp ch m8 s = .next t) : ∃ t', execClkSwp ch m8 s' = .next t' ∧ channelSame ch.toChannel t t' := by
  unfold execClkSwp at h ⊢
  by_cases hm : legalNegativeAdjust m8 = true
  · rw [if_pos hm] at h ⊢
    cases h
    exact ⟨_, rfl, channelSame_setSquare own (·.clockSweep (negativeAdjust m8))⟩
  · rw [if_neg hm] at h ⊢
    cases h
    exact ⟨_, rfl, channelSame_sq.mpr (channelSame_sq.mp own)⟩

/-- A command other than RUN does to its channel the same in states that agree on it. -/
theorem exec_own_of_not_run {i : Instr} {s s' t : State} (hrun : ∀ ch a b, i ≠ runOf ch a b) (hs : AgreesOn i.channel s s')
    (h : exec i s = .next t) : ∃ t', exec i s' = .next t' ∧ channelSame i.channel t t' := by
  have own := hs.own
  cases i with
  | runSq ch a b => exact absurd (by cases ch <;> rfl) (hrun ch.toChannel a b)
  | runTri a b => exact absurd rfl (hrun .tri a b)
  | runNoi a b => exact absurd rfl (hrun .noi a b)
  | runDmc a b => exact absurd rfl (hrun .dmc a b)
  | reset ch => exact execReset_own own h
  | resetDmc =>
    cases h
    exact ⟨_, rfl, channelSame_setDmc own fun c => { Dmc.powerOn with base := c.base.resetKeepingBinding }⟩
  | wr ch a data => cases h; exact ⟨_, rfl, channelSame_setBase own (·.writeReg a data)⟩
  | wrDmc0 data => cases h; exact ⟨_, rfl, dmcWrite0_own hs data⟩
  | wrDmc1 data => cases h; exact ⟨_, rfl, dmcWrite1_own hs data⟩
  | wrDmc2 data => cases h; exact ⟨_, rfl, channelSame_setBase own (·.writeReg .r2 data)⟩
  | wrDmc3 data => cases h; exact ⟨_, rfl, channelSame_setBase own (·.writeReg .r3 data)⟩
  | clkLen ch m => cases h; exact ⟨_, rfl, channelSame_setBase own (·.clockLength m)⟩
  | clkEnvSq ch => cases h; exact ⟨_, rfl, channelSame_setSquare own (·.clockEnvelope)⟩
  | clkEnvNoi => cases h; exact ⟨_, rfl, channelSame_setNoi own (·.clockEnvelope)⟩
  | clkSwp ch m8 => exact execClkSwp_own own h
  | clkLin => cases h; exact ⟨_, rfl, channelSame_setTri own (·.clockLinear)⟩
  | setOut ch en => cases h; exact ⟨_, rfl, channelSame_setBase own fun b => { b with outEn := en }⟩
  | setOutDmc en => cases h; exact ⟨_, rfl, channelSame_setDmc own (·.setOut en)⟩
  | setLen ch n => cases h; exact ⟨_, rfl, channelSame_setBase own fun b => { b with lengthCounter := n.toNat }⟩
  | dmcStart => exact exec_dmcStart_own hs h
  | dmcStop =>
    cases h
    exact ⟨_, rfl, channelSame_recalcIrq
      (channelSame_setDmc own fun c => { c with base := { c.base with lengthCounter := 0 } })⟩
  | irqAck => cases h; exact ⟨_, rfl, channelSame_setDmc own fun c => { c with irqFlag := false }⟩
  | cntRd n => cases h; exact ⟨_, rfl, own⟩

/-! ### RUN over a non-empty window -/

/-- Two runs of one channel, from the accumulators `a` and `a'` to those of `r` and `r'`, leave the channel the same and emit the
same. -/
def SameRun {σ : Type} (a a' : Accum) (r r' : σ × Accum) : Prop :=
  r'.1 = r.1 ∧ ∃ new, r.2.log = a.log ++ new ∧ r'.2.log = a'.log ++ new

/-- What RUN leaves of a square channel and what it emits do not depend on the accumulator (R184). -/
theorem runSquare_sameRun (ch : Channel) (time endTime : Nat) (c : Square) (a a' : Accum) :
    SameRun a a' (runSquare ch time endTime c.untriggered a) (runSquare ch time endTime c.untriggered a') := by
  rw [runSquare_eq _ _ _ _ a rfl, runSquare_eq _ _ _ _ a' rfl]
  exact ⟨rfl, _, waveAcc_log _ _ _ _ _ _ _ _ _, waveAcc_log _ _ _ _ _ _ _ _ _⟩

theorem runTriangle_sameRun (time endTime : Nat) (c : Triangle) (a a' : Accum) :
    SameRun a a' (runTriangle time endTime c.untriggered a) (runTriangle time endTime c.untriggered a') := by
  rw [runTriangle_iter _ _ _ a rfl, runTriangle_iter _ _ _ a' rfl]
  exact ⟨rfl, _, waveAcc_log _ _ _ _ _ _ _ _ _, waveAcc_log _ _ _ _ _ _ _ _ _⟩

theorem runNoise_sameRun (pal : Bool) (time endTime : Nat) (c : Noise) (a a' : Accum) :
    SameRun a a' (runNoise pal time endTime c.untriggered a) (runNoise pal time endTime c.untriggered a') := by
  rw [runNoise_eq _ _ _ _ a rfl, runNoise_eq _ _ _ _ a' rfl]
  exact ⟨rfl, _, waveAcc_log _ _ _ _ _ _ _ _ _, waveAcc_log _ _ _ _ _ _ _ _ _⟩

section
variable {time endTime : Nat} {s s' t : State} (hlt : time < endTime)
include hlt

theorem exec_runSq_sameEffect {ch : SqChannel} (hs : AgreesOn ch.toChannel s s')
    (h : exec (.runSq ch time endTime) s = .next t) :
    ∃ t', exec (.runSq ch time endTime) s' = .next t' ∧ SameEffect ch.toChannel s s' t t' := by
  obtain ⟨hown, hemits⟩ := runSquare_sameRun ch.toChannel time endTime (s.square ch) s.acc s'.acc
  rw [exec_runSq_next hlt] at h
  cases h
  refine ⟨_, exec_runSq_next hlt, channelSame_sq.mpr ?_, ?_⟩
  all_goals
    simp only [State.clearTrigger_square, State.square_setSquare, State.square_setAcc, State.setAcc_acc,
      channelSame_sq.mp hs.own]
  · exact hown
  · exact hemits

theorem exec_runTri_sameEffect (hs : AgreesOn .tri s s') (h : exec (.runTri time endTime) s = .next t) :
    ∃ t', exec (.runTri time endTime) s' = .next t' ∧ SameEffect .tri s s' t t' := by
  have own : s'.tri = s.tri := hs.own
  obtain ⟨hown, hemits⟩ := runTriangle_sameRun time endTime s.tri s.acc s'.acc
  rw [exec_runTri_next hlt] at h
  cases h
  refine ⟨_, exec_runTri_next hlt, ?_⟩
  rw [State.clearTrigger_tri, State.clearTrigger_tri, own]
  exact ⟨hown, hemits⟩

theorem exec_runNoi_sameEffect (hs : AgreesOn .noi s s') (h : exec (.runNoi time endTime) s = .next t) :
    ∃ t', exec (.runNoi time endTime) s' = .next t' ∧ SameEffect .noi s s' t t' := by
  have own : s'.noi = s.noi := hs.own
  obtain ⟨hown, hemits⟩ := runNoise_sameRun s.params.palNoi time endTime s.noi s.acc s'.acc
  rw [exec_runNoi_next hlt] at h
  cases h
  refine ⟨_, exec_runNoi_next hlt, ?_⟩
  rw [State.clearTrigger_noi, State.clearTrigger_noi, own, hs.params]
  exact ⟨hown, hemits⟩

end

/-- The first edges of a run that goes on go on. -/
theorem dmcEdges_goOn_of_le {p n first k : Nat} {u v : State} (hv : dmcEdges p n first u = .goOn v) (hk : k ≤ n) :
    ∃ m, dmcEdges p k first u = .goOn m := by
  rw [← Nat.add_sub_of_le hk, dmcEdges_add] at hv
  obtain ⟨m, hm, -⟩ := Flow.bind_eq_goOn hv
  exact ⟨m, hm⟩

/-- The levels of unbound edges that go on depend on the DMC, the parameters and the memory alone. -/
theorem dmcLevel_sameDmc {p n first k : Nat} {u u' v : State} (hu : u.dmc.base.outEn = false) (h : sameDmc u u')
    (hv : dmcEdges p n first u = .goOn v) (hk : k ≤ n) : dmcLevel p first u' k = dmcLevel p first u k := by
  obtain ⟨m, hm⟩ := dmcEdges_goOn_of_le hv hk
  obtain ⟨m', hm', hdmc, -⟩ := dmcEdges_sameDmc hu h hm
  rw [dmcLevel_of_goOn hm, dmcLevel_of_goOn hm', hdmc]

theorem sameDmc_unbind {s s' : State} (h : AgreesOn .dmc s s') : sameDmc s.unbind s'.unbind :=
  ⟨congrArg (fun c : Dmc => { c with base := { c.base with outEn := false, lastAmp := 0, trigger := false } }) h.own,
    h.params, h.mem, h.reads⟩

/-- RUN on the DMC: its unbound edges go through the same levels to the same DMC, and the wave is tracked from one base state (R227). -/
theorem exec_runDmc_sameEffect {time endTime : Nat} {s s' t : State} (hlt : time < endTime) (hs : AgreesOn .dmc s s')
    (h : exec (.runDmc time endTime) s = .next t) :
    ∃ t', exec (.runDmc time endTime) s' = .next t' ∧ SameEffect .dmc s s' t t' := by
  have own : s'.dmc = s.dmc := hs.own
  obtain ⟨v, hv, rfl⟩ := exec_runDmc_eq_next hlt h
  obtain ⟨v', hv', hdmc, -⟩ := dmcEdges_sameDmc rfl (sameDmc_unbind hs) hv
  have hlevel := fun k => dmcLevel_sameDmc (k := k) rfl (sameDmc_unbind hs) hv
  refine ⟨_, exec_runDmc_afterRunDmc hlt (by rw [own]; exact hv'), ?_, ?_⟩
  all_goals rw [own]
  · simp only [channelSame, State.afterRunDmc, State.withWave, State.withClock, waveBase_congr _ _ hlevel, own, hdmc]
  · refine ⟨_, waveAcc_log _ _ _ _ _ _ _ _ _, ?_⟩
    simp only [State.afterRunDmc, State.withWave, State.withClock, waveAcc_congr _ _ _ _ _ _ hlevel, own]
    exact waveAcc_log _ _ _ _ _ _ _ _ _

/-- RUN has the same effect in states that agree on its channel; a reversed and an empty window have none. -/
theorem exec_runOf_sameEffect {ch : Channel} {time endTime : Nat} {s s' t : State} (hs : AgreesOn ch s s')
    (h : exec (runOf ch time endTime) s = .next t) :
    ∃ t', exec (runOf ch time endTime) s' = .next t' ∧ SameEffect ch s s' t t' := by
  have hnone : ∃ new, s.acc.log = s.acc.log ++ new ∧ s'.acc.log = s'.acc.log ++ new :=
    ⟨[], (List.append_nil _).symm, (List.append_nil _).symm⟩
  rcases window_cases time endTime with hw | rfl | hw
  · rw [exec_runOf_reversed hw] at h; cases h
    refine ⟨_, exec_runOf_reversed hw, ?_, hnone⟩
    cases ch <;> exact hs.own
  · rw [exec_runOf_empty] at h; cases h
    exact ⟨_, exec_runOf_empty, hs.own, hnone⟩
  cases ch with
  | sq1 => exact exec_runSq_sameEffect (ch := .sq1) hw hs h
  | sq2 => exact exec_runSq_sameEffect (ch := .sq2) hw hs h
  | tri => exact exec_runTri_sameEffect hw hs h
  | noi => exact exec_runNoi_sameEffect hw hs h
  | dmc => exact exec_runDmc_sameEffect hw hs h

end Sys2Proof.Machine
end

section
/-! PROOF. The statements about admission, faults, the DMC interrupt and the independence of the channels (R280 to R289, R294). -/

namespace Sys2Proof.Machine

open Sys2Proof.Claims

/-- Settles O50, from the frame of every command. -/
theorem otherChannelsUntouched : Obligations.OtherChannelsUntouched := by
  intro i s t h
  obtain ⟨hframe, -⟩ := exec_frame h
  exact frameOf_othersSame hframe

/-- Settles O43: every step of a faulted block empties the port by one command and leaves it faulted. -/
theorem faultedBlockIsStuck : Obligations.FaultedBlockIsStuck := by
  intro s k hf
  induction k generalizing s with
  | zero => rfl
  | succ k ih =>
    refine (core_run_succ (M := Sys2Proof.core) (step_of_faulted hf) k).trans
      ((ih { s with pending := s.pending.drop 1 } hf).trans ?_)
    rw [List.drop_drop, Nat.add_comm]

/-- Settles O4: the two checks of admission in their order, and the window check of RUN. -/
theorem admissionOrder : Obligations.AdmissionOrder := by
  intro s c rest hp
  refine ⟨fun hf => ?_, fun hf _ hd => step_of_decode_error hf hp hd, fun hf _ hd => step_of_decode_ok hf hp hd,
    fun hf ch time endTime hd hrev => ?_⟩
  · rw [step_of_faulted hf, hp]
    rfl
  · rw [step_of_decode_ok hf hp hd, exec_runOf_reversed hrev]

/-- Settles O27: the carried state is the one after the reload. -/
theorem dmcStartWithoutReaderIsFatal : Obligations.DmcStartWithoutReaderIsFatal := by
  intro s hr hb
  exact ⟨_, exec_dmcStart_fatal hr hb, Regs.sampleStart_toNat _, Regs.sampleLength_eq _, rfl⟩

/-- Settles O32: the edges before the reading one need no reader, and the reload step has happened when it stops. -/
theorem runDmcFatalKeepsEarlierEffects : Obligations.RunDmcFatalKeepsEarlierEffects := by
  intro time endTime s hr hp h1 hb hl hin
  rw [exec_runDmc_noReader h1 hr hb hl hp hin, ← dacAfter_unbind]
  rfl

/-- Settles O42: all commands but two complete, and those two stop only at a read. -/
theorem onlyMissingReaderStopsABlock : Obligations.OnlyMissingReaderStopsABlock := by
  intro i s
  have hnext : (∃ t, exec i s = .next t) → ∃ t, exec i s = .next t ∧ t.faulted = s.faulted := by
    rintro ⟨t, ht⟩
    obtain ⟨hframe, -⟩ := exec_frame ht
    obtain ⟨-, -, hfaulted, -⟩ := frameOf_keeps hframe
    exact ⟨t, ht, hfaulted⟩
  by_cases hstart : i = .dmcStart
  · subst hstart
    refine (exec_dmcStart_outcome s).imp hnext fun ⟨t, ht, hs⟩ => ?_
    exact ⟨t, ht, .inl rfl, hs.noReader, hs.faulted, hs.reads, hs.others, hs.params⟩
  by_cases hrun : ∃ time endTime, i = .runDmc time endTime
  · obtain ⟨time, endTime, rfl⟩ := hrun
    refine (exec_runDmc_outcome time endTime s).imp hnext fun ⟨t, ht, hs⟩ => ?_
    exact ⟨t, ht, .inr ⟨time, endTime, rfl⟩, hs.noReader, hs.faulted, hs.reads, hs.others, hs.params⟩
  · exact .inl (hnext (exec_total i s hstart fun time endTime h => hrun ⟨time, endTime, h⟩))

/-- Settles O38: RECALC_IRQ notifies once at most, and at the end of a sample it has nothing left to change. -/
theorem atMostOneIrqChangedPerCommand : Obligations.AtMostOneIrqChangedPerCommand := by
  intro i s t h
  cases exec_interruptStep h with
  | keep _ notes => exact recalcNotes_counts notes
  | clear _ _ notes => exact recalcNotes_counts notes
  | sampleEnd _ _ _ _ notes => exact ⟨_, notes, endNotes_counts _⟩

/-- Settles O39: of the ways a command moves the flag, only the end of a sample sets it. -/
theorem irqFlagLifeCycle : Obligations.IrqFlagLifeCycle := by
  intro i s t h
  cases exec_interruptStep h with
  | keep flag _ =>
    rw [flag]
    exact ⟨fun hclear hset => by simp [hclear] at hset, fun hset hclear => by simp [hset] at hclear⟩
  | clear cmd flag _ =>
    rw [flag]
    refine ⟨fun _ hset => absurd hset Bool.false_ne_true, fun _ _ => ?_⟩
    rcases cmd with ⟨data, rfl, hen⟩ | cmd
    · exact .inl ⟨data, rfl, by rw [← dmcIrqEnable_iff, hen]; exact Bool.false_ne_true⟩
    · exact .inr cmd
  | sampleEnd cmd loop length flag notes =>
    obtain ⟨-, hnoloop⟩ := dmcLoop_iff s.dmc.base.regs.r0
    refine ⟨fun hclear hset => ?_, fun hset hclear => ?_⟩
    · have hen : s.dmc.irqEnabled = true := by rw [flag, hclear] at hset; exact hset
      rw [hen] at notes
      exact ⟨cmd, hen, hnoloop.mp loop, length, notes⟩
    · rw [flag, hset] at hclear
      cases hclear

/-- Settles O51: a RUN has the same effect on the channel and emits the same; any other command emits nothing. -/
theorem ownChannelAloneDecides : Obligations.OwnChannelAloneDecides := by
  intro i s s' t hparams hmem hreads hsame h
  have hs : AgreesOn i.channel s s' := ⟨hparams, hmem, hreads, hsame⟩
  rcases runOf_cases i with ⟨ch, time, endTime, rfl⟩ | hrun
  · rw [runOf_channel] at hs ⊢
    obtain ⟨t', ht', hown, new, hlog, hlog'⟩ := exec_runOf_sameEffect hs h
    exact ⟨t', new, ht', hown, hlog, hlog'⟩
  · obtain ⟨t', ht', hown⟩ := exec_own_of_not_run hrun hs h
    refine ⟨t', [], ht', hown, ?_, ?_⟩
    · rw [exec_acc_of_not_run hrun h, List.append_nil]
    · rw [exec_acc_of_not_run hrun ht', List.append_nil]

end Sys2Proof.Machine
end

section
/-! SUPPORT. RESET of any channel, its frame, and the words with a reserved channel number (R111, R311). -/

namespace Sys2Proof.Machine

open Sys2Proof.Claims

@[simp] theorem resetOf_channel (ch : Channel) : (resetOf ch).channel = ch := by cases ch <;> rfl

/-- RESET leaves the other channels, as every command does (R311). -/
theorem exec_resetOf_othersSame {ch : Channel} {s t : State} (h : exec (resetOf ch) s = .next t) : othersSame ch s t := by
  obtain ⟨hframe, -⟩ := exec_frame h
  rw [resetOf_channel] at hframe
  exact frameOf_othersSame hframe

/-- A reserved channel number is illegal with any operation (R111). -/
theorem decode_error_of_reserved_channel {c : Command} (h : 5 ≤ field c.word 27 25) : ∃ e, decode c = .error e :=
  (illegalWord_iff c).mp (.inr (.inl h))

theorem State.reset_base (ch : Channel) : State.reset.base ch = Base.powerOn := by cases ch <;> rfl

end Sys2Proof.Machine
end

section
/-! PROOF. The statements about power-on and the RESET command (R310, R311). -/

namespace Sys2Proof.Machine

open Sys2Proof.Claims

/-- Settles O40: the next state of RESET channel by channel, and a channel number R111 reserves. -/
theorem resetCommandResult : Obligations.ResetCommandResult := by
  refine ⟨fun ch s => ?_, fun c _ hch => decode_error_of_reserved_channel hch⟩
  cases ch with
  | sq1 => exact ⟨_, rfl, exec_resetOf_othersSame (ch := .sq1) rfl, rfl, fun _ => rfl, nofun, nofun, nofun, nofun, rfl⟩
  | sq2 => exact ⟨_, rfl, exec_resetOf_othersSame (ch := .sq2) rfl, rfl, nofun, fun _ => rfl, nofun, nofun, nofun, rfl⟩
  | tri => exact ⟨_, rfl, exec_resetOf_othersSame (ch := .tri) rfl, rfl, nofun, nofun, fun _ => rfl, nofun, nofun, rfl⟩
  | noi => exact ⟨_, rfl, exec_resetOf_othersSame (ch := .noi) rfl, rfl, nofun, nofun, nofun, fun _ => rfl, nofun, rfl⟩
  | dmc => exact ⟨_, rfl, exec_resetOf_othersSame (ch := .dmc) rfl, rfl, nofun, nofun, nofun, nofun, fun _ => rfl, rfl⟩

/-- Settles O41: the base state is the same for every channel, and each other field has the value of its row of R51. -/
theorem powerOnValues : Obligations.PowerOnValues :=
  ⟨State.reset_base, rfl, rfl, rfl, rfl, rfl, rfl, rfl, rfl, rfl, rfl, rfl, rfl, rfl, rfl⟩

end Sys2Proof.Machine
end
